-- ==== Sys2Proof/Word.lean ====
section
/-! DEFINITION. The bit patterns of VPHA: bytes, u32 words and u64 addresses, lengths and offsets (R9, R12, R13). -/

namespace Sys2Proof

/-- One byte of the memory space (R60). -/
abbrev Byte := BitVec 8

/-- A u32 (R12). `+` and `*` on it are the spec's `+₃₂` and `×₃₂`: they wrap mod 2^32 (R13). -/
abbrev Word := BitVec 32

/-- A u64: an address, a length or an offset (R9, AW = 64). -/
abbrev DWord := BitVec 64

end Sys2Proof
end

