-- ==== Sys2Proof/Syntax.lean ====
section
/-! DEFINITION. The commands of VPHA, one constructor per row of the opcode map (R83), whole. -/

namespace Sys2Proof

/-- A command (R83). No command has an immediate or a register field (R89); RDBLK alone carries WSEL (R82). -/
inductive Instr where
  /-- NOP, R158. -/
  | nop
  /-- CINIT, R104. -/
  | cinit
  /-- AINIT, R131. -/
  | ainit
  /-- BLK, R132. -/
  | blk
  /-- RED, R140. -/
  | red
  /-- TAIL, R142. -/
  | tail
  /-- FIN, R143. -/
  | fin
  /-- HASH, R150. -/
  | hash
  /-- RDBYTE, R119. -/
  | rdbyte
  /-- RDBLK, R120, with the value of its WSEL field (R82). -/
  | rdblk (wsel : Nat)
  /-- CLR, R159. -/
  | clr
  deriving DecidableEq, Repr

end Sys2Proof
end

