-- ==== Sys2Proof/WellFormed.lean ====
section
/-! DEFINITION. Which commands a command word can carry (R81, R82). -/

namespace Sys2Proof

/-- The one check: WSEL is a 2-bit field (R81, R82). Its reserved codes 2 and 3 ARE well formed: such a word decodes to
RDBLK (R84), and RDBLK then raises E_WIDTH (R120). -/
def Instr.wellFormed : Instr → Bool
  | .nop => true
  | .cinit => true
  | .ainit => true
  | .blk => true
  | .red => true
  | .tail => true
  | .fin => true
  | .hash => true
  | .rdbyte => true
  | .rdblk wsel => decide (wsel < 4)
  | .clr => true

end Sys2Proof
end

