-- ==== Sys2Proof/Decode.lean ====
section
/-! DEFINITION. Command words: their fields (R81), the decoder (R84) and the encoder (R83). Decoding looks at nothing but the word (R88). -/

namespace Sys2Proof

/-- Why a word decodes to ILLEGAL (R85, R86). The machine treats the three alike: E_ILLEGAL when accepted. -/
inductive Illegal where
  /-- RSV ≠ 0 (R85). -/
  | reservedBits
  /-- WSEL ≠ 0 on an opcode other than RDBLK's (R85). -/
  | widthSelect
  /-- OPC in 0x0B to 0xFF (R86). -/
  | reservedOpcode
  deriving DecidableEq, Repr

/-- OPC, bits 7:0 (R81). -/
def opcField (w : Word) : BitVec 8 := w.extractLsb' 0 8

/-- WSEL, bits 9:8 (R81). -/
def wselField (w : Word) : BitVec 2 := w.extractLsb' 8 2

/-- RSV, bits 31:10 (R81). -/
def rsvField (w : Word) : BitVec 22 := w.extractLsb' 10 22

/-- The command of an opcode that takes no WSEL (R83). -/
def plainCommand (opc : Nat) : Except Illegal Instr :=
  match opc with
  | 0x00 => .ok .nop
  | 0x01 => .ok .cinit
  | 0x02 => .ok .ainit
  | 0x03 => .ok .blk
  | 0x04 => .ok .red
  | 0x05 => .ok .tail
  | 0x06 => .ok .fin
  | 0x07 => .ok .hash
  | 0x08 => .ok .rdbyte
  | 0x0A => .ok .clr
  | _ => .error .reservedOpcode

/-- The decode function of R84, total on every word, tested in R84's order. -/
def decode (w : Word) : Except Illegal Instr :=
  if rsvField w ≠ 0 then .error .reservedBits
  else if opcField w = 0x09 then .ok (.rdblk (wselField w).toNat)
  else if wselField w ≠ 0 then .error .widthSelect
  else plainCommand (opcField w).toNat

/-- The opcode of each command (R83). -/
def opcode : Instr → BitVec 8
  | .nop => 0x00
  | .cinit => 0x01
  | .ainit => 0x02
  | .blk => 0x03
  | .red => 0x04
  | .tail => 0x05
  | .fin => 0x06
  | .hash => 0x07
  | .rdbyte => 0x08
  | .rdblk _ => 0x09
  | .clr => 0x0A

/-- The WSEL field of each command (R81, R82). -/
def widthSelect : Instr → BitVec 2
  | .nop => 0
  | .cinit => 0
  | .ainit => 0
  | .blk => 0
  | .red => 0
  | .tail => 0
  | .fin => 0
  | .hash => 0
  | .rdbyte => 0
  | .rdblk wsel => BitVec.ofNat 2 wsel
  | .clr => 0

/-- The command word of a well-formed command: `{RSV = 0, WSEL, OPC}` (R81, R83). -/
def encode (i : Instr) : Word := (0#22 ++ widthSelect i) ++ opcode i

/-- The instruction the decoder reads from a table row's bits. A command is one 32-bit word (R80), delivered whole by one
host write, so there is no byte order to apply; bits above `nbits` are 0. -/
def decodeTableWord (nbits w : Nat) : Option Instr :=
  (decode (BitVec.ofNat 32 (w % 2 ^ nbits))).toOption

end Sys2Proof
end

