-- ==== Sys2Proof/Config.lean ====
section
/-! DEFINITION. The parameters this instance VPHA-L8G4 fixes (R6 to R10), and the free values the spec leaves open. -/

namespace Sys2Proof.Config

/-- Lanes of one vector and bytes of one sub-block (R6). -/
abbrev L : Nat := 8

/-- Accumulator vectors and sub-blocks of one block (R7). -/
abbrev G : Nat := 4

/-- Bytes of one block, `G · L` (R8). -/
abbrev B : Nat := 32

/-- Lanes of the adapter test buffer (R10). -/
abbrev VB : Nat := 32

/-- Number of addresses of the memory space, `2^AW` (R9, R60). -/
abbrev memTop : Nat := 2 ^ 64

/-- What an address that the memory lists nothing for holds.
DESIGN CHOICE, notes/assumptions/4.md. The spec leaves MEM open (R11, D35). Unsafe only for a claim about one fixed memory:
every memory can be written out as a list, so a claim for every state is a claim for every MemByte. -/
def unlistedByte : Byte := 0

/-- FREE VALUE, notes/assumptions/2.md. The draw that a host read of a register which holds no value returns (R56).
It is applied to the state's draw counter, so two reads may return different values. -/
opaque draw : Nat → Word

/-- FREE VALUE, notes/assumptions/3.md. The draw that a memory read returns for a byte that another agent is writing (R72).
It is applied to the draw counter and the address. -/
opaque drawByte : Nat → Nat → Byte

end Sys2Proof.Config
end

