-- ==== Sys2Proof/Machine/State.lean ====
section
/-! DEFINITION. The state of VPHA (R25) and of the outside world that acts on it (R20 to R23), as plain data; the machine after reset (R191). -/

namespace Sys2Proof.Machine

/-- PHASE, the position of the step commands in the algorithm (R28). -/
inductive Phase where
  | idle
  | acc
  | scalar
  | fault
  deriving DecidableEq, Repr

/-- HSEQ, the position of the HASH sequencer (R29). -/
inductive Hseq where
  | none
  | init
  | bloop
  | tloop
  deriving DecidableEq, Repr

/-- ERRCODE (R171). Codes 8 to 15 are never produced, and this type has none of them. -/
inductive ErrCode where
  | none
  | range
  | illegal
  | seq
  | noTable
  | kind
  | bus
  | width
  deriving DecidableEq, Repr

/-- SRC_KIND.KIND (R41, R94). -/
inductive SrcKind where
  | own
  | win
  | foreign
  | reserved
  deriving DecidableEq, Repr

/-- A vector of L = 8 lanes (R14). Lane i is the field `li`. -/
structure Lanes where
  l0 : Word
  l1 : Word
  l2 : Word
  l3 : Word
  l4 : Word
  l5 : Word
  l6 : Word
  l7 : Word
  deriving DecidableEq, Repr

/-- Four vectors: the accumulator file H, the coefficient file COEFF, or VBUF read as 4 rows of 8 lanes (R52 to R54). -/
structure Bank where
  v0 : Lanes
  v1 : Lanes
  v2 : Lanes
  v3 : Lanes
  deriving DecidableEq, Repr

/-- The vector whose every lane is 0. -/
def Lanes.zero : Lanes := ⟨0, 0, 0, 0, 0, 0, 0, 0⟩

/-- The file whose every lane is 0. -/
def Bank.zero : Bank := ⟨Lanes.zero, Lanes.zero, Lanes.zero, Lanes.zero⟩

/-- Which registers of R56 hold a value: a register whose reset value is unspecified holds none until a command writes it.
COEFF and CARRY need no entry: they hold values exactly when CT_VALID = 1 (R34).
DESIGN CHOICE, notes/assumptions/10.md. -/
structure Written where
  /-- H and SH: AINIT writes both (R131). -/
  acc : Bool
  /-- RESULT: FIN writes it (R143). -/
  result : Bool
  /-- RDATA: RDBYTE writes it (R119). -/
  rdata : Bool
  /-- The lanes VBUF[0 .. n−1] hold values: RDBLK writes a run from lane 0 (R120). -/
  vbufLanes : Nat
  deriving DecidableEq, Repr

/-- Reads the platform refuses: those of `width` bytes that start at an address from `first` to `last`. -/
structure RefusedReads where
  first : Nat
  last : Nat
  width : Nat
  deriving DecidableEq, Repr

/-- The platform memory, the OPEN parameter MEM = (MemAdmit, MemByte) of R11 as plain data, with the bytes that another
agent is writing at this moment (R72). -/
structure Memory where
  /-- MemByte: address and byte, addresses strictly rising, no byte equal to what an unlisted address holds. -/
  cells : List Host.Cell
  /-- The complement of MemAdmit. Any MemAdmit is such a list, since there are finitely many reads. -/
  refused : List RefusedReads
  /-- The addresses of the bytes another agent is writing, no repeats. -/
  storing : List Nat
  deriving DecidableEq, Repr

/-- One request on the memory read port (R22). -/
structure MemRequest where
  addr : Nat
  bytes : Nat
  deriving DecidableEq, Repr

/-- One event from outside VPHA (R20, R21, R23). -/
inductive HostAction where
  /-- `RegWrite(ra, d)` of a host access `bits` bits wide (R21, R36). -/
  | regWrite (ra : BitVec 12) (bits : Nat) (d : Word)
  /-- `RegRead(ra)` of a host access `bits` bits wide (R21, R36). -/
  | regRead (ra : BitVec 12) (bits : Nat)
  /-- The reset input is applied (R23, R190). -/
  | rst
  /-- The host or another agent begins to write the byte at `a`; it is being written until a `store` to `a` ends it (R72). -/
  | storeBegin (a : DWord)
  /-- The host's or another agent's store of `b` to `a` completes (R71). -/
  | store (a : DWord) (b : Byte)
  /-- Nothing happens outside VPHA: the turn is VPHA's (R20, the interleaving). -/
  | pause
  deriving DecidableEq, Repr

/-- Everything the spec gives the machine. The first group is R25's table, field by field; the second is the outside world
and the model's own bookkeeping. -/
structure State where
  /-- COEFF[g][i] -/
  coeff : Bank
  /-- CARRY -/
  carry : Word
  /-- CT_VALID -/
  ctValid : Bool
  /-- H[g][i] -/
  h : Bank
  /-- SH -/
  sh : Word
  /-- OFFSET -/
  offset : DWord
  /-- RESULT -/
  result : Word
  /-- SRC_KIND.KIND -/
  kind : SrcKind
  /-- SRC_BASE -/
  base : DWord
  /-- SRC_LEN -/
  len : DWord
  /-- SRC_WOFF -/
  woff : DWord
  /-- ARG -/
  arg : DWord
  /-- RDATA -/
  rdata : Word
  /-- VBUF[j], as row j / 8, lane j % 8 -/
  vbuf : Bank
  /-- PHASE -/
  phase : Phase
  /-- HSEQ -/
  hseq : Hseq
  /-- STATUS.DONE -/
  done : Bool
  /-- STATUS.OVR -/
  ovr : Bool
  /-- ERRCODE -/
  errCode : ErrCode
  /-- ERR_OFF -/
  errOff : DWord
  /-- ERR_WIDTH -/
  errWidth : Word
  /-- MODEL: which registers hold a value (R56). -/
  written : Written
  /-- PLATFORM: the memory behind the read port (R11). -/
  mem : Memory
  /-- OUTSIDE: what the host, the reset input and the other agents do next, in order, `pause` where VPHA moves (R20). -/
  host : List HostAction
  /-- OUTSIDE: the values `RegRead` has returned, newest first (R21). -/
  replies : List Word
  /-- OUTSIDE: the requests VPHA has issued on the memory read port, newest first (R22). -/
  reads : List MemRequest
  /-- MODEL: the counter the free values are drawn with (notes/assumptions/2.md). -/
  draws : Nat
  deriving DecidableEq, Repr

/-- The reasons for which the machine could stop dead. There are none: a fault of VPHA is a state, PHASE = FAULT, which the
host can read and clear (R170), and no behaviour of VPHA is stuck (93_implementation_defined.md). The type has no
constructor, so nobody raises one: that is safe, because the spec gives every step a next state. -/
inductive Fault
  deriving DecidableEq, Repr

/-- The reasons for which the model has no meaning for an instruction. -/
inductive Refusal where
  /-- Raised by an arm of `exec` whose instruction has no meaning yet, with its mnemonic. No arm is one now. Safe: a run
  that meets it stops. -/
  | notModelled (mnemonic : String)
  deriving DecidableEq, Repr

/-- No register of R56 holds a value. -/
def Written.nothing : Written := ⟨false, false, false, 0⟩

/-- A platform memory with nothing listed, that refuses no read, while no other agent writes.
DESIGN CHOICE, notes/assumptions/4.md and 5.md: the spec leaves MEM open. -/
def Memory.blank : Memory := ⟨[], [], []⟩

/-- The machine after reset (R191). COEFF, CARRY, H, SH, RESULT, RDATA and VBUF are "unspecified": their fields hold 0
(DESIGN CHOICE, notes/assumptions/1.md), which no command and no host read sees before a command writes them (R56). -/
def State.reset : State where
  coeff := Bank.zero
  carry := 0
  ctValid := false
  h := Bank.zero
  sh := 0
  offset := 0
  result := 0
  kind := .own
  base := 0
  len := 0
  woff := 0
  arg := 0
  rdata := 0
  vbuf := Bank.zero
  phase := .idle
  hseq := .none
  done := false
  ovr := false
  errCode := .none
  errOff := 0
  errWidth := 0
  written := Written.nothing
  mem := Memory.blank
  host := []
  replies := []
  reads := []
  draws := 0

end Sys2Proof.Machine
end

