-- ==== Sys2Proof/Machine/Flags.lean ====
section
/-! DEFINITION. STATUS and its fields (R28 to R34), and the status outputs (R24). -/

namespace Sys2Proof.Machine

/-- BUSY = (HSEQ ≠ NONE) (R30, R31). -/
def State.busy (s : State) : Bool := decide (s.hseq ≠ .none)

/-- ERR = (PHASE = FAULT) (R30, R31). -/
def State.err (s : State) : Bool := decide (s.phase = .fault)

/-- `busy_o` (R24). -/
def State.busyO (s : State) : Bool := s.busy

/-- `done_o` (R24). -/
def State.doneO (s : State) : Bool := s.done

/-- `err_o` (R24). -/
def State.errO (s : State) : Bool := s.err

/-- The value of PHASE (R28). -/
def phaseCode : Phase → BitVec 2
  | .idle => 0
  | .acc => 1
  | .scalar => 2
  | .fault => 3

/-- The value of HSEQ (R29). -/
def hseqCode : Hseq → BitVec 2
  | .none => 0
  | .init => 1
  | .bloop => 2
  | .tloop => 3

/-- The value of ERRCODE (R171). -/
def errValue : ErrCode → BitVec 4
  | .none => 0
  | .range => 1
  | .illegal => 2
  | .seq => 3
  | .noTable => 4
  | .kind => 5
  | .bus => 6
  | .width => 7

/-- STATUS as the host reads it, field by field from bit 31 down to bit 0, reserved fields 0 (R30, R37). -/
def statusWord (s : State) : Word :=
  0#10 ++ hseqCode s.hseq ++ 0#2 ++ phaseCode s.phase ++ 0#4 ++ errValue s.errCode ++ 0#3
    ++ BitVec.ofBool s.ovr ++ BitVec.ofBool s.ctValid ++ BitVec.ofBool s.err ++ BitVec.ofBool s.done
    ++ BitVec.ofBool s.busy

end Sys2Proof.Machine
end

