-- ==== Sys2Proof/Machine/Operands.lean ====
section
/-! DEFINITION. Operand forms: lanes and vectors (R14), the halves of 64-bit registers (R40), KIND (R41, R94), source addresses (R113). -/

namespace Sys2Proof.Machine

open Sys2Proof.Config

/-! Lanes and vectors (R14) -/

/-- The vector with lane i = f i. -/
def Lanes.ofFn (f : Fin 8 → Word) : Lanes := ⟨f 0, f 1, f 2, f 3, f 4, f 5, f 6, f 7⟩

/-- `V[i]`. -/
def Lanes.get (v : Lanes) (i : Fin 8) : Word :=
  match i with
  | 0 => v.l0
  | 1 => v.l1
  | 2 => v.l2
  | 3 => v.l3
  | 4 => v.l4
  | 5 => v.l5
  | 6 => v.l6
  | 7 => v.l7

/-- The lanes in order, lane 0 first. -/
def Lanes.toList (v : Lanes) : List Word := [v.l0, v.l1, v.l2, v.l3, v.l4, v.l5, v.l6, v.l7]

/-- The file whose vector g is f g. -/
def Bank.ofRows (f : Fin 4 → Lanes) : Bank := ⟨f 0, f 1, f 2, f 3⟩

/-- The file with lane `[g][i]` = f g i. -/
def Bank.ofFn (f : Fin 4 → Fin 8 → Word) : Bank := Bank.ofRows fun g => Lanes.ofFn (f g)

/-- Vector g of a file. -/
def Bank.row (b : Bank) (g : Fin 4) : Lanes :=
  match g with
  | 0 => b.v0
  | 1 => b.v1
  | 2 => b.v2
  | 3 => b.v3

/-- Lane `[g][i]` of a file. -/
def Bank.get (b : Bank) (g : Fin 4) (i : Fin 8) : Word := (b.row g).get i

/-- All 32 lanes, g ascending, then i ascending. -/
def Bank.toList (b : Bank) : List Word :=
  b.v0.toList ++ b.v1.toList ++ b.v2.toList ++ b.v3.toList

/-- Lane-wise wraparound sum (R14). -/
def vadd (a b : Lanes) : Lanes := Lanes.ofFn fun i => a.get i + b.get i

/-- Lane-wise wraparound product (R14). -/
def vmul (a b : Lanes) : Lanes := Lanes.ofFn fun i => a.get i * b.get i

/-- Every lane times one scalar (R14). -/
def vscale (a : Lanes) (s : Word) : Lanes := Lanes.ofFn fun i => a.get i * s

/-- The wraparound sum of the lanes, left to right (R14). -/
def hsum (a : Lanes) : Word := a.toList.foldl (· + ·) 0

/-- A byte enters as its unsigned value, never sign-extended (R111). -/
def zext32 (b : Byte) : Word := b.zeroExtend 32

/-- The widened bytes of a read: lane i is byte i, so the lowest address is lane 0 (R14, R62, R114).
It is only applied to reads of at least L bytes. -/
def widen (bytes : List Byte) : Lanes := Lanes.ofFn fun i => zext32 (bytes.getD i.val 0)

/-! The halves of 64-bit registers (R40) -/

/-- `v[31:0]`. -/
def lowHalf (v : DWord) : Word := v.extractLsb' 0 32

/-- `v[63:32]`. -/
def highHalf (v : DWord) : Word := v.extractLsb' 32 32

/-- A write to the register at the lower offset changes only the low half (R40). -/
def withLowHalf (v : DWord) (d : Word) : DWord := highHalf v ++ d

/-- A write to the register at offset + 4 changes only the high half (R40). -/
def withHighHalf (v : DWord) (d : Word) : DWord := d ++ lowHalf v

/-! KIND (R41, R94) -/

/-- The kind that a write of `d` to SRC_KIND stores: `d[1:0]`, even the value 3 (R41). -/
def kindOfWord (d : Word) : SrcKind :=
  match (d.extractLsb' 0 2).toNat with
  | 0 => .own
  | 1 => .win
  | 2 => .foreign
  | _ => .reserved

/-- What SRC_KIND reads: KIND in bits 1:0, the reserved bits 0 (R37, R41). -/
def kindWord : SrcKind → Word
  | .own => 0
  | .win => 1
  | .foreign => 2
  | .reserved => 3

/-! Source addresses (R113) -/

/-- `SrcAddr(off)`: an unbounded sum, not reduced mod 2^64 (R113). KIND = 3 has no address: every primitive raises E_KIND
before it asks for one (R117). -/
def srcAddr (s : State) (off : Nat) : Nat :=
  match s.kind with
  | .own => s.base.toNat + off
  | .win => s.base.toNat + s.woff.toNat + off
  | .foreign => s.base.toNat + off
  | .reserved => s.base.toNat + off

/-- `SrcLength()` (R112). -/
def srcLength (s : State) : Nat := s.len.toNat

end Sys2Proof.Machine
end

