-- ==== Sys2Proof/Machine/Ops.lean ====
section
/-! DEFINITION. The operations the commands share: platform memory, MemRead (R63), the adapter primitives (R114, R115), fault entry (R172), leaving a fault (R178), and the acceptance of a command (R39). -/

namespace Sys2Proof.Machine

open Sys2Proof.Config

/-! Platform memory (R11, R60, R71, R72) -/

/-- The byte a list of cells holds at an address. -/
def cellAt : List Host.Cell → Nat → Byte
  | [], _ => unlistedByte
  | (x, v) :: cells, a => if x = a then v else cellAt cells a

/-- The cells after a store, still in their one canonical form. -/
def writeCell : List Host.Cell → Nat → Byte → List Host.Cell
  | [], a, b => if b = unlistedByte then [] else [(a, b)]
  | (x, v) :: cells, a, b =>
    if a < x then
      if b = unlistedByte then (x, v) :: cells else (a, b) :: (x, v) :: cells
    else if a = x then
      if b = unlistedByte then cells else (a, b) :: cells
    else (x, v) :: writeCell cells a b

/-- Whether cells are in canonical form from an address on: addresses strictly rising, inside the memory space, no byte
equal to the unlisted one. -/
def cellsFrom : Nat → List Host.Cell → Bool
  | _, [] => true
  | lo, (x, v) :: cells =>
    decide (lo ≤ x) && decide (x < memTop) && decide (v ≠ unlistedByte) && cellsFrom (x + 1) cells

/-- `MemByte(a)` (R11). -/
def Memory.byteAt (m : Memory) (a : Nat) : Byte := cellAt m.cells a

/-- `MemAdmit(a, n)` (R11). -/
def Memory.admits (m : Memory) (a n : Nat) : Bool :=
  !m.refused.any fun r => decide (r.width = n) && decide (r.first ≤ a) && decide (a ≤ r.last)

/-- Canonical form of a memory. -/
def Memory.wf (m : Memory) : Bool := cellsFrom 0 m.cells && decide m.storing.Nodup

/-- Another agent begins to write the byte at an address (R72). -/
def Memory.beginStore (m : Memory) (a : Nat) : Memory :=
  { m with storing := if a ∈ m.storing then m.storing else a :: m.storing }

/-- Another agent's store completes: every later read sees the byte (R71). -/
def Memory.completeStore (m : Memory) (a : Nat) (b : Byte) : Memory :=
  { m with cells := writeCell m.cells a b, storing := m.storing.filter (· ≠ a) }

/-! The memory read port (R22, R63) -/

/-- The byte a read returns for an address: a draw if another agent is writing that byte (R72), else what memory holds. -/
def byteSeen (s : State) (a : Nat) : Byte :=
  if a ∈ s.mem.storing then drawByte s.draws a else s.mem.byteAt a

/-- The bytes of a read, lowest address first (R62). -/
def bytesSeen (s : State) (a n : Nat) : List Byte := (List.range n).map fun k => byteSeen s (a + k)

/-- A request goes out on the memory read port (R22). -/
def State.request (s : State) (a n : Nat) : State := { s with reads := ⟨a, n⟩ :: s.reads }

/-- `MemRead(a, n)` (R63): `none` is BUS_ERROR. A range that passes 2^64 − 1 is refused without a request. -/
def memRead (a n : Nat) (s : State) : Option (List Byte) × State :=
  if memTop < a + n then (none, s)
  else if s.mem.admits a n then (some (bytesSeen s a n), s.request a n)
  else (none, s.request a n)

/-! Taking and leaving a fault (R172, R178) -/

/-- `raise E_X(off, w)`: fault entry (R172). No other register changes. -/
def raise (code : ErrCode) (off : DWord) (w : Nat) (s : State) : State :=
  { s with errCode := code, errOff := off, errWidth := BitVec.ofNat 32 w, phase := .fault, hseq := .none }

/-- Leaving a fault, the effect of CLR (R159, R178): the record is cleared and nothing resumes. -/
def clearFault (s : State) : State :=
  { s with phase := .idle, errCode := .none, errOff := 0, errWidth := 0, ovr := false }

/-! The adapter primitives (R114, R115) -/

/-- What an adapter primitive ends in. -/
inductive Access where
  /-- The bytes read, with the state in which the command goes on. -/
  | got (bytes : List Byte) (s : State)
  /-- The primitive raised: the command ends in this state. -/
  | raised (s : State)

/-- The read of `w` source bytes at `off` that both primitives make: KIND, then the range, then the one MemRead
(R114, R115, R117, R175). Sums are taken without wrap. -/
def srcRead (off : DWord) (w : Nat) (s : State) : Access :=
  if s.kind = .reserved then .raised (raise .kind 0 0 s)
  else if srcLength s < off.toNat + w then .raised (raise .range off w s)
  else
    match memRead (srcAddr s off.toNat) w s with
    | (none, s') => .raised (raise .bus off w s')
    | (some bytes, s') => .got bytes s'

/-- `SrcReadBlock(off, w)` for w in 8, 32 (R114). The caller widens the bytes. -/
def srcReadBlock (off : DWord) (w : Nat) (s : State) : Access := srcRead off w s

/-- `SrcReadByte(off)` (R115): its range test `off ≥ SRC_LEN` is that of a read one byte wide. -/
def srcReadByte (off : DWord) (s : State) : Access := srcRead off 1 s

/-! Acceptance (R39) -/

/-- A host write is dropped: OVR ← 1 and nothing else (R33, R177). -/
def dropWrite (s : State) : State := { s with ovr := true }

/-- A command word written to CMD, by R39: dropped while BUSY; in FAULT dropped unless it is NOP or CLR; else accepted, and
its body runs as one step. -/
def present (acceptedInFault : Bool) (body : State → State) (s : State) : State :=
  if s.busy then dropWrite s
  else if s.phase = .fault ∧ acceptedInFault = false then dropWrite s
  else body s

end Sys2Proof.Machine
end

