-- ==== Sys2Proof/Machine/ByteSource.lean ====
section
/-! DEFINITION. The adapter commands RDBYTE and RDBLK (R119, R120). -/

namespace Sys2Proof.Machine

open Sys2Proof.Config

/-- The RDBYTE body (R119). -/
def rdbyteBody (s : State) : State :=
  match srcReadByte s.arg s with
  | .raised s' => s'
  | .got bytes s' =>
    { s' with rdata := zext32 (bytes.getD 0 0), written := { s'.written with rdata := true } }

/-- VBUF with its first `w` lanes replaced by the widened bytes, the others kept (R120). -/
def vbufWith (old : Bank) (w : Nat) (bytes : List Byte) : Bank :=
  Bank.ofFn fun g i =>
    if g.val * L + i.val < w then zext32 (bytes.getD (g.val * L + i.val) 0) else old.get g i

/-- The width W that WSEL selects; codes 2 and 3 are reserved (R82). -/
def selectedWidth (wsel : Nat) : Option Nat :=
  match wsel with
  | 0 => some L
  | 1 => some B
  | _ => none

/-- The RDBLK body (R120). -/
def rdblkBody (wsel : Nat) (s : State) : State :=
  match selectedWidth wsel with
  | none => raise .width 0 0 s
  | some w =>
    match srcReadBlock s.arg w s with
    | .raised s' => s'
    | .got bytes s' =>
      { s' with
        vbuf := vbufWith s'.vbuf w bytes
        written := { s'.written with vbufLanes := max s'.written.vbufLanes w } }

/-- RDBYTE (R119). -/
def execRdbyte (s : State) : Host.Outcome State Fault Refusal := .next (present false rdbyteBody s)

/-- RDBLK.8, RDBLK.32 and the reserved widths (R120). -/
def execRdblk (wsel : Nat) (s : State) : Host.Outcome State Fault Refusal :=
  .next (present false (rdblkBody wsel) s)

end Sys2Proof.Machine
end

