-- ==== Sys2Proof/Machine/Accumulator.lean ====
section
/-! DEFINITION. The lane-parallel accumulator: AINIT and BLK (R130 to R136). -/

namespace Sys2Proof.Machine

open Sys2Proof.Config

/-- H at the start of a hash: lane 0 of H[0] is 1, every other lane 0 (R131). -/
def accStart : Bank := Bank.ofFn fun g i => if g.val = 0 ∧ i.val = 0 then 1 else 0

/-- The AINIT body (R131). -/
def ainitBody (s : State) : State :=
  { s with
    h := accStart
    sh := 0
    offset := 0
    done := false
    phase := .acc
    written := { s.written with acc := true } }

/-- One block folded into the accumulators: `H[g] ← vadd(vscale(H[g], CARRY), vmul(x_g, COEFF[g]))` (R132). -/
def foldBlock (h x coeff : Bank) (carry : Word) : Bank :=
  Bank.ofRows fun g => vadd (vscale (h.row g) carry) (vmul (x.row g) (coeff.row g))

/-- Sub-block g of the block at OFFSET: one MemRead of L bytes at its first byte (R132, R133). -/
def readSubBlock (g : Nat) (s : State) : Option (List Byte) × State :=
  memRead (srcAddr s (s.offset.toNat + g * L)) L s

/-- E_BUS for the refused sub-block g (R132, R171). -/
def raiseBlockBus (g : Nat) (s : State) : State := raise .bus (s.offset + BitVec.ofNat 64 (g * L)) L s

/-- The commit, reached only when all four reads succeeded (R132). -/
def commitBlock (r0 r1 r2 r3 : List Byte) (s : State) : State :=
  { s with
    h := foldBlock s.h ⟨widen r0, widen r1, widen r2, widen r3⟩ s.coeff s.carry
    offset := s.offset + BitVec.ofNat 64 B }

/-- The four sub-block reads in the fixed order 0, 1, 2, 3, then the commit; the first refused read raises, and no later
one is issued (R70, R132, R175). -/
def readAndFoldBlock (s : State) : State :=
  match readSubBlock 0 s with
  | (none, s0) => raiseBlockBus 0 s0
  | (some r0, s0) =>
    match readSubBlock 1 s0 with
    | (none, s1) => raiseBlockBus 1 s1
    | (some r1, s1) =>
      match readSubBlock 2 s1 with
      | (none, s2) => raiseBlockBus 2 s2
      | (some r2, s2) =>
        match readSubBlock 3 s2 with
        | (none, s3) => raiseBlockBus 3 s3
        | (some r3, s3) => commitBlock r0 r1 r2 r3 s3

/-- The BLK body (R132). -/
def blkBody (s : State) : State :=
  if s.phase ≠ .acc then raise .seq 0 0 s
  else if s.ctValid = false then raise .noTable 0 0 s
  else if s.kind = .reserved then raise .kind 0 0 s
  else if srcLength s < s.offset.toNat + B then raise .range s.offset B s
  else readAndFoldBlock s

/-- AINIT (R131). -/
def execAinit (s : State) : Host.Outcome State Fault Refusal := .next (present false ainitBody s)

/-- BLK (R132). -/
def execBlk (s : State) : Host.Outcome State Fault Refusal := .next (present false blkBody s)

end Sys2Proof.Machine
end

