-- ==== Sys2Proof/Machine/Coefficient.lean ====
section
/-! DEFINITION. The coefficient table and CINIT (R100 to R107). -/

namespace Sys2Proof.Machine

open Sys2Proof.Config

/-- The coefficient file when CT_VALID = 1, as the table of R103 lists it for L = 8: lane `[g][i]` is
`31^(B − 1 − (g·L + i)) mod 2^32` (R100), the value R101's construction gives (R102), which
Laws/Coefficient.lean and an obligation say. DEDUCED, notes/assumptions/14.md. -/
def coeffTable : Bank :=
  ⟨⟨0x88303FDF, 0x14E8C841, 0x00ACAB9F, 0x294FE481, 0xF0D1075F, 0x395110C1, 0x01D9531F, 0x84304D01⟩,
    ⟨0xFC018EDF, 0x4A319941, 0x8685BA9F, 0x0C98F581, 0xE7A1D65F, 0xCDAA61C1, 0xC491E21F, 0x50A9DE01⟩,
    ⟨0xE191DDDF, 0x59DB6A41, 0xE1DDC99F, 0xEE830681, 0x07B1A55F, 0x94E4B2C1, 0xF449711F, 0x94446F01⟩,
    ⟨0x67E12CDF, 0x34E63B41, 0x01B4D89F, 0x000E1781, 0x0000745F, 0x000003C1, 0x0000001F, 0x00000001⟩⟩

/-- `CARRY = 31^B mod 2^32` (R100, R103). -/
def carryCoeff : Word := 0x7DD7BC01

/-- The CINIT body (R104). -/
def cinitBody (s : State) : State :=
  { s with coeff := coeffTable, carry := carryCoeff, ctValid := true }

/-- CINIT (R104). -/
def execCinit (s : State) : Host.Outcome State Fault Refusal := .next (present false cinitBody s)

end Sys2Proof.Machine
end

