-- ==== Sys2Proof/Machine/ReduceTail.lean ====
section
/-! DEFINITION. The horizontal reducer and the tail completer: RED, TAIL, FIN (R140 to R146). -/

namespace Sys2Proof.Machine

open Sys2Proof.Config

/-- The wraparound sum of all lanes of H, g ascending, then i ascending (R140). -/
def reduceAll (h : Bank) : Word := h.toList.foldl (· + ·) 0

/-- The RED body (R140). -/
def redBody (s : State) : State :=
  if s.phase ≠ .acc then raise .seq 0 0 s
  else { s with sh := reduceAll s.h, phase := .scalar }

/-- One step of the sequential recurrence (R16, R142). -/
def foldByte (sh : Word) (b : Byte) : Word := sh * 31 + zext32 b

/-- The TAIL body (R142): its KIND, range and bus tests are those of `SrcReadByte(OFFSET)`. -/
def tailBody (s : State) : State :=
  if s.phase ≠ .scalar then raise .seq 0 0 s
  else
    match srcReadByte s.offset s with
    | .raised s' => s'
    | .got bytes s' =>
      { s' with sh := foldByte s'.sh (bytes.getD 0 0), offset := s'.offset + 1 }

/-- The FIN body (R143). -/
def finBody (s : State) : State :=
  if s.phase ≠ .scalar then raise .seq 0 0 s
  else { s with result := s.sh, done := true, phase := .idle, written := { s.written with result := true } }

/-- RED (R140). -/
def execRed (s : State) : Host.Outcome State Fault Refusal := .next (present false redBody s)

/-- TAIL (R142). -/
def execTail (s : State) : Host.Outcome State Fault Refusal := .next (present false tailBody s)

/-- FIN (R143). -/
def execFin (s : State) : Host.Outcome State Fault Refusal := .next (present false finBody s)

end Sys2Proof.Machine
end

