-- ==== Sys2Proof/Machine/Facade.lean ====
section
/-! DEFINITION. HASH with its sequencer (R150 to R157), NOP (R158) and CLR (R159). -/

namespace Sys2Proof.Machine

open Sys2Proof.Config

/-- The acceptance step of HASH (R150). -/
def hashBody (s : State) : State :=
  if s.kind = .reserved then raise .kind 0 0 s
  else { s with done := false, hseq := .init }

/-- A body that ends its part of the sequence: HSEQ moves on, unless the body raised, which ended the HASH (R151, R172). -/
def thenGoTo (q : Hseq) (s : State) : State := if s.phase = .fault then s else { s with hseq := q }

/-- HSTEP, the one enabled micro-step while HSEQ ≠ NONE (R151). -/
def microStep (s : State) : State :=
  match s.hseq with
  | .none => s
  | .init =>
    if s.ctValid = false then cinitBody s
    else thenGoTo .bloop (ainitBody s)
  | .bloop =>
    if s.offset.toNat + B ≤ srcLength s then blkBody s
    else thenGoTo .tloop (redBody s)
  | .tloop =>
    if s.offset.toNat < srcLength s then tailBody s
    else thenGoTo .none (finBody s)

/-- HASH (R150): the command itself is the acceptance step; the micro-steps follow, one at each turn of VPHA. -/
def execHash (s : State) : Host.Outcome State Fault Refusal := .next (present false hashBody s)

/-- NOP (R158): accepted in FAULT too. -/
def execNop (s : State) : Host.Outcome State Fault Refusal := .next (present true (fun t => t) s)

/-- CLR (R159): accepted in FAULT too. -/
def execClr (s : State) : Host.Outcome State Fault Refusal := .next (present true clearFault s)

end Sys2Proof.Machine
end

