-- ==== Sys2Proof/Machine/Dispatch.lean ====
section
/-! DEFINITION. The meaning of every command: the host writes it to CMD in this state (R39). -/

namespace Sys2Proof.Machine

def exec (i : Instr) (s : State) : Host.Outcome State Fault Refusal :=
  match i with
  | .nop => Sys2Proof.Machine.execNop s
  | .cinit => Sys2Proof.Machine.execCinit s
  | .ainit => Sys2Proof.Machine.execAinit s
  | .blk => Sys2Proof.Machine.execBlk s
  | .red => Sys2Proof.Machine.execRed s
  | .tail => Sys2Proof.Machine.execTail s
  | .fin => Sys2Proof.Machine.execFin s
  | .hash => Sys2Proof.Machine.execHash s
  | .rdbyte => Sys2Proof.Machine.execRdbyte s
  | .rdblk wsel => Sys2Proof.Machine.execRdblk wsel s
  | .clr => Sys2Proof.Machine.execClr s

end Sys2Proof.Machine
end

