-- ==== Sys2Proof/Machine/HostPort.lean ====
section
/-! DEFINITION. The host register port: the register map (R35), reads and writes (R36 to R51, R56), reset (R190), and whose turn it is (R20). -/

namespace Sys2Proof.Machine

open Sys2Proof.Config

/-- A register of the window (R35). -/
inductive Reg where
  | id
  | param
  | cmd
  | status
  | srcKind
  | srcBaseLo
  | srcBaseHi
  | srcLenLo
  | srcLenHi
  | srcWoffLo
  | srcWoffHi
  | argLo
  | argHi
  | result
  | sh
  | offsetLo
  | offsetHi
  | errOffLo
  | errOffHi
  | errWidth
  | rdata
  | carry
  | acc (g : Fin 4) (i : Fin 8)
  | coeff (g : Fin 4) (i : Fin 8)
  | vbuf (j : Fin 32)
  deriving DecidableEq, Repr

/-- The byte offset of a register in the window (R35). -/
def regOffset : Reg → Nat
  | .id => 0x000
  | .param => 0x004
  | .cmd => 0x008
  | .status => 0x00C
  | .srcKind => 0x010
  | .srcBaseLo => 0x018
  | .srcBaseHi => 0x01C
  | .srcLenLo => 0x020
  | .srcLenHi => 0x024
  | .srcWoffLo => 0x028
  | .srcWoffHi => 0x02C
  | .argLo => 0x030
  | .argHi => 0x034
  | .result => 0x038
  | .sh => 0x03C
  | .offsetLo => 0x040
  | .offsetHi => 0x044
  | .errOffLo => 0x048
  | .errOffHi => 0x04C
  | .errWidth => 0x050
  | .rdata => 0x054
  | .carry => 0x058
  | .acc g i => 0x100 + 4 * (L * g.val + i.val)
  | .coeff g i => 0x180 + 4 * (L * g.val + i.val)
  | .vbuf j => 0x200 + 4 * j.val

/-- The registers below 0x05C, each at its word-aligned offset; 0x014 is reserved (R35). -/
def scalarRegAt (off : Nat) : Option Reg :=
  match off with
  | 0x000 => some .id
  | 0x004 => some .param
  | 0x008 => some .cmd
  | 0x00C => some .status
  | 0x010 => some .srcKind
  | 0x018 => some .srcBaseLo
  | 0x01C => some .srcBaseHi
  | 0x020 => some .srcLenLo
  | 0x024 => some .srcLenHi
  | 0x028 => some .srcWoffLo
  | 0x02C => some .srcWoffHi
  | 0x030 => some .argLo
  | 0x034 => some .argHi
  | 0x038 => some .result
  | 0x03C => some .sh
  | 0x040 => some .offsetLo
  | 0x044 => some .offsetHi
  | 0x048 => some .errOffLo
  | 0x04C => some .errOffHi
  | 0x050 => some .errWidth
  | 0x054 => some .rdata
  | 0x058 => some .carry
  | _ => none

/-- The register at a word-aligned offset; `none` is a reserved offset (R35, R37). -/
def regAt (off : Nat) : Option Reg :=
  if off < 0x05C then scalarRegAt off
  else if off < 0x100 then none
  else if off < 0x180 then
    some (.acc (Fin.ofNat 4 ((off - 0x100) / 4 / L)) (Fin.ofNat 8 ((off - 0x100) / 4)))
  else if off < 0x200 then
    some (.coeff (Fin.ofNat 4 ((off - 0x180) / 4 / L)) (Fin.ofNat 8 ((off - 0x180) / 4)))
  else if off < 0x280 then some (.vbuf (Fin.ofNat 32 ((off - 0x200) / 4)))
  else none

/-- Whether a register holds a value (R56). -/
def holdsValue (s : State) : Reg → Bool
  | .acc _ _ => s.written.acc
  | .sh => s.written.acc
  | .coeff _ _ => s.ctValid
  | .carry => s.ctValid
  | .result => s.written.result
  | .rdata => s.written.rdata
  | .vbuf j => decide (j.val < s.written.vbufLanes)
  | .id | .param | .cmd | .status | .srcKind | .srcBaseLo | .srcBaseHi | .srcLenLo | .srcLenHi
  | .srcWoffLo | .srcWoffHi | .argLo | .argHi | .offsetLo | .offsetHi | .errOffLo | .errOffHi
  | .errWidth => true

/-- The contents of a register that holds a value (R30, R35, R38, R40 to R54). -/
def contents (s : State) : Reg → Word
  | .id => 0x56504841
  | .param => BitVec.ofNat 8 VB ++ BitVec.ofNat 8 B ++ BitVec.ofNat 8 G ++ BitVec.ofNat 8 L
  | .cmd => 0
  | .status => statusWord s
  | .srcKind => kindWord s.kind
  | .srcBaseLo => lowHalf s.base
  | .srcBaseHi => highHalf s.base
  | .srcLenLo => lowHalf s.len
  | .srcLenHi => highHalf s.len
  | .srcWoffLo => lowHalf s.woff
  | .srcWoffHi => highHalf s.woff
  | .argLo => lowHalf s.arg
  | .argHi => highHalf s.arg
  | .result => s.result
  | .sh => s.sh
  | .offsetLo => lowHalf s.offset
  | .offsetHi => highHalf s.offset
  | .errOffLo => lowHalf s.errOff
  | .errOffHi => highHalf s.errOff
  | .errWidth => s.errWidth
  | .rdata => s.rdata
  | .carry => s.carry
  | .acc g i => s.h.get g i
  | .coeff g i => s.coeff.get g i
  | .vbuf j => s.vbuf.get (Fin.ofNat 4 (j.val / L)) (Fin.ofNat 8 j.val)

/-- Only an access 32 bits wide at a multiple of 4 has effect (R36). -/
def wholeWord (ra : BitVec 12) (bits : Nat) : Bool := decide (bits = 32) && decide (ra.toNat % 4 = 0)

/-- The value of `RegRead` (R21, R36, R37, R56): a draw for a register that holds no value. -/
def regRead (ra : BitVec 12) (bits : Nat) (s : State) : Word :=
  if wholeWord ra bits then
    match regAt ra.toNat with
    | none => 0
    | some r => if holdsValue s r then contents s r else draw s.draws
  else 0

/-- A command word presented through CMD (R39). A word that decodes to ILLEGAL raises E_ILLEGAL if it is accepted (R85). -/
def presentWord (w : Word) (s : State) : Host.Outcome State Fault Refusal :=
  match decode w with
  | .ok i => exec i s
  | .error _ => .next (present false (raise .illegal 0 0) s)

/-- A write to a descriptor register or to ARG: dropped while BUSY, else it takes effect, in FAULT too (R44). -/
def descriptorWrite (update : State → State) (s : State) : State :=
  if s.busy then dropWrite s else update s

/-- The effect of a whole-word write on the register it addresses (R38 to R44). -/
def writeReg (r : Reg) (d : Word) (s : State) : Host.Outcome State Fault Refusal :=
  match r with
  | .cmd => presentWord d s
  | .srcKind => .next (descriptorWrite (fun t => { t with kind := kindOfWord d }) s)
  | .srcBaseLo => .next (descriptorWrite (fun t => { t with base := withLowHalf t.base d }) s)
  | .srcBaseHi => .next (descriptorWrite (fun t => { t with base := withHighHalf t.base d }) s)
  | .srcLenLo => .next (descriptorWrite (fun t => { t with len := withLowHalf t.len d }) s)
  | .srcLenHi => .next (descriptorWrite (fun t => { t with len := withHighHalf t.len d }) s)
  | .srcWoffLo => .next (descriptorWrite (fun t => { t with woff := withLowHalf t.woff d }) s)
  | .srcWoffHi => .next (descriptorWrite (fun t => { t with woff := withHighHalf t.woff d }) s)
  | .argLo => .next (descriptorWrite (fun t => { t with arg := withLowHalf t.arg d }) s)
  | .argHi => .next (descriptorWrite (fun t => { t with arg := withHighHalf t.arg d }) s)
  | .id | .param | .status | .result | .sh | .offsetLo | .offsetHi | .errOffLo | .errOffHi
  | .errWidth | .rdata | .carry | .acc _ _ | .coeff _ _ | .vbuf _ => .next s

/-- `RegWrite` (R21, R36, R37). -/
def regWrite (ra : BitVec 12) (bits : Nat) (d : Word) (s : State) :
    Host.Outcome State Fault Refusal :=
  if wholeWord ra bits then
    match regAt ra.toNat with
    | none => .next s
    | some r => writeReg r d s
  else .next s

/-- The reset input (R190 to R192): every register takes its reset value, whatever the block is doing; no memory read is
issued, and what lies outside VPHA is not touched. DEDUCED, notes/assumptions/16.md. -/
def applyReset (s : State) : State :=
  { State.reset with
    mem := s.mem, host := s.host, replies := s.replies, reads := s.reads, draws := s.draws }

/-- The draw counter moves on, so that the next step draws new values (R56, R72). -/
def nextDraw (s : State) : State := { s with draws := s.draws + 1 }

/-- An outcome with its next state changed. -/
def mapNext (f : State → State) : Host.Outcome State Fault Refusal → Host.Outcome State Fault Refusal
  | .next s => .next (f s)
  | .fault r => .fault r
  | .refused r => .refused r

/-- VPHA's turn: the one enabled micro-step while a HASH runs, else nothing, state held (R151, R187, R193). -/
def vphaTurn (s : State) : Host.Outcome State Fault Refusal :=
  if s.busy then .next (nextDraw (microStep s)) else .next s

/-- One event from outside, atomic with respect to VPHA's steps (R20, R77). -/
def outsideTurn (a : HostAction) (s : State) : Host.Outcome State Fault Refusal :=
  match a with
  | .regWrite ra bits d => mapNext nextDraw (regWrite ra bits d s)
  | .regRead ra bits => .next (nextDraw { s with replies := regRead ra bits s :: s.replies })
  | .rst => .next (nextDraw (applyReset s))
  | .storeBegin addr => .next (nextDraw { s with mem := s.mem.beginStore addr.toNat })
  | .store addr b => .next (nextDraw { s with mem := s.mem.completeStore addr.toNat b })
  | .pause => vphaTurn s

end Sys2Proof.Machine
end

