-- ==== Sys2Proof/Machine/Step.lean ====
section
/-! DEFINITION. One step of the machine, and where a command word stands that the next step is to run. -/

namespace Sys2Proof.Machine

/-- One step. VPHA fetches nothing (R27, R75): the next event from outside is taken, which is VPHA's own turn where the host
pauses; when nothing is left outside, the turn is VPHA's at every step, so a pending micro-step is taken (R202).
DESIGN CHOICE, notes/assumptions/7.md. -/
def step (s : State) : Host.Outcome State Fault Refusal :=
  match s.host with
  | [] => vphaTurn s
  | a :: rest => outsideTurn a { s with host := rest }

/-- The offset of CMD (R35). -/
def cmdOffset : BitVec 12 := 0x008

/-- The command word becomes the host's next register access, a whole-word write to CMD (R39). Nothing else changes: an
idle block that is not in FAULT, as after reset, accepts it. DESIGN CHOICE, notes/assumptions/6.md. -/
def State.withFetchWord (s : State) (nbits w : Nat) : State :=
  { s with host := .regWrite cmdOffset 32 (BitVec.ofNat 32 (w % 2 ^ nbits)) :: s.host }

end Sys2Proof.Machine
end

