-- ==== Sys2Proof/Machine/Reference.lean ====
section
/-! DEFINITION. The reference hash (R16) and the bytes of a source (R110), in the terms claims use. -/

namespace Sys2Proof.Machine

open Sys2Proof.Config

/-- `scalar_hash(b)`: start with h = 1; for each byte in order h = 31·h + byte, wrapping (R16). -/
def scalarHash (bytes : List Byte) : Word := bytes.foldl (fun h b => 31 * h + zext32 b) 1

/-- Source byte `off`: the byte of memory at `SrcAddr(off)` (R110, R113). -/
def sourceByte (s : State) (off : Nat) : Byte := s.mem.byteAt (srcAddr s off)

/-- The first `n` bytes of the source. -/
def sourcePrefix (s : State) (n : Nat) : List Byte := (List.range n).map (sourceByte s)

/-- The bytes of the source (R110). -/
def sourceBytes (s : State) : List Byte := sourcePrefix s (srcLength s)

/-- `T[B − 1 − k]` of R101's construction: 1, and each preceding element 31 times the next.
By R102 it is `31^k mod 2^32`, which `powerOf31_eq` (Laws/Coefficient.lean) proves by R102's induction. -/
def powerOf31 : Nat → Word
  | 0 => 1
  | k + 1 => 31 * powerOf31 k

/-- What R136 gives for lane `[g][i]` after m blocks over the bytes `b 0, b 1, …`. -/
def laneAfter (b : Nat → Byte) (m g i : Nat) : Word :=
  BitVec.ofNat 32
    ((if g = 0 ∧ i = 0 then 31 ^ (m * B) else 0)
      + ((List.range m).map fun j =>
          (b (j * B + g * L + i)).toNat * 31 ^ (m * B - 1 - (j * B + g * L + i))).sum)

end Sys2Proof.Machine
end

