-- ==== Sys2Proof/Safety.lean ====
section
/-! DEFINITION. The terms claims about runs are made in: acceptance, the invariant, a readable source, a HASH in progress, the error conditions a command meets. -/

namespace Sys2Proof.Machine

open Sys2Proof.Config

/-- A command word other than NOP's and CLR's is accepted in this state (R39, third case). -/
abbrev Accepting (s : State) : Prop := s.busy = false ∧ s.phase ≠ .fault

/-- An error record the table of R171 allows: a failing read has a width VPHA reads with, every other code has no read. -/
abbrev recordFits (code : ErrCode) (off : DWord) (w : Word) : Prop :=
  match code with
  | .range => w = 1 ∨ w = 8 ∨ w = 32
  | .bus => w = 1 ∨ w = 8 ∨ w = 32
  | .none => off = 0 ∧ w = 0
  | .illegal => off = 0 ∧ w = 0
  | .seq => off = 0 ∧ w = 0
  | .noTable => off = 0 ∧ w = 0
  | .kind => off = 0 ∧ w = 0
  | .width => off = 0 ∧ w = 0

/-- The invariant of VPHA: R31's four clauses (two of them hold by the definition of BUSY and ERR) and what the other rules
promise of every state. -/
structure StateInv (s : State) : Prop where
  /-- ERRCODE ≠ 0 exactly when PHASE = FAULT (R31). -/
  errRecorded : s.errCode ≠ .none ↔ s.phase = .fault
  /-- BUSY = 1 implies PHASE ≠ FAULT (R31). -/
  busyNotFault : s.busy = true → s.phase ≠ .fault
  /-- The error record is one of the table of R171 (R50, R174). -/
  record : recordFits s.errCode s.errOff s.errWidth
  /-- While CT_VALID = 1 the table holds the values of R100 (R34). -/
  table : s.ctValid = true → s.coeff = coeffTable ∧ s.carry = carryCoeff
  /-- KIND was checked when HASH was accepted (R188). -/
  busyKind : s.busy = true → s.kind ≠ .reserved
  /-- DONE is 0 from the acceptance of HASH on (R199). -/
  busyDone : s.busy = true → s.done = false
  /-- In the block loop whole blocks have been folded in (R134). -/
  blockLoop : s.hseq = .bloop →
    s.phase = .acc ∧ s.ctValid = true ∧ s.offset.toNat ≤ srcLength s ∧ s.offset.toNat % B = 0
  /-- In the tail loop less than one block is left (R134, R144). -/
  tailLoop : s.hseq = .tloop →
    s.phase = .scalar ∧ s.offset.toNat ≤ srcLength s ∧ srcLength s < s.offset.toNat + B
  /-- No command reads an H or SH that holds no value (R56). -/
  accHeld : s.phase = .acc ∨ s.phase = .scalar → s.written.acc = true
  /-- RESULT holds a value while DONE = 1 (R199). -/
  resultHeld : s.done = true → s.written.result = true
  /-- RDBLK writes 8 or 32 lanes from lane 0 (R120). -/
  vbufHeld : s.written.vbufLanes = 0 ∨ s.written.vbufLanes = L ∨ s.written.vbufLanes = VB
  /-- The memory is in its canonical form. -/
  memory : s.mem.wf = true

/-- The registers of R25 and their bookkeeping, everything else blanked: two states with the same registers are equal so. -/
def registers (s : State) : State :=
  { s with mem := Memory.blank, host := [], replies := [], reads := [], draws := 0 }

/-- The registers that hold no value blanked: what no command and no host read may depend on (R56). -/
def heldOnly (s : State) : State :=
  { s with
    coeff := if s.ctValid then s.coeff else Bank.zero
    carry := if s.ctValid then s.carry else 0
    h := if s.written.acc then s.h else Bank.zero
    sh := if s.written.acc then s.sh else 0
    result := if s.written.result then s.result else 0
    rdata := if s.written.rdata then s.rdata else 0
    vbuf := Bank.ofFn fun g i => if g.val * L + i.val < s.written.vbufLanes then s.vbuf.get g i else 0 }

/-- The platform admits the reads of a HASH over the source: every read of 1 or L bytes inside it, none past the top of
the memory space; and no other agent is writing any byte (the duty of R196). -/
abbrev Readable (s : State) : Prop :=
  s.mem.storing = [] ∧
  ∀ off < srcLength s, ∀ w ∈ [1, L], off + w ≤ srcLength s →
    srcAddr s off + w ≤ memTop ∧ s.mem.admits (srcAddr s off) w = true

/-- The number of micro-steps of a HASH accepted in this state (R152). -/
def hashMicroSteps (s : State) : Nat :=
  (if s.ctValid then 0 else 1) + 1 + srcLength s / B + 1 + srcLength s % B + 1

/-- An event from outside that keeps the host's duties while a HASH runs: no reset and no store to memory (R196). -/
def HostAction.leavesSource : HostAction → Bool
  | .regWrite _ _ _ => true
  | .regRead _ _ => true
  | .rst => false
  | .storeBegin _ => false
  | .store _ _ => false
  | .pause => true

/-- The host's write of a command to CMD (R91, `cmd`). -/
def cmdWrite (i : Instr) : HostAction := .regWrite cmdOffset 32 (encode i)

/-- The step-mode sequence of R155 for a HASH accepted in this state. -/
def stepModeScript (s : State) : List HostAction :=
  (if s.ctValid then [] else [cmdWrite .cinit]) ++ [cmdWrite .ainit]
    ++ List.replicate (srcLength s / B) (cmdWrite .blk) ++ [cmdWrite .red]
    ++ List.replicate (srcLength s % B) (cmdWrite .tail) ++ [cmdWrite .fin]

/-- A HASH over `bytes` is running, and so far is right: what has been consumed is hashed (R136, R145). -/
structure HashRunning (bytes : List Byte) (s : State) : Prop where
  inv : StateInv s
  busy : s.busy = true
  view : sourceBytes s = bytes
  stable : s.mem.storing = []
  blocks : s.hseq = .bloop → reduceAll s.h = scalarHash (bytes.take s.offset.toNat)
  tail : s.hseq = .tloop → s.sh = scalarHash (bytes.take s.offset.toNat)

/-- A register the host can write (R35): CMD, the descriptor and ARG. -/
def Reg.writable : Reg → Bool
  | .cmd => true
  | .srcKind => true
  | .srcBaseLo => true
  | .srcBaseHi => true
  | .srcLenLo => true
  | .srcLenHi => true
  | .srcWoffLo => true
  | .srcWoffHi => true
  | .argLo => true
  | .argHi => true
  | .id | .param | .status | .result | .sh | .offsetLo | .offsetHi | .errOffLo | .errOffHi
  | .errWidth | .rdata | .carry | .acc _ _ | .coeff _ _ | .vbuf _ => false

/-- A command word that FAULT accepts: it decodes to NOP or CLR (R39). -/
def acceptedInFault (w : Word) : Bool :=
  match decode w with
  | .ok .nop => true
  | .ok .clr => true
  | _ => false

/-- A host write that is dropped, by the two cases of R33. -/
def droppedWrite (s : State) : HostAction → Bool
  | .regWrite ra bits d =>
    wholeWord ra bits &&
      match regAt ra.toNat with
      | some .cmd => s.busy || (decide (s.phase = .fault) && !acceptedInFault d)
      | some r => r.writable && s.busy
      | none => false
  | .regRead _ _ => false
  | .rst => false
  | .storeBegin _ => false
  | .store _ _ => false
  | .pause => false

/-- An event that clears OVR and leaves FAULT: an accepted CLR, or the reset input (R33, R170). -/
def clearsFault (s : State) : HostAction → Bool
  | .regWrite ra bits d =>
    wholeWord ra bits && decide (regAt ra.toNat = some .cmd) && !s.busy &&
      match decode d with
      | .ok .clr => true
      | _ => false
  | .regRead _ _ => false
  | .rst => true
  | .storeBegin _ => false
  | .store _ _ => false
  | .pause => false

/-- The command whose body the next micro-step runs (R151). -/
def sequencerCommand (s : State) : Instr :=
  match s.hseq with
  | .none => .nop
  | .init => if s.ctValid = false then .cinit else .ainit
  | .bloop => if s.offset.toNat + B ≤ srcLength s then .blk else .red
  | .tloop => if s.offset.toNat < srcLength s then .tail else .fin

/-- HSEQ after the next micro-step, if it does not raise (R151). -/
def sequencerNext (s : State) : Hseq :=
  match s.hseq with
  | .none => .none
  | .init => if s.ctValid = false then .init else .bloop
  | .bloop => if s.offset.toNat + B ≤ srcLength s then .bloop else .tloop
  | .tloop => if s.offset.toNat < srcLength s then .tloop else .none

/-- The request that MemRead puts on the port: none for a range that passes 2^64 − 1 (R63). -/
def requestFor (a n : Nat) : List MemRequest := if memTop < a + n then [] else [⟨a, n⟩]

/-- The address of sub-block g of the block at OFFSET (R132, R133). -/
def subBlockAddr (s : State) (g : Nat) : Nat := srcAddr s (s.offset.toNat + g * L)

/-- The requests for the sub-blocks 0 … n−1 in the fixed order of R70, the newest first as State keeps them. -/
def blockRequests (s : State) (n : Nat) : List MemRequest :=
  ((List.range n).map fun g => ⟨subBlockAddr s g, L⟩).reverse

/-- MemRead answers BUS_ERROR (R63). -/
abbrev refusedRead (s : State) (a n : Nat) : Prop := memTop < a + n ∨ s.mem.admits a n = false

/-- How many reads a command issues (R64). -/
def readsOf : Instr → Nat
  | .blk => 4
  | .tail => 1
  | .rdbyte => 1
  | .rdblk _ => 1
  | .nop | .cinit | .ainit | .red | .fin | .hash | .clr => 0

/-- The width of each of a command's reads (R64). -/
def readWidthOf : Instr → Nat
  | .blk => 8
  | .tail => 1
  | .rdbyte => 1
  | .rdblk wsel => if wsel = 0 then 8 else 32
  | .nop | .cinit | .ainit | .red | .fin | .hash | .clr => 0

/-- The error record of a reported error, by the table of R171. -/
def recordOf (i : Instr) (s : State) (c : ErrCode) (off : DWord) (w : Word) : Prop :=
  match i, c with
  | .blk, .range => off = s.offset ∧ w = 32
  | .tail, .range => off = s.offset ∧ w = 1
  | .rdbyte, .range => off = s.arg ∧ w = 1
  | .rdblk wsel, .range => off = s.arg ∧ w = if wsel = 0 then 8 else 32
  | .blk, .bus => ∃ g : Fin 4, refusedRead s (subBlockAddr s g.val) 8 ∧
      (∀ g' < g, ¬refusedRead s (subBlockAddr s g'.val) 8) ∧
      off.toNat = s.offset.toNat + g.val * 8 ∧ w = 8
  | .tail, .bus => off = s.offset ∧ w = 1
  | .rdbyte, .bus => off = s.arg ∧ w = 1
  | .rdblk wsel, .bus => off = s.arg ∧ w = if wsel = 0 then 8 else 32
  | _, _ => off = 0 ∧ w = 0

/-- The order in which one of several error conditions is reported (R175). -/
def errorPriority : List ErrCode := [.illegal, .width, .seq, .noTable, .kind, .range, .bus]

/-- The error conditions of R171 that an accepted command meets, each by its own cause. -/
abbrev meets (i : Instr) (s : State) (c : ErrCode) : Prop :=
  match i, c with
  | .blk, .seq => s.phase ≠ .acc
  | .blk, .noTable => s.ctValid = false
  | .blk, .kind => s.kind = .reserved
  | .blk, .range => srcLength s < s.offset.toNat + B
  | .blk, .bus => ∃ g : Fin 4, refusedRead s (subBlockAddr s g.val) L
  | .red, .seq => s.phase ≠ .acc
  | .tail, .seq => s.phase ≠ .scalar
  | .tail, .kind => s.kind = .reserved
  | .tail, .range => srcLength s ≤ s.offset.toNat
  | .tail, .bus => refusedRead s (srcAddr s s.offset.toNat) 1
  | .fin, .seq => s.phase ≠ .scalar
  | .hash, .kind => s.kind = .reserved
  | .rdbyte, .kind => s.kind = .reserved
  | .rdbyte, .range => srcLength s ≤ s.arg.toNat
  | .rdbyte, .bus => refusedRead s (srcAddr s s.arg.toNat) 1
  | .rdblk wsel, .width => wsel ≠ 0 ∧ wsel ≠ 1
  | .rdblk _, .kind => s.kind = .reserved
  | .rdblk wsel, .range => srcLength s < s.arg.toNat + (if wsel = 0 then L else B)
  | .rdblk wsel, .bus => refusedRead s (srcAddr s s.arg.toNat) (if wsel = 0 then L else B)
  | _, _ => False

/-- Two states whose registers agree in all but the place of the source, and whose views agree: the same length, the same
bytes, the same reads admitted, no address past the top, no byte being written (R116). -/
structure SameView (s t : State) : Prop where
  kindS : s.kind ≠ .reserved
  kindT : t.kind ≠ .reserved
  stableS : s.mem.storing = []
  stableT : t.mem.storing = []
  registersAgree :
    registers { s with kind := .own, base := 0, woff := 0 }
      = registers { t with kind := .own, base := 0, woff := 0 }
  sameBytes : ∀ off < srcLength s, sourceByte s off = sourceByte t off
  insideS : srcAddr s (srcLength s) ≤ memTop
  insideT : srcAddr t (srcLength s) ≤ memTop
  sameReads : ∀ off w, off + w ≤ srcLength s →
    s.mem.admits (srcAddr s off) w = t.mem.admits (srcAddr t off) w

end Sys2Proof.Machine
end

