-- ==== Sys2Proof/Certificates/Slice0/Obligations.lean ====
section
/-! DEFINITION. What is claimed of the model, for the provers: encoding, step, register port, commands, memory, faults, HASH. -/

open Sys2Proof Sys2Proof.Machine Sys2Proof.Config

/-! ## Encoding -/

/-- R83, R84: decoding is this map and no other; every word outside it decodes to ILLEGAL. -/
def Obligations.DecodeAdmitsExactlyFourteenWords : Prop :=
  ∀ (w : Word) (i : Instr), decode w = .ok i ↔
    (w, i) ∈ ([(0x00000000, .nop), (0x00000001, .cinit), (0x00000002, .ainit), (0x00000003, .blk),
      (0x00000004, .red), (0x00000005, .tail), (0x00000006, .fin), (0x00000007, .hash),
      (0x00000008, .rdbyte), (0x00000009, .rdblk 0), (0x00000109, .rdblk 1),
      (0x00000209, .rdblk 2), (0x00000309, .rdblk 3), (0x0000000A, .clr)] : List (Word × Instr))

/-- Decode and encode agree: no bit of an encoding is dropped. -/
def Obligations.DecodeOfEncodeIsTheCommand : Prop :=
  ∀ i : Instr, i.wellFormed = true → decode (encode i) = .ok i

/-- The other direction: every word with a meaning is the encoding of that meaning. -/
def Obligations.EncodeOfDecodeIsTheWord : Prop :=
  ∀ (w : Word) (i : Instr), decode w = .ok i → i.wellFormed = true ∧ encode i = w

/-- R93: the words of its listing, each written out bit by bit from its fields. -/
def Obligations.ListedWordsDecode : Prop :=
  decode 0b00000000000000000000000000000000#32 = .ok .nop ∧
  decode 0b00000000000000000000000000000001#32 = .ok .cinit ∧
  decode 0b00000000000000000000000000000010#32 = .ok .ainit ∧
  decode 0b00000000000000000000000000000011#32 = .ok .blk ∧
  decode 0b00000000000000000000000000000100#32 = .ok .red ∧
  decode 0b00000000000000000000000000000101#32 = .ok .tail ∧
  decode 0b00000000000000000000000000000110#32 = .ok .fin ∧
  decode 0b00000000000000000000000000000111#32 = .ok .hash ∧
  decode 0b00000000000000000000000000001000#32 = .ok .rdbyte ∧
  decode 0b00000000000000000000000000001001#32 = .ok (.rdblk 0) ∧
  decode 0b00000000000000000000000100001001#32 = .ok (.rdblk 1) ∧
  decode 0b00000000000000000000000000001010#32 = .ok .clr

/-- R85, R86: a word with RSV ≠ 0, with WSEL ≠ 0 on another opcode than RDBLK's, or with a reserved opcode decodes to
ILLEGAL; accepted, it raises E_ILLEGAL with the record (0, 0) and writes nothing else. -/
def Obligations.IllegalWordRaisesWhenAccepted : Prop :=
  ∀ w : Word, (rsvField w ≠ 0 ∨ (wselField w ≠ 0 ∧ opcField w ≠ 0x09) ∨ 0x0A < (opcField w).toNat) →
    (∃ why : Illegal, decode w = .error why) ∧
    ∀ s : State, Accepting s → regWrite cmdOffset 32 w s =
      .next { s with errCode := .illegal, errOff := 0, errWidth := 0, phase := .fault, hseq := .none }

/-! ## Steps -/

/-- A step runs the presented command: exec of the decoded command at the state whose next event is taken, and the draw
counter moves on (the counter is the model's own, notes/assumptions/2.md). The second clause is the same for the word
that `withFetchWord` places; the third says that any other register write is the next step too. -/
def Obligations.StepRunsThePresentedCommand : Prop :=
  (∀ (s : State) (rest : List HostAction) (w : Word) (i : Instr),
    s.host = .regWrite cmdOffset 32 w :: rest → decode w = .ok i → i.wellFormed = true →
      step s = mapNext nextDraw (exec i { s with host := rest })) ∧
  (∀ (s : State) (i : Instr), i.wellFormed = true →
    step (s.withFetchWord 32 (encode i).toNat) = mapNext nextDraw (exec i s)) ∧
  (∀ (s : State) (rest : List HostAction) (ra : BitVec 12) (bits : Nat) (d : Word),
    s.host = .regWrite ra bits d :: rest →
      step s = mapNext nextDraw (regWrite ra bits d { s with host := rest }))

/-- R151, R187, R193, R202: on VPHA's turn a pending micro-step is taken, and an idle block holds its state. -/
def Obligations.TurnOfTheBlock : Prop :=
  (∀ s : State, s.host = [] → s.busy = false → step s = .next s) ∧
  (∀ s : State, s.host = [] → s.busy = true → step s = .next (nextDraw (microStep s))) ∧
  (∀ (s : State) (rest : List HostAction), s.host = .pause :: rest → s.busy = false →
    step s = .next { s with host := rest }) ∧
  (∀ (s : State) (rest : List HostAction), s.host = .pause :: rest → s.busy = true →
    step s = .next (nextDraw (microStep { s with host := rest })))

/-- R170 and 93_implementation_defined.md: no behaviour of VPHA is stuck; every step has a next state. -/
def Obligations.EveryStepHasANextState : Prop :=
  ∀ s : State, ∃ t : State, step s = .next t

/-! ## The register port -/

/-- R39, its three cases, and for every command R154 and R177: what is dropped sets OVR and does nothing else. -/
def Obligations.CommandWordAcceptance : Prop :=
  (∀ (s : State) (w : Word), s.busy = true →
    regWrite cmdOffset 32 w s = .next { s with ovr := true }) ∧
  (∀ (s : State) (w : Word), s.busy = false → s.phase = .fault →
    (decode w = .ok .nop → regWrite cmdOffset 32 w s = .next s) ∧
    (decode w = .ok .clr → regWrite cmdOffset 32 w s =
      .next { s with phase := .idle, errCode := .none, errOff := 0, errWidth := 0, ovr := false }) ∧
    (decode w ≠ .ok .nop → decode w ≠ .ok .clr →
      regWrite cmdOffset 32 w s = .next { s with ovr := true })) ∧
  (∀ (s : State) (w : Word), Accepting s →
    (∀ i, decode w = .ok i → regWrite cmdOffset 32 w s = exec i s) ∧
    ((∀ i, decode w ≠ .ok i) → regWrite cmdOffset 32 w s = .next (raise .illegal 0 0 s))) ∧
  (∀ (i : Instr) (s : State), s.busy = true → exec i s = .next { s with ovr := true }) ∧
  (∀ (i : Instr) (s : State), s.busy = false → s.phase = .fault → i ≠ .nop → i ≠ .clr →
    exec i s = .next { s with ovr := true })

/-- R41, R44: a write to the descriptor or ARG is dropped while BUSY; at all other times, in FAULT too, it takes effect, each
half of a 64-bit register by itself, and KIND keeps `d[1:0]`. -/
def Obligations.DescriptorWritesAreGuarded : Prop :=
  (∀ (s : State) (d : Word), s.busy = true →
    ∀ ra ∈ ([0x010, 0x018, 0x01C, 0x020, 0x024, 0x028, 0x02C, 0x030, 0x034] : List (BitVec 12)),
      regWrite ra 32 d s = .next { s with ovr := true }) ∧
  (∀ (s : State) (d : Word), s.busy = false →
    regWrite 0x010 32 d s = .next { s with kind := kindOfWord d } ∧
    regWrite 0x018 32 d s = .next { s with base := highHalf s.base ++ d } ∧
    regWrite 0x01C 32 d s = .next { s with base := d ++ lowHalf s.base } ∧
    regWrite 0x020 32 d s = .next { s with len := highHalf s.len ++ d } ∧
    regWrite 0x024 32 d s = .next { s with len := d ++ lowHalf s.len } ∧
    regWrite 0x028 32 d s = .next { s with woff := highHalf s.woff ++ d } ∧
    regWrite 0x02C 32 d s = .next { s with woff := d ++ lowHalf s.woff } ∧
    regWrite 0x030 32 d s = .next { s with arg := highHalf s.arg ++ d } ∧
    regWrite 0x034 32 d s = .next { s with arg := d ++ lowHalf s.arg }) ∧
  (∀ d : Word, kindWord (kindOfWord d) = d &&& 3)

/-- R40: a write changes only the half it addresses, and the value is `{HI, LO}`. -/
def Obligations.HalvesAreIndependent : Prop :=
  ∀ (v : DWord) (d : Word),
    lowHalf (withLowHalf v d) = d ∧ highHalf (withLowHalf v d) = highHalf v ∧
    highHalf (withHighHalf v d) = d ∧ lowHalf (withHighHalf v d) = lowHalf v ∧
    highHalf v ++ lowHalf v = v ∧
    v.toNat = (highHalf v).toNat * 2 ^ 32 + (lowHalf v).toNat

/-- R38: a write to a read-only register is ignored and does not set OVR; CMD reads 0. -/
def Obligations.ReadOnlyWritesAreIgnored : Prop :=
  (∀ (r : Reg) (s : State) (d : Word), r.writable = false →
    regWrite (BitVec.ofNat 12 (regOffset r)) 32 d s = .next s) ∧
  (∀ s : State, regRead 0x008 32 s = 0)

/-- R36: an access of another width or alignment has no effect, and reads 0. -/
def Obligations.PartialAccessesHaveNoEffect : Prop :=
  ∀ (ra : BitVec 12) (bits : Nat) (d : Word) (s : State), bits ≠ 32 ∨ ra.toNat % 4 ≠ 0 →
    regWrite ra bits d s = .next s ∧ regRead ra bits s = 0

/-- R37: a reserved offset reads 0 and ignores writes; so do the reserved fields of SRC_KIND and STATUS. -/
def Obligations.ReservedSpaceReadsZero : Prop :=
  (∀ (ra : BitVec 12) (d : Word) (s : State),
    ra.toNat = 0x014 ∨ (0x05C ≤ ra.toNat ∧ ra.toNat ≤ 0x0FC) ∨ 0x280 ≤ ra.toNat →
    regRead ra 32 s = 0 ∧ regWrite ra 32 d s = .next s) ∧
  (∀ s : State,
    (regRead 0x010 32 s).extractLsb' 2 30 = 0 ∧
    (regRead 0x00C 32 s).extractLsb' 5 3 = 0 ∧ (regRead 0x00C 32 s).extractLsb' 12 4 = 0 ∧
    (regRead 0x00C 32 s).extractLsb' 18 2 = 0 ∧ (regRead 0x00C 32 s).extractLsb' 22 10 = 0) ∧
  (∀ (s : State) (d e : Word), d.extractLsb' 0 2 = e.extractLsb' 0 2 →
    regWrite 0x010 32 d s = regWrite 0x010 32 e s)

/-- R35: every register stands at a word-aligned offset of the 4 KiB window, and no two share one. -/
def Obligations.RegisterMapIsOneToOne : Prop :=
  (∀ r : Reg, regOffset r % 4 = 0 ∧ regOffset r < 4096 ∧ regAt (regOffset r) = some r) ∧
  (∀ (off : Nat) (r : Reg), off % 4 = 0 → regAt off = some r → regOffset r = off)

/-- R21, R35, R45 to R54, R106: what the host reads of a register that holds a value, and that the read disturbs nothing:
it is logged as a reply, and the model's draw counter moves on. -/
def Obligations.HostReadsReturnTheRegisters : Prop :=
  (∀ s : State,
    regRead 0x000 32 s = 0x56504841 ∧ regRead 0x004 32 s = 0x20200408 ∧
    regRead 0x00C 32 s = statusWord s ∧ regRead 0x010 32 s = kindWord s.kind ∧
    regRead 0x01C 32 s ++ regRead 0x018 32 s = s.base ∧
    regRead 0x024 32 s ++ regRead 0x020 32 s = s.len ∧
    regRead 0x02C 32 s ++ regRead 0x028 32 s = s.woff ∧
    regRead 0x034 32 s ++ regRead 0x030 32 s = s.arg ∧
    regRead 0x044 32 s ++ regRead 0x040 32 s = s.offset ∧
    regRead 0x04C 32 s ++ regRead 0x048 32 s = s.errOff ∧ regRead 0x050 32 s = s.errWidth) ∧
  (∀ s : State,
    (s.written.result = true → regRead 0x038 32 s = s.result) ∧
    (s.written.acc = true → regRead 0x03C 32 s = s.sh) ∧
    (s.written.rdata = true → regRead 0x054 32 s = s.rdata) ∧
    (s.ctValid = true → regRead 0x058 32 s = s.carry)) ∧
  (∀ (s : State) (g : Fin 4) (i : Fin 8),
    (s.written.acc = true →
      regRead (BitVec.ofNat 12 (0x100 + 4 * (8 * g.val + i.val))) 32 s = s.h.get g i) ∧
    (s.ctValid = true →
      regRead (BitVec.ofNat 12 (0x180 + 4 * (8 * g.val + i.val))) 32 s = s.coeff.get g i) ∧
    (8 * g.val + i.val < s.written.vbufLanes →
      regRead (BitVec.ofNat 12 (0x200 + 4 * (8 * g.val + i.val))) 32 s = s.vbuf.get g i)) ∧
  (∀ (s : State) (ra : BitVec 12) (bits : Nat) (rest : List HostAction),
    s.host = .regRead ra bits :: rest →
    step s = .next { s with
      host := rest, replies := regRead ra bits s :: s.replies, draws := s.draws + 1 })

/-- R24, R30, R31: the fields of STATUS, bit by bit, its reset value, and the three output levels. -/
def Obligations.StatusFieldsStandWhereStated : Prop :=
  (∀ s : State,
    (statusWord s).extractLsb' 0 1 = BitVec.ofBool (decide (s.hseq ≠ .none)) ∧
    (statusWord s).extractLsb' 1 1 = BitVec.ofBool s.done ∧
    (statusWord s).extractLsb' 2 1 = BitVec.ofBool (decide (s.phase = .fault)) ∧
    (statusWord s).extractLsb' 3 1 = BitVec.ofBool s.ctValid ∧
    (statusWord s).extractLsb' 4 1 = BitVec.ofBool s.ovr ∧
    (statusWord s).extractLsb' 5 3 = 0 ∧
    (statusWord s).extractLsb' 8 4 = errValue s.errCode ∧
    (statusWord s).extractLsb' 12 4 = 0 ∧
    (statusWord s).extractLsb' 16 2 = phaseCode s.phase ∧
    (statusWord s).extractLsb' 18 2 = 0 ∧
    (statusWord s).extractLsb' 20 2 = hseqCode s.hseq ∧
    (statusWord s).extractLsb' 22 10 = 0 ∧
    BitVec.ofBool s.busyO = (statusWord s).extractLsb' 0 1 ∧
    BitVec.ofBool s.doneO = (statusWord s).extractLsb' 1 1 ∧
    BitVec.ofBool s.errO = (statusWord s).extractLsb' 2 1) ∧
  statusWord State.reset = 0

/-- R56, R191: the registers that hold no value after reset, and that a host read of a register that holds none returns a
draw: the free value `Config.draw` at the draw counter, about which nothing is assumed (notes/assumptions/2.md). -/
def Obligations.UnheldRegistersReadAsDraws : Prop :=
  (∀ (s : State) (r : Reg), holdsValue s r = false →
    regRead (BitVec.ofNat 12 (regOffset r)) 32 s = Config.draw s.draws) ∧
  (∀ r : Reg, holdsValue State.reset r = false ↔
    r = .result ∨ r = .sh ∨ r = .rdata ∨ r = .carry ∨
      (∃ g i, r = .acc g i) ∨ (∃ g i, r = .coeff g i) ∨ ∃ j, r = .vbuf j) ∧
  (∀ (s : State) (ra : BitVec 12) (bits : Nat) (rest : List HostAction) (t : State),
    s.host = .regRead ra bits :: rest → step s = .next t → t.draws ≠ s.draws)

/-- R56, R58: no command, no micro-step and no host read depends on a register that holds no value: a run from the state
with those registers blanked goes on in step with it. -/
def Obligations.UnheldRegistersAreNeverUsed : Prop :=
  ∀ s t : State, StateInv s → step s = .next t →
    ∃ u : State, step (heldOnly s) = .next u ∧ heldOnly u = heldOnly t

/-! ## Reset and invariants -/

/-- R190 to R192: the reset input, whatever the block is doing; "unspecified" is said as holding no value. -/
def Obligations.ResetSetsEveryRegister : Prop :=
  ∀ (s : State) (rest : List HostAction), s.host = .rst :: rest →
    ∃ t : State, step s = .next t ∧
      regRead 0x000 32 t = 0x56504841 ∧ regRead 0x004 32 t = 0x20200408 ∧ statusWord t = 0 ∧
      t.phase = .idle ∧ t.hseq = .none ∧ t.errCode = .none ∧ t.done = false ∧ t.ovr = false ∧
      t.ctValid = false ∧ t.kind = .own ∧ t.base = 0 ∧ t.len = 0 ∧ t.woff = 0 ∧ t.arg = 0 ∧
      t.offset = 0 ∧ t.errOff = 0 ∧ t.errWidth = 0 ∧
      (∀ r : Reg, holdsValue State.reset r = false → holdsValue t r = false) ∧
      t.reads = s.reads ∧ t.mem = s.mem ∧ t.host = rest

/-- The invariant holds after reset. -/
def Obligations.InvariantHoldsAtReset : Prop := StateInv State.reset

/-- Every step keeps the invariant, whatever comes from outside: R31, R34, R134, R144, R174, R188, R199 and the canonical
form of the memory (the last is the model's, notes/assumptions/4.md). -/
def Obligations.EveryStepKeepsTheInvariant : Prop :=
  ∀ s t : State, StateInv s → step s = .next t → StateInv t

/-- R31: its four clauses in every state that any events from outside, over any memory, lead to from reset. -/
def Obligations.ReachableStatesKeepStatusClauses : Prop :=
  ∀ (k : Nat) (m : Memory) (events : List HostAction) (t : State), m.wf = true →
    Host.Core.run Sys2Proof.core k { State.reset with mem := m, host := events } = .next t →
    (t.busy = true ↔ t.hseq ≠ .none) ∧ (t.err = true ↔ t.phase = .fault) ∧
    (errValue t.errCode ≠ 0 ↔ t.phase = .fault) ∧ (t.busy = true → t.phase ≠ .fault)

/-- R32: what sets DONE, what clears it, and that nothing else changes it, a raise and a dropped command included. -/
def Obligations.DoneChangesOnlyAsStated : Prop :=
  (∀ (i : Instr) (s t : State), Accepting s → exec i s = .next t →
    t.done = if t.phase = .fault then s.done
      else if i = .fin then true else if i = .ainit ∨ i = .hash then false else s.done) ∧
  (∀ (i : Instr) (s t : State), ¬Accepting s → exec i s = .next t → t.done = s.done) ∧
  (∀ s : State, s.busy = true →
    (microStep s).done = if (microStep s).phase = .fault then s.done
      else if sequencerCommand s = .fin then true
      else if sequencerCommand s = .ainit then false else s.done)

/-- R33: OVR is set by exactly the dropped writes, cleared by exactly CLR and reset, and nothing but a read of STATUS sees it. -/
def Obligations.OvrRecordsDroppedWrites : Prop :=
  (∀ (s t : State) (a : HostAction) (rest : List HostAction), s.host = a :: rest → step s = .next t →
    t.ovr = if droppedWrite s a then true else if clearsFault s a then false else s.ovr) ∧
  (∀ s t : State, s.host = [] → step s = .next t → t.ovr = s.ovr) ∧
  (∀ (s t u : State) (b : Bool), step s = .next t → step { s with ovr := b } = .next u →
    { t with ovr := false, replies := [] } = { u with ovr := false, replies := [] })

/-- R28, R29: the transitions of PHASE and HSEQ that a command can make, and that while BUSY no event from outside but
reset changes HSEQ. Micro-steps are in MicroStepRunsTheSequencerCommand, accepted ILLEGAL words in
IllegalWordRaisesWhenAccepted, PHASE at reset in ResetSetsEveryRegister. -/
def Obligations.ControlStateTransitions : Prop :=
  (∀ (i : Instr) (s t : State), exec i s = .next t →
    t.phase = s.phase ∨ (i = .ainit ∧ s.phase ≠ .fault ∧ t.phase = .acc) ∨
    (i = .red ∧ s.phase = .acc ∧ t.phase = .scalar) ∨
    (i = .fin ∧ s.phase = .scalar ∧ t.phase = .idle) ∨ (i = .clr ∧ t.phase = .idle) ∨
    (s.phase ≠ .fault ∧ t.phase = .fault ∧ t.errCode ≠ .none)) ∧
  (∀ (i : Instr) (s t : State), exec i s = .next t →
    t.hseq = s.hseq ∨ (i = .hash ∧ s.hseq = .none ∧ t.hseq = .init) ∨
    (t.phase = .fault ∧ t.hseq = .none)) ∧
  (∀ (s t : State) (a : HostAction) (rest : List HostAction), s.host = a :: rest → a ≠ .pause →
    s.busy = true → step s = .next t → t.hseq = s.hseq ∨ (a = .rst ∧ t.hseq = .none))

/-- R27: OFFSET only becomes 0, or advances by a block or a byte inside the source; so it never wraps. -/
def Obligations.OffsetNeverWraps : Prop :=
  ∀ s t : State, step s = .next t →
    t.offset = s.offset ∨ t.offset = 0 ∨
    (t.offset.toNat = s.offset.toNat + 32 ∧ t.offset.toNat ≤ srcLength t) ∨
    (t.offset.toNat = s.offset.toNat + 1 ∧ t.offset.toNat ≤ srcLength t)

/-! ## Commands -/

/-- R158, NOP. -/
def Obligations.NopChangesNothing : Prop :=
  (∀ w : Word, decode w = .ok .nop ↔ w = 0x00000000) ∧
  (∀ s : State, s.busy = true → exec .nop s = .next { s with ovr := true }) ∧
  (∀ s : State, s.busy = false → exec .nop s = .next s)

/-- R159, CLR. -/
def Obligations.ClrClearsTheFault : Prop :=
  (∀ w : Word, decode w = .ok .clr ↔ w = 0x0000000A) ∧
  (∀ s : State, s.busy = true → exec .clr s = .next { s with ovr := true }) ∧
  (∀ s : State, s.busy = false →
    exec .clr s =
      .next { s with phase := .idle, errCode := .none, errOff := 0, errWidth := 0, ovr := false })

/-- R100, R104, CINIT. -/
def Obligations.CinitBuildsTheTable : Prop :=
  encode .cinit = 0x00000001 ∧
  (∀ s : State, ¬Accepting s → exec .cinit s = .next { s with ovr := true }) ∧
  (∀ s : State, Accepting s →
    exec .cinit s = .next { s with
      coeff := Bank.ofFn fun g i => BitVec.ofNat 32 (31 ^ (32 - 1 - (g.val * 8 + i.val)))
      carry := BitVec.ofNat 32 (31 ^ 32)
      ctValid := true })

/-- R131, AINIT. -/
def Obligations.AinitStartsAHash : Prop :=
  encode .ainit = 0x00000002 ∧
  (∀ s : State, ¬Accepting s → exec .ainit s = .next { s with ovr := true }) ∧
  (∀ s : State, Accepting s →
    exec .ainit s = .next { s with
      h := Bank.ofFn fun g i => if g = 0 ∧ i = 0 then 1 else 0
      sh := 0
      offset := 0
      done := false
      phase := .acc
      written := { s.written with acc := true } })

/-- R132, R133, BLK: its tests in their order, the reads it issues, the first refused sub-block, and the commit lane by lane. -/
def Obligations.BlkFoldsOneBlock : Prop :=
  encode .blk = 0x00000003 ∧
  (∀ s : State, ¬Accepting s → exec .blk s = .next { s with ovr := true }) ∧
  (∀ s : State, Accepting s → s.phase ≠ .acc → exec .blk s = .next (raise .seq 0 0 s)) ∧
  (∀ s : State, Accepting s → s.phase = .acc → s.ctValid = false →
    exec .blk s = .next (raise .noTable 0 0 s)) ∧
  (∀ s : State, Accepting s → s.phase = .acc → s.ctValid = true → s.kind = .reserved →
    exec .blk s = .next (raise .kind 0 0 s)) ∧
  (∀ s : State, Accepting s → s.phase = .acc → s.ctValid = true → s.kind ≠ .reserved →
    srcLength s < s.offset.toNat + 32 → exec .blk s = .next (raise .range s.offset 32 s)) ∧
  (∀ (s : State) (g : Fin 4), Accepting s → s.phase = .acc → s.ctValid = true →
    s.kind ≠ .reserved → s.offset.toNat + 32 ≤ srcLength s →
    refusedRead s (subBlockAddr s g.val) 8 →
    (∀ g' < g, ¬refusedRead s (subBlockAddr s g'.val) 8) →
    exec .blk s = .next (raise .bus (s.offset + BitVec.ofNat 64 (g.val * 8)) 8
      { s with reads := requestFor (subBlockAddr s g.val) 8 ++ (blockRequests s g.val ++ s.reads) })) ∧
  (∀ s : State, Accepting s → s.phase = .acc → s.ctValid = true → s.kind ≠ .reserved →
    s.offset.toNat + 32 ≤ srcLength s → (∀ g : Fin 4, ¬refusedRead s (subBlockAddr s g.val) 8) →
    exec .blk s = .next { s with
      h := Bank.ofFn fun g i =>
        s.h.get g i * s.carry
          + zext32 (byteSeen s (srcAddr s (s.offset.toNat + g.val * 8 + i.val))) * s.coeff.get g i
      offset := s.offset + 32
      reads := blockRequests s 4 ++ s.reads })

/-- R140, RED. -/
def Obligations.RedSumsTheLanes : Prop :=
  encode .red = 0x00000004 ∧
  (∀ s : State, ¬Accepting s → exec .red s = .next { s with ovr := true }) ∧
  (∀ s : State, Accepting s → s.phase ≠ .acc → exec .red s = .next (raise .seq 0 0 s)) ∧
  (∀ s : State, Accepting s → s.phase = .acc →
    exec .red s = .next { s with
      sh := (List.finRange 4).foldl
        (fun a g => (List.finRange 8).foldl (fun b i => b + s.h.get g i) a) 0
      phase := .scalar })

/-- R142, TAIL: its tests in their order, and the sequential recurrence. -/
def Obligations.TailFoldsOneByte : Prop :=
  encode .tail = 0x00000005 ∧
  (∀ s : State, ¬Accepting s → exec .tail s = .next { s with ovr := true }) ∧
  (∀ s : State, Accepting s → s.phase ≠ .scalar → exec .tail s = .next (raise .seq 0 0 s)) ∧
  (∀ s : State, Accepting s → s.phase = .scalar → s.kind = .reserved →
    exec .tail s = .next (raise .kind 0 0 s)) ∧
  (∀ s : State, Accepting s → s.phase = .scalar → s.kind ≠ .reserved →
    srcLength s ≤ s.offset.toNat → exec .tail s = .next (raise .range s.offset 1 s)) ∧
  (∀ s : State, Accepting s → s.phase = .scalar → s.kind ≠ .reserved →
    s.offset.toNat < srcLength s → refusedRead s (srcAddr s s.offset.toNat) 1 →
    exec .tail s = .next (raise .bus s.offset 1
      { s with reads := requestFor (srcAddr s s.offset.toNat) 1 ++ s.reads })) ∧
  (∀ s : State, Accepting s → s.phase = .scalar → s.kind ≠ .reserved →
    s.offset.toNat < srcLength s → ¬refusedRead s (srcAddr s s.offset.toNat) 1 →
    exec .tail s = .next { s with
      sh := s.sh * 31 + zext32 (byteSeen s (srcAddr s s.offset.toNat))
      offset := s.offset + 1
      reads := ⟨srcAddr s s.offset.toNat, 1⟩ :: s.reads })

/-- R143, FIN: it does not look at OFFSET. -/
def Obligations.FinReturnsTheScalar : Prop :=
  encode .fin = 0x00000006 ∧
  (∀ s : State, ¬Accepting s → exec .fin s = .next { s with ovr := true }) ∧
  (∀ s : State, Accepting s → s.phase ≠ .scalar → exec .fin s = .next (raise .seq 0 0 s)) ∧
  (∀ s : State, Accepting s → s.phase = .scalar →
    exec .fin s = .next { s with
      result := s.sh, done := true, phase := .idle, written := { s.written with result := true } })

/-- R150, the acceptance step of HASH. -/
def Obligations.HashAcceptanceStartsTheSequencer : Prop :=
  encode .hash = 0x00000007 ∧
  (∀ s : State, ¬Accepting s → exec .hash s = .next { s with ovr := true }) ∧
  (∀ s : State, Accepting s → s.kind = .reserved → exec .hash s = .next (raise .kind 0 0 s)) ∧
  (∀ s : State, Accepting s → s.kind ≠ .reserved →
    exec .hash s = .next { s with done := false, hseq := .init })

/-- R119, RDBYTE: its tests in their order, and the zero-extended byte. -/
def Obligations.RdbyteReadsOneByte : Prop :=
  encode .rdbyte = 0x00000008 ∧
  (∀ s : State, ¬Accepting s → exec .rdbyte s = .next { s with ovr := true }) ∧
  (∀ s : State, Accepting s → s.kind = .reserved →
    exec .rdbyte s = .next (raise .kind 0 0 s)) ∧
  (∀ s : State, Accepting s → s.kind ≠ .reserved → srcLength s ≤ s.arg.toNat →
    exec .rdbyte s = .next (raise .range s.arg 1 s)) ∧
  (∀ s : State, Accepting s → s.kind ≠ .reserved → s.arg.toNat < srcLength s →
    refusedRead s (srcAddr s s.arg.toNat) 1 →
    exec .rdbyte s = .next (raise .bus s.arg 1
      { s with reads := requestFor (srcAddr s s.arg.toNat) 1 ++ s.reads })) ∧
  (∀ s : State, Accepting s → s.kind ≠ .reserved → s.arg.toNat < srcLength s →
    ¬refusedRead s (srcAddr s s.arg.toNat) 1 →
    exec .rdbyte s = .next { s with
      rdata := zext32 (byteSeen s (srcAddr s s.arg.toNat))
      written := { s.written with rdata := true }
      reads := ⟨srcAddr s s.arg.toNat, 1⟩ :: s.reads })

/-- R120, RDBLK with every value of WSEL: the widths of WSEL 0 and 1 are written out as pairs. -/
def Obligations.RdblkReadsIntoVbuf : Prop :=
  (encode (.rdblk 0) = 0x00000009 ∧ encode (.rdblk 1) = 0x00000109 ∧
    encode (.rdblk 2) = 0x00000209 ∧ encode (.rdblk 3) = 0x00000309) ∧
  (∀ (s : State) (wsel : Nat), ¬Accepting s → exec (.rdblk wsel) s = .next { s with ovr := true }) ∧
  (∀ (s : State) (wsel : Nat), Accepting s → wsel ≠ 0 → wsel ≠ 1 →
    exec (.rdblk wsel) s = .next (raise .width 0 0 s)) ∧
  (∀ (s : State) (wsel w : Nat), (wsel, w) ∈ [(0, 8), (1, 32)] → Accepting s →
    (s.kind = .reserved → exec (.rdblk wsel) s = .next (raise .kind 0 0 s)) ∧
    (s.kind ≠ .reserved → srcLength s < s.arg.toNat + w →
      exec (.rdblk wsel) s = .next (raise .range s.arg w s)) ∧
    (s.kind ≠ .reserved → s.arg.toNat + w ≤ srcLength s →
      refusedRead s (srcAddr s s.arg.toNat) w →
      exec (.rdblk wsel) s = .next (raise .bus s.arg w
        { s with reads := requestFor (srcAddr s s.arg.toNat) w ++ s.reads })) ∧
    (s.kind ≠ .reserved → s.arg.toNat + w ≤ srcLength s →
      ¬refusedRead s (srcAddr s s.arg.toNat) w →
      exec (.rdblk wsel) s = .next { s with
        vbuf := Bank.ofFn fun g i =>
          if g.val * 8 + i.val < w then
            zext32 (byteSeen s (srcAddr s (s.arg.toNat + (g.val * 8 + i.val))))
          else s.vbuf.get g i
        written := { s.written with vbufLanes := max s.written.vbufLanes w }
        reads := ⟨srcAddr s s.arg.toNat, w⟩ :: s.reads }))

/-! ## The coefficient table, the reduction, the reference hash -/

/-- R100 to R103, R105: the table against the closed form and against the source's construction; building it again changes
nothing. -/
def Obligations.TableHoldsPowersOf31 : Prop :=
  (∀ (g : Fin 4) (i : Fin 8),
    coeffTable.get g i = BitVec.ofNat 32 (31 ^ (32 - 1 - (g.val * 8 + i.val))) ∧
    coeffTable.get g i = powerOf31 (32 - 1 - (g.val * 8 + i.val))) ∧
  carryCoeff = BitVec.ofNat 32 (31 ^ 32) ∧ carryCoeff = 31 * powerOf31 31 ∧
  (∀ s : State, StateInv s → Accepting s → s.ctValid = true → exec .cinit s = .next s)

/-- R141: every order of adding the 32 lanes gives the same SH. -/
def Obligations.ReductionOrderIsFree : Prop :=
  (∀ (h : Bank) (order : List Word), order.Perm h.toList →
    order.foldl (fun a b => a + b) 0 = reduceAll h) ∧
  (∀ h : Bank, reduceAll h = hsum h.v0 + hsum h.v1 + hsum h.v2 + hsum h.v3)

/-- R16: the reference hash in closed form. -/
def Obligations.ReferenceHashClosedForm : Prop :=
  ∀ bytes : List Byte, scalarHash bytes =
    BitVec.ofNat 32 (31 ^ bytes.length
      + ((List.range bytes.length).map fun i =>
          (bytes.getD i 0).toNat * 31 ^ (bytes.length - 1 - i)).sum)

/-! ## Memory -/

/-- R62, R63: MemRead where no other agent is writing. -/
def Obligations.MemReadFollowsItsRule : Prop :=
  ∀ (a n : Nat) (s : State), s.mem.storing = [] →
    (2 ^ 64 < a + n → memRead a n s = (none, s)) ∧
    (a + n ≤ 2 ^ 64 → s.mem.admits a n = false →
      memRead a n s = (none, { s with reads := ⟨a, n⟩ :: s.reads })) ∧
    (a + n ≤ 2 ^ 64 → s.mem.admits a n = true →
      memRead a n s = (some ((List.range n).map fun k => s.mem.byteAt (a + k)),
        { s with reads := ⟨a, n⟩ :: s.reads }))

/-- R72: a byte that another agent is writing is read as a draw, the free value `Config.drawByte`, about which nothing is
assumed (notes/assumptions/3.md); the other bytes of the read, and the read, are as ever. -/
def Obligations.OverlappedBytesReadAsDraws : Prop :=
  (∀ (a n : Nat) (s : State), ¬refusedRead s a n →
    ∃ bytes : List Byte, (memRead a n s).1 = some bytes ∧ bytes.length = n ∧
      ∀ k < n, bytes[k]? =
        some (if a + k ∈ s.mem.storing then Config.drawByte s.draws (a + k)
          else s.mem.byteAt (a + k))) ∧
  (∀ (s t : State) (a : DWord) (rest : List HostAction), s.host = .storeBegin a :: rest →
    step s = .next t → byteSeen t a.toNat = Config.drawByte t.draws a.toNat)

/-- R71: a store that completes before a command is seen by every read after it; it changes no other byte and no register. -/
def Obligations.CompletedStoresAreSeen : Prop :=
  ∀ (s t : State) (a : DWord) (b : Byte) (rest : List HostAction), s.mem.wf = true →
    s.host = .store a b :: rest → step s = .next t →
    t.mem.byteAt a.toNat = b ∧ byteSeen t a.toNat = b ∧
    (∀ a' : Nat, a' ≠ a.toNat → t.mem.byteAt a' = s.mem.byteAt a') ∧
    (∀ a' n : Nat, t.mem.admits a' n = s.mem.admits a' n) ∧
    t.mem.wf = true ∧ registers t = registers s

/-- R61: no command, micro-step, register access or reset writes memory. -/
def Obligations.VphaNeverWritesMemory : Prop :=
  (∀ (i : Instr) (s t : State), exec i s = .next t → t.mem = s.mem) ∧
  (∀ s : State, (microStep s).mem = s.mem) ∧
  (∀ (ra : BitVec 12) (bits : Nat) (d : Word) (s t : State),
    regWrite ra bits d s = .next t → t.mem = s.mem) ∧
  (∀ s : State, (applyReset s).mem = s.mem)

/-- R118: no command and no micro-step writes the descriptor or ARG. -/
def Obligations.CommandsKeepTheDescriptor : Prop :=
  (∀ (i : Instr) (s t : State), exec i s = .next t →
    t.kind = s.kind ∧ t.base = s.base ∧ t.len = s.len ∧ t.woff = s.woff ∧ t.arg = s.arg) ∧
  (∀ s : State, (microStep s).kind = s.kind ∧ (microStep s).base = s.base ∧
    (microStep s).len = s.len ∧ (microStep s).woff = s.woff ∧ (microStep s).arg = s.arg)

/-- R60, R64: how many reads each command issues, of which width, and none past the top of the memory space. -/
def Obligations.ReadsOfEachCommand : Prop :=
  ∀ (i : Instr) (s t : State), exec i s = .next t →
    ∃ new : List MemRequest, t.reads = new ++ s.reads ∧ new.length ≤ readsOf i ∧
      (∀ r ∈ new, r.bytes = readWidthOf i ∧ r.addr + r.bytes ≤ 2 ^ 64) ∧
      (Accepting s → t.phase ≠ .fault → new.length = readsOf i)

/-- R116: commands and micro-steps over two views of the same bytes leave two views of the same bytes: no register but the
place of the source tells them apart. -/
def Obligations.SourceKindsAreEquivalent : Prop :=
  (∀ (i : Instr) (s t : State), SameView s t →
    ∃ s' t' : State, exec i s = .next s' ∧ exec i t = .next t' ∧ SameView s' t') ∧
  (∀ s t : State, SameView s t → SameView (microStep s) (microStep t))

/-! ## Faults -/

/-- R172, R173: faults are precise. What raises writes the error record, PHASE and HSEQ, and the log of the read port shows
the reads it issued; nothing else changes. -/
def Obligations.FaultsArePrecise : Prop :=
  (∀ (i : Instr) (s t : State), Accepting s → exec i s = .next t → t.phase = .fault →
    t = { s with errCode := t.errCode, errOff := t.errOff, errWidth := t.errWidth,
                 phase := .fault, hseq := .none, reads := t.reads }) ∧
  (∀ s : State, s.busy = true → s.phase ≠ .fault → (microStep s).phase = .fault →
    microStep s = { s with
      errCode := (microStep s).errCode, errOff := (microStep s).errOff,
      errWidth := (microStep s).errWidth, phase := .fault, hseq := .none,
      reads := (microStep s).reads })

/-- R171, R174, R175: an accepted command raises exactly when it meets an error condition, reports the first in the priority
order, and records it as the table of R171 says. -/
def Obligations.FirstErrorIsReported : Prop :=
  ∀ (i : Instr) (s t : State), Accepting s → exec i s = .next t →
    (t.phase = .fault ↔ ∃ c, meets i s c) ∧
    (t.phase = .fault →
      meets i s t.errCode ∧ recordOf i s t.errCode t.errOff t.errWidth ∧
      ∀ c, errorPriority.idxOf c < errorPriority.idxOf t.errCode → ¬meets i s c)

/-- R170, R178, R179: in FAULT nothing but an accepted CLR or reset changes the record, H, SH, OFFSET or RESULT, and those
two leave it for IDLE with the record cleared. -/
def Obligations.FaultIsStickyUntilCleared : Prop :=
  ∀ s t : State, StateInv s → s.phase = .fault → step s = .next t →
    (t.phase = .fault ∧ t.errCode = s.errCode ∧ t.errOff = s.errOff ∧ t.errWidth = s.errWidth ∧
      t.h = s.h ∧ t.sh = s.sh ∧ t.offset = s.offset ∧ t.result = s.result) ∨
    (t.phase = .idle ∧ t.errCode = .none ∧ t.errOff = 0 ∧ t.errWidth = 0 ∧
      ∃ a rest, s.host = a :: rest ∧ clearsFault s a = true)

/-! ## HASH -/

/-- R151, and R155 micro-step by micro-step: the micro-step is the body of the sequencer's command run as the host would run
it, with HSEQ moved on, or NONE if it raised. -/
def Obligations.MicroStepRunsTheSequencerCommand : Prop :=
  ∀ s t : State, s.busy = true → s.phase ≠ .fault →
    exec (sequencerCommand s) { s with hseq := .none } = .next t →
    microStep s = { t with hseq := if t.phase = .fault then .none else sequencerNext s }

/-- R188: the acceptance of HASH can raise only E_KIND, and its micro-steps only E_BUS. -/
def Obligations.HashRaisesOnlyKindAndBus : Prop :=
  (∀ s t : State, Accepting s → exec .hash s = .next t → t.phase = .fault → t.errCode = .kind) ∧
  (∀ s : State, StateInv s → s.busy = true → (microStep s).phase = .fault → (microStep s).errCode = .bus)

/-- R135, R136, R145, R153, R157 under every interleaving: while a HASH over `bytes` runs and nothing resets it or stores to
memory, each step leaves it running and right so far, or completed with RESULT = scalar_hash(bytes), or faulted with E_BUS,
RESULT not written and DONE = 0. -/
def Obligations.RunningHashStaysRight : Prop :=
  ∀ (bytes : List Byte) (s t : State), HashRunning bytes s →
    (∀ a rest, s.host = a :: rest → a.leavesSource = true) → step s = .next t →
    HashRunning bytes t ∨
    (t.hseq = .none ∧ t.phase = .idle ∧ t.done = true ∧ t.result = scalarHash bytes ∧
      srcLength t = t.offset.toNat) ∨
    (t.hseq = .none ∧ t.phase = .fault ∧ t.errCode = .bus ∧ t.done = false ∧ t.result = s.result)

/-- R152, R157, R202: a HASH over a readable source takes exactly the stated number of micro-steps, is busy until then, and
leaves RESULT = scalar_hash of the source's bytes; with an empty source that is 1 (R146). -/
def Obligations.HashCompletesWithTheReferenceHash : Prop :=
  ∀ s : State, StateInv s → Accepting s → s.kind ≠ .reserved → Readable s →
    s.host = [cmdWrite .hash] →
    (∀ k < hashMicroSteps s, ∃ u : State,
      Host.Core.run Sys2Proof.core (1 + k) s = .next u ∧ u.busy = true) ∧
    ∃ t : State, Host.Core.run Sys2Proof.core (1 + hashMicroSteps s) s = .next t ∧
      t.hseq = .none ∧ t.phase = .idle ∧ t.done = true ∧ t.errCode = .none ∧
      t.offset = s.len ∧ t.result = scalarHash (sourceBytes s) ∧
      (srcLength s = 0 → t.result = 1 ∧ t.reads = s.reads)

/-- R155: a HASH that ends without fault ends in the state, in every register and with the same reads, that the host reaches
with the stated sequence of step commands. -/
def Obligations.HashEqualsStepMode : Prop :=
  ∀ s t : State, StateInv s → Accepting s → s.kind ≠ .reserved → s.mem.storing = [] →
    Host.Core.run Sys2Proof.core (1 + hashMicroSteps s) { s with host := [cmdWrite .hash] } = .next t →
    t.phase ≠ .fault →
    ∃ u : State, Host.Core.run Sys2Proof.core (stepModeScript s).length
        { s with host := stepModeScript s } = .next u ∧
      registers u = registers t ∧ u.reads = t.reads

/-- R134, R136: the accumulator invariant, lane by lane, after AINIT and m successful BLKs, where no byte is being written. -/
def Obligations.AccumulatorLanesAfterBlocks : Prop :=
  ∀ (s : State) (m : Nat), s.ctValid = true → s.coeff = coeffTable → s.carry = carryCoeff →
    s.mem.storing = [] → (blkBody^[m] (ainitBody s)).phase = .acc →
    (blkBody^[m] (ainitBody s)).offset.toNat = m * 32 ∧
    ∀ (g : Fin 4) (i : Fin 8),
      (blkBody^[m] (ainitBody s)).h.get g i = laneAfter (sourceByte s) m g.val i.val

/-- R145: the scalar invariant in step mode, after AINIT, m BLKs, RED and k TAILs that all succeed, where no byte is being
written; whole blocks left at RED are caught up by the tail. -/
def Obligations.ScalarPartialIsThePrefixHash : Prop :=
  ∀ (s : State) (m k : Nat), s.ctValid = true → s.coeff = coeffTable → s.carry = carryCoeff →
    s.mem.storing = [] →
    (tailBody^[k] (redBody (blkBody^[m] (ainitBody s)))).phase = .scalar →
    (tailBody^[k] (redBody (blkBody^[m] (ainitBody s)))).offset.toNat = m * 32 + k ∧
    (tailBody^[k] (redBody (blkBody^[m] (ainitBody s)))).sh
      = scalarHash (sourcePrefix s (m * 32 + k))
end

