-- ==== Sys2Proof/Laws/Bits.lean ====
section
/-! SUPPORT. Fields of words: what a field of a concatenation is, a command word from its fields, the halves of a 64-bit register. -/

namespace Sys2Proof.Machine

/-- A field that lies in the left part of a concatenation. -/
theorem extract_append_left {v w : Nat} (x : BitVec v) (y : BitVec w) (start len : Nat)
    (h : w ≤ start) : (x ++ y).extractLsb' start len = x.extractLsb' (start - w) len := by
  ext i hi
  rw [BitVec.getElem_extractLsb', BitVec.getElem_extractLsb', BitVec.getLsbD_append,
    if_neg (by omega)]
  congr 1
  omega

/-- A field that lies in the right part of a concatenation. -/
theorem extract_append_right {v w : Nat} (x : BitVec v) (y : BitVec w) (start len : Nat)
    (h : start + len ≤ w) : (x ++ y).extractLsb' start len = y.extractLsb' start len := by
  ext i hi
  rw [BitVec.getElem_extractLsb', BitVec.getElem_extractLsb', BitVec.getLsbD_append,
    if_pos (by omega)]

/-- A command word is its three fields (R81). -/
theorem word_fields (w : Word) : (rsvField w ++ wselField w) ++ opcField w = w := by
  simp only [rsvField, wselField, opcField]
  rw [BitVec.extractLsb'_append_extractLsb'_eq_extractLsb' (by rfl),
    BitVec.extractLsb'_append_extractLsb'_eq_extractLsb' (by rfl)]
  simp

/-- A 64-bit register is its two halves (R40). -/
theorem halves_append (v : DWord) : highHalf v ++ lowHalf v = v := by
  unfold highHalf lowHalf
  rw [BitVec.extractLsb'_append_extractLsb'_eq_extractLsb' (by rfl)]
  simp

@[simp] theorem lowHalf_append (a b : Word) : lowHalf (a ++ b) = b := by
  unfold lowHalf
  rw [extract_append_right _ _ _ _ (by decide)]
  simp

@[simp] theorem highHalf_append (a b : Word) : highHalf (a ++ b) = a := by
  unfold highHalf
  rw [extract_append_left _ _ _ _ (by decide)]
  simp

end Sys2Proof.Machine
end

