-- ==== Sys2Proof/Laws/Coefficient.lean ====
section
/-! SUPPORT. Powers of 31: the recurrence of R101 against the closed form of R100. -/

namespace Sys2Proof.Machine

/-- The construction of R101 yields the powers of R100, by the induction of R102. -/
theorem powerOf31_eq (k : Nat) : powerOf31 k = BitVec.ofNat 32 (31 ^ k) := by
  induction k with
  | zero => rfl
  | succ k ih => rw [powerOf31, ih, Nat.pow_succ, Nat.mul_comm, BitVec.ofNat_mul]; rfl

theorem powerOf31_add (j k : Nat) : powerOf31 (j + k) = powerOf31 j * powerOf31 k := by
  induction j with
  | zero => simp [powerOf31]
  | succ j ih => rw [Nat.add_right_comm, powerOf31, powerOf31, ih]; ring

end Sys2Proof.Machine
end

