-- ==== Sys2Proof/Laws/Lanes.lean ====
section
/-! SUPPORT. Lanes and files read lane by lane: two are equal when every lane is; what each vector operation leaves in a lane. -/

namespace Sys2Proof.Machine

open Sys2Proof.Config

@[simp] theorem Lanes.get_ofFn (f : Fin 8 → Word) (i : Fin 8) : (Lanes.ofFn f).get i = f i := by
  fin_cases i <;> rfl

@[simp] theorem Bank.row_ofRows (f : Fin 4 → Lanes) (g : Fin 4) : (Bank.ofRows f).row g = f g := by
  fin_cases g <;> rfl

@[simp] theorem Bank.get_ofFn (f : Fin 4 → Fin 8 → Word) (g : Fin 4) (i : Fin 8) :
    (Bank.ofFn f).get g i = f g i := by
  simp [Bank.get, Bank.ofFn]

theorem Lanes.ext_get {a b : Lanes} (h : ∀ i, a.get i = b.get i) : a = b := by
  obtain ⟨a0, a1, a2, a3, a4, a5, a6, a7⟩ := a
  obtain ⟨b0, b1, b2, b3, b4, b5, b6, b7⟩ := b
  rw [Lanes.mk.injEq]
  exact ⟨h 0, h 1, h 2, h 3, h 4, h 5, h 6, h 7⟩

theorem Bank.ext_row {a b : Bank} (h : ∀ g, a.row g = b.row g) : a = b := by
  obtain ⟨a0, a1, a2, a3⟩ := a
  obtain ⟨b0, b1, b2, b3⟩ := b
  rw [Bank.mk.injEq]
  exact ⟨h 0, h 1, h 2, h 3⟩

theorem Bank.ext_get {a b : Bank} (h : ∀ g i, a.get g i = b.get g i) : a = b :=
  Bank.ext_row fun g => Lanes.ext_get (h g)

@[simp] theorem Lanes.get_zero (i : Fin 8) : Lanes.zero.get i = 0 := by fin_cases i <;> rfl

@[simp] theorem Bank.get_zero (g : Fin 4) (i : Fin 8) : Bank.zero.get g i = 0 := by
  fin_cases g <;> exact Lanes.get_zero i

@[simp] theorem vadd_get (a b : Lanes) (i : Fin 8) : (vadd a b).get i = a.get i + b.get i := by
  simp [vadd]

@[simp] theorem vmul_get (a b : Lanes) (i : Fin 8) : (vmul a b).get i = a.get i * b.get i := by
  simp [vmul]

@[simp] theorem vscale_get (a : Lanes) (s : Word) (i : Fin 8) : (vscale a s).get i = a.get i * s := by
  simp [vscale]

@[simp] theorem widen_get (bytes : List Byte) (i : Fin 8) :
    (widen bytes).get i = zext32 (bytes.getD i.val 0) := by
  simp [widen]

/-- Each lane of a folded block (R132). -/
theorem foldBlock_get (h x coeff : Bank) (carry : Word) (g : Fin 4) (i : Fin 8) :
    (foldBlock h x coeff carry).get g i = h.get g i * carry + x.get g i * coeff.get g i := by
  simp [foldBlock, Bank.get]

theorem accStart_get (g : Fin 4) (i : Fin 8) :
    accStart.get g i = if g.val = 0 ∧ i.val = 0 then 1 else 0 := by
  simp [accStart]

/-- The reduction is the sum of the lanes, so no order of adding them matters (R141). -/
theorem reduceAll_eq_sum (h : Bank) : reduceAll h = ∑ g : Fin 4, ∑ i : Fin 8, h.get g i := by
  simp only [Fin.sum_univ_four, Fin.sum_univ_eight, reduceAll, Bank.toList, Lanes.toList, Bank.get,
    Bank.row, Lanes.get, List.cons_append, List.nil_append, List.foldl_cons, List.foldl_nil]
  ring

end Sys2Proof.Machine
end

