-- ==== Sys2Proof/Laws/State.lean ====
section
/-! SUPPORT. For each named update of the state, what it leaves in each field. -/

namespace Sys2Proof.Machine

open Sys2Proof.Config

section raise

variable (code : ErrCode) (off : DWord) (w : Nat) (s : State)

@[simp] theorem raise_coeff : (raise code off w s).coeff = s.coeff := rfl
@[simp] theorem raise_carry : (raise code off w s).carry = s.carry := rfl
@[simp] theorem raise_ctValid : (raise code off w s).ctValid = s.ctValid := rfl
@[simp] theorem raise_h : (raise code off w s).h = s.h := rfl
@[simp] theorem raise_sh : (raise code off w s).sh = s.sh := rfl
@[simp] theorem raise_offset : (raise code off w s).offset = s.offset := rfl
@[simp] theorem raise_result : (raise code off w s).result = s.result := rfl
@[simp] theorem raise_kind : (raise code off w s).kind = s.kind := rfl
@[simp] theorem raise_base : (raise code off w s).base = s.base := rfl
@[simp] theorem raise_len : (raise code off w s).len = s.len := rfl
@[simp] theorem raise_woff : (raise code off w s).woff = s.woff := rfl
@[simp] theorem raise_arg : (raise code off w s).arg = s.arg := rfl
@[simp] theorem raise_rdata : (raise code off w s).rdata = s.rdata := rfl
@[simp] theorem raise_vbuf : (raise code off w s).vbuf = s.vbuf := rfl
@[simp] theorem raise_phase : (raise code off w s).phase = .fault := rfl
@[simp] theorem raise_hseq : (raise code off w s).hseq = .none := rfl
@[simp] theorem raise_done : (raise code off w s).done = s.done := rfl
@[simp] theorem raise_ovr : (raise code off w s).ovr = s.ovr := rfl
@[simp] theorem raise_errCode : (raise code off w s).errCode = code := rfl
@[simp] theorem raise_errOff : (raise code off w s).errOff = off := rfl
@[simp] theorem raise_errWidth : (raise code off w s).errWidth = BitVec.ofNat 32 w := rfl
@[simp] theorem raise_written : (raise code off w s).written = s.written := rfl
@[simp] theorem raise_mem : (raise code off w s).mem = s.mem := rfl
@[simp] theorem raise_host : (raise code off w s).host = s.host := rfl
@[simp] theorem raise_replies : (raise code off w s).replies = s.replies := rfl
@[simp] theorem raise_reads : (raise code off w s).reads = s.reads := rfl
@[simp] theorem raise_draws : (raise code off w s).draws = s.draws := rfl

end raise

section clearFault

variable (s : State)

@[simp] theorem clearFault_coeff : (clearFault s).coeff = s.coeff := rfl
@[simp] theorem clearFault_carry : (clearFault s).carry = s.carry := rfl
@[simp] theorem clearFault_ctValid : (clearFault s).ctValid = s.ctValid := rfl
@[simp] theorem clearFault_h : (clearFault s).h = s.h := rfl
@[simp] theorem clearFault_sh : (clearFault s).sh = s.sh := rfl
@[simp] theorem clearFault_offset : (clearFault s).offset = s.offset := rfl
@[simp] theorem clearFault_result : (clearFault s).result = s.result := rfl
@[simp] theorem clearFault_kind : (clearFault s).kind = s.kind := rfl
@[simp] theorem clearFault_base : (clearFault s).base = s.base := rfl
@[simp] theorem clearFault_len : (clearFault s).len = s.len := rfl
@[simp] theorem clearFault_woff : (clearFault s).woff = s.woff := rfl
@[simp] theorem clearFault_arg : (clearFault s).arg = s.arg := rfl
@[simp] theorem clearFault_rdata : (clearFault s).rdata = s.rdata := rfl
@[simp] theorem clearFault_vbuf : (clearFault s).vbuf = s.vbuf := rfl
@[simp] theorem clearFault_phase : (clearFault s).phase = .idle := rfl
@[simp] theorem clearFault_hseq : (clearFault s).hseq = s.hseq := rfl
@[simp] theorem clearFault_done : (clearFault s).done = s.done := rfl
@[simp] theorem clearFault_ovr : (clearFault s).ovr = false := rfl
@[simp] theorem clearFault_errCode : (clearFault s).errCode = .none := rfl
@[simp] theorem clearFault_errOff : (clearFault s).errOff = 0 := rfl
@[simp] theorem clearFault_errWidth : (clearFault s).errWidth = 0 := rfl
@[simp] theorem clearFault_written : (clearFault s).written = s.written := rfl
@[simp] theorem clearFault_mem : (clearFault s).mem = s.mem := rfl
@[simp] theorem clearFault_host : (clearFault s).host = s.host := rfl
@[simp] theorem clearFault_replies : (clearFault s).replies = s.replies := rfl
@[simp] theorem clearFault_reads : (clearFault s).reads = s.reads := rfl
@[simp] theorem clearFault_draws : (clearFault s).draws = s.draws := rfl

end clearFault

section dropWrite

variable (s : State)

@[simp] theorem dropWrite_coeff : (dropWrite s).coeff = s.coeff := rfl
@[simp] theorem dropWrite_carry : (dropWrite s).carry = s.carry := rfl
@[simp] theorem dropWrite_ctValid : (dropWrite s).ctValid = s.ctValid := rfl
@[simp] theorem dropWrite_h : (dropWrite s).h = s.h := rfl
@[simp] theorem dropWrite_sh : (dropWrite s).sh = s.sh := rfl
@[simp] theorem dropWrite_offset : (dropWrite s).offset = s.offset := rfl
@[simp] theorem dropWrite_result : (dropWrite s).result = s.result := rfl
@[simp] theorem dropWrite_kind : (dropWrite s).kind = s.kind := rfl
@[simp] theorem dropWrite_base : (dropWrite s).base = s.base := rfl
@[simp] theorem dropWrite_len : (dropWrite s).len = s.len := rfl
@[simp] theorem dropWrite_woff : (dropWrite s).woff = s.woff := rfl
@[simp] theorem dropWrite_arg : (dropWrite s).arg = s.arg := rfl
@[simp] theorem dropWrite_rdata : (dropWrite s).rdata = s.rdata := rfl
@[simp] theorem dropWrite_vbuf : (dropWrite s).vbuf = s.vbuf := rfl
@[simp] theorem dropWrite_phase : (dropWrite s).phase = s.phase := rfl
@[simp] theorem dropWrite_hseq : (dropWrite s).hseq = s.hseq := rfl
@[simp] theorem dropWrite_done : (dropWrite s).done = s.done := rfl
@[simp] theorem dropWrite_ovr : (dropWrite s).ovr = true := rfl
@[simp] theorem dropWrite_errCode : (dropWrite s).errCode = s.errCode := rfl
@[simp] theorem dropWrite_errOff : (dropWrite s).errOff = s.errOff := rfl
@[simp] theorem dropWrite_errWidth : (dropWrite s).errWidth = s.errWidth := rfl
@[simp] theorem dropWrite_written : (dropWrite s).written = s.written := rfl
@[simp] theorem dropWrite_mem : (dropWrite s).mem = s.mem := rfl
@[simp] theorem dropWrite_host : (dropWrite s).host = s.host := rfl
@[simp] theorem dropWrite_replies : (dropWrite s).replies = s.replies := rfl
@[simp] theorem dropWrite_reads : (dropWrite s).reads = s.reads := rfl
@[simp] theorem dropWrite_draws : (dropWrite s).draws = s.draws := rfl

end dropWrite

section request

variable (s : State) (a n : Nat)

@[simp] theorem request_coeff : (s.request a n).coeff = s.coeff := rfl
@[simp] theorem request_carry : (s.request a n).carry = s.carry := rfl
@[simp] theorem request_ctValid : (s.request a n).ctValid = s.ctValid := rfl
@[simp] theorem request_h : (s.request a n).h = s.h := rfl
@[simp] theorem request_sh : (s.request a n).sh = s.sh := rfl
@[simp] theorem request_offset : (s.request a n).offset = s.offset := rfl
@[simp] theorem request_result : (s.request a n).result = s.result := rfl
@[simp] theorem request_kind : (s.request a n).kind = s.kind := rfl
@[simp] theorem request_base : (s.request a n).base = s.base := rfl
@[simp] theorem request_len : (s.request a n).len = s.len := rfl
@[simp] theorem request_woff : (s.request a n).woff = s.woff := rfl
@[simp] theorem request_arg : (s.request a n).arg = s.arg := rfl
@[simp] theorem request_rdata : (s.request a n).rdata = s.rdata := rfl
@[simp] theorem request_vbuf : (s.request a n).vbuf = s.vbuf := rfl
@[simp] theorem request_phase : (s.request a n).phase = s.phase := rfl
@[simp] theorem request_hseq : (s.request a n).hseq = s.hseq := rfl
@[simp] theorem request_done : (s.request a n).done = s.done := rfl
@[simp] theorem request_ovr : (s.request a n).ovr = s.ovr := rfl
@[simp] theorem request_errCode : (s.request a n).errCode = s.errCode := rfl
@[simp] theorem request_errOff : (s.request a n).errOff = s.errOff := rfl
@[simp] theorem request_errWidth : (s.request a n).errWidth = s.errWidth := rfl
@[simp] theorem request_written : (s.request a n).written = s.written := rfl
@[simp] theorem request_mem : (s.request a n).mem = s.mem := rfl
@[simp] theorem request_host : (s.request a n).host = s.host := rfl
@[simp] theorem request_replies : (s.request a n).replies = s.replies := rfl
@[simp] theorem request_reads : (s.request a n).reads = ⟨a, n⟩ :: s.reads := rfl
@[simp] theorem request_draws : (s.request a n).draws = s.draws := rfl

end request

section nextDraw

variable (s : State)

@[simp] theorem nextDraw_coeff : (nextDraw s).coeff = s.coeff := rfl
@[simp] theorem nextDraw_carry : (nextDraw s).carry = s.carry := rfl
@[simp] theorem nextDraw_ctValid : (nextDraw s).ctValid = s.ctValid := rfl
@[simp] theorem nextDraw_h : (nextDraw s).h = s.h := rfl
@[simp] theorem nextDraw_sh : (nextDraw s).sh = s.sh := rfl
@[simp] theorem nextDraw_offset : (nextDraw s).offset = s.offset := rfl
@[simp] theorem nextDraw_result : (nextDraw s).result = s.result := rfl
@[simp] theorem nextDraw_kind : (nextDraw s).kind = s.kind := rfl
@[simp] theorem nextDraw_base : (nextDraw s).base = s.base := rfl
@[simp] theorem nextDraw_len : (nextDraw s).len = s.len := rfl
@[simp] theorem nextDraw_woff : (nextDraw s).woff = s.woff := rfl
@[simp] theorem nextDraw_arg : (nextDraw s).arg = s.arg := rfl
@[simp] theorem nextDraw_rdata : (nextDraw s).rdata = s.rdata := rfl
@[simp] theorem nextDraw_vbuf : (nextDraw s).vbuf = s.vbuf := rfl
@[simp] theorem nextDraw_phase : (nextDraw s).phase = s.phase := rfl
@[simp] theorem nextDraw_hseq : (nextDraw s).hseq = s.hseq := rfl
@[simp] theorem nextDraw_done : (nextDraw s).done = s.done := rfl
@[simp] theorem nextDraw_ovr : (nextDraw s).ovr = s.ovr := rfl
@[simp] theorem nextDraw_errCode : (nextDraw s).errCode = s.errCode := rfl
@[simp] theorem nextDraw_errOff : (nextDraw s).errOff = s.errOff := rfl
@[simp] theorem nextDraw_errWidth : (nextDraw s).errWidth = s.errWidth := rfl
@[simp] theorem nextDraw_written : (nextDraw s).written = s.written := rfl
@[simp] theorem nextDraw_mem : (nextDraw s).mem = s.mem := rfl
@[simp] theorem nextDraw_host : (nextDraw s).host = s.host := rfl
@[simp] theorem nextDraw_replies : (nextDraw s).replies = s.replies := rfl
@[simp] theorem nextDraw_reads : (nextDraw s).reads = s.reads := rfl
@[simp] theorem nextDraw_draws : (nextDraw s).draws = s.draws + 1 := rfl

end nextDraw

section cinitBody

variable (s : State)

@[simp] theorem cinitBody_coeff : (cinitBody s).coeff = coeffTable := rfl
@[simp] theorem cinitBody_carry : (cinitBody s).carry = carryCoeff := rfl
@[simp] theorem cinitBody_ctValid : (cinitBody s).ctValid = true := rfl
@[simp] theorem cinitBody_h : (cinitBody s).h = s.h := rfl
@[simp] theorem cinitBody_sh : (cinitBody s).sh = s.sh := rfl
@[simp] theorem cinitBody_offset : (cinitBody s).offset = s.offset := rfl
@[simp] theorem cinitBody_result : (cinitBody s).result = s.result := rfl
@[simp] theorem cinitBody_kind : (cinitBody s).kind = s.kind := rfl
@[simp] theorem cinitBody_base : (cinitBody s).base = s.base := rfl
@[simp] theorem cinitBody_len : (cinitBody s).len = s.len := rfl
@[simp] theorem cinitBody_woff : (cinitBody s).woff = s.woff := rfl
@[simp] theorem cinitBody_arg : (cinitBody s).arg = s.arg := rfl
@[simp] theorem cinitBody_rdata : (cinitBody s).rdata = s.rdata := rfl
@[simp] theorem cinitBody_vbuf : (cinitBody s).vbuf = s.vbuf := rfl
@[simp] theorem cinitBody_phase : (cinitBody s).phase = s.phase := rfl
@[simp] theorem cinitBody_hseq : (cinitBody s).hseq = s.hseq := rfl
@[simp] theorem cinitBody_done : (cinitBody s).done = s.done := rfl
@[simp] theorem cinitBody_ovr : (cinitBody s).ovr = s.ovr := rfl
@[simp] theorem cinitBody_errCode : (cinitBody s).errCode = s.errCode := rfl
@[simp] theorem cinitBody_errOff : (cinitBody s).errOff = s.errOff := rfl
@[simp] theorem cinitBody_errWidth : (cinitBody s).errWidth = s.errWidth := rfl
@[simp] theorem cinitBody_written : (cinitBody s).written = s.written := rfl
@[simp] theorem cinitBody_mem : (cinitBody s).mem = s.mem := rfl
@[simp] theorem cinitBody_host : (cinitBody s).host = s.host := rfl
@[simp] theorem cinitBody_replies : (cinitBody s).replies = s.replies := rfl
@[simp] theorem cinitBody_reads : (cinitBody s).reads = s.reads := rfl
@[simp] theorem cinitBody_draws : (cinitBody s).draws = s.draws := rfl

end cinitBody

section ainitBody

variable (s : State)

@[simp] theorem ainitBody_coeff : (ainitBody s).coeff = s.coeff := rfl
@[simp] theorem ainitBody_carry : (ainitBody s).carry = s.carry := rfl
@[simp] theorem ainitBody_ctValid : (ainitBody s).ctValid = s.ctValid := rfl
@[simp] theorem ainitBody_h : (ainitBody s).h = accStart := rfl
@[simp] theorem ainitBody_sh : (ainitBody s).sh = 0 := rfl
@[simp] theorem ainitBody_offset : (ainitBody s).offset = 0 := rfl
@[simp] theorem ainitBody_result : (ainitBody s).result = s.result := rfl
@[simp] theorem ainitBody_kind : (ainitBody s).kind = s.kind := rfl
@[simp] theorem ainitBody_base : (ainitBody s).base = s.base := rfl
@[simp] theorem ainitBody_len : (ainitBody s).len = s.len := rfl
@[simp] theorem ainitBody_woff : (ainitBody s).woff = s.woff := rfl
@[simp] theorem ainitBody_arg : (ainitBody s).arg = s.arg := rfl
@[simp] theorem ainitBody_rdata : (ainitBody s).rdata = s.rdata := rfl
@[simp] theorem ainitBody_vbuf : (ainitBody s).vbuf = s.vbuf := rfl
@[simp] theorem ainitBody_phase : (ainitBody s).phase = .acc := rfl
@[simp] theorem ainitBody_hseq : (ainitBody s).hseq = s.hseq := rfl
@[simp] theorem ainitBody_done : (ainitBody s).done = false := rfl
@[simp] theorem ainitBody_ovr : (ainitBody s).ovr = s.ovr := rfl
@[simp] theorem ainitBody_errCode : (ainitBody s).errCode = s.errCode := rfl
@[simp] theorem ainitBody_errOff : (ainitBody s).errOff = s.errOff := rfl
@[simp] theorem ainitBody_errWidth : (ainitBody s).errWidth = s.errWidth := rfl
@[simp] theorem ainitBody_written : (ainitBody s).written = { s.written with acc := true } := rfl
@[simp] theorem ainitBody_mem : (ainitBody s).mem = s.mem := rfl
@[simp] theorem ainitBody_host : (ainitBody s).host = s.host := rfl
@[simp] theorem ainitBody_replies : (ainitBody s).replies = s.replies := rfl
@[simp] theorem ainitBody_reads : (ainitBody s).reads = s.reads := rfl
@[simp] theorem ainitBody_draws : (ainitBody s).draws = s.draws := rfl

end ainitBody

section commitBlock

variable (r0 r1 r2 r3 : List Byte) (s : State)

@[simp] theorem commitBlock_coeff : (commitBlock r0 r1 r2 r3 s).coeff = s.coeff := rfl
@[simp] theorem commitBlock_carry : (commitBlock r0 r1 r2 r3 s).carry = s.carry := rfl
@[simp] theorem commitBlock_ctValid : (commitBlock r0 r1 r2 r3 s).ctValid = s.ctValid := rfl
@[simp] theorem commitBlock_h : (commitBlock r0 r1 r2 r3 s).h = foldBlock s.h ⟨widen r0, widen r1, widen r2, widen r3⟩ s.coeff s.carry := rfl
@[simp] theorem commitBlock_sh : (commitBlock r0 r1 r2 r3 s).sh = s.sh := rfl
@[simp] theorem commitBlock_offset : (commitBlock r0 r1 r2 r3 s).offset = s.offset + BitVec.ofNat 64 B := rfl
@[simp] theorem commitBlock_result : (commitBlock r0 r1 r2 r3 s).result = s.result := rfl
@[simp] theorem commitBlock_kind : (commitBlock r0 r1 r2 r3 s).kind = s.kind := rfl
@[simp] theorem commitBlock_base : (commitBlock r0 r1 r2 r3 s).base = s.base := rfl
@[simp] theorem commitBlock_len : (commitBlock r0 r1 r2 r3 s).len = s.len := rfl
@[simp] theorem commitBlock_woff : (commitBlock r0 r1 r2 r3 s).woff = s.woff := rfl
@[simp] theorem commitBlock_arg : (commitBlock r0 r1 r2 r3 s).arg = s.arg := rfl
@[simp] theorem commitBlock_rdata : (commitBlock r0 r1 r2 r3 s).rdata = s.rdata := rfl
@[simp] theorem commitBlock_vbuf : (commitBlock r0 r1 r2 r3 s).vbuf = s.vbuf := rfl
@[simp] theorem commitBlock_phase : (commitBlock r0 r1 r2 r3 s).phase = s.phase := rfl
@[simp] theorem commitBlock_hseq : (commitBlock r0 r1 r2 r3 s).hseq = s.hseq := rfl
@[simp] theorem commitBlock_done : (commitBlock r0 r1 r2 r3 s).done = s.done := rfl
@[simp] theorem commitBlock_ovr : (commitBlock r0 r1 r2 r3 s).ovr = s.ovr := rfl
@[simp] theorem commitBlock_errCode : (commitBlock r0 r1 r2 r3 s).errCode = s.errCode := rfl
@[simp] theorem commitBlock_errOff : (commitBlock r0 r1 r2 r3 s).errOff = s.errOff := rfl
@[simp] theorem commitBlock_errWidth : (commitBlock r0 r1 r2 r3 s).errWidth = s.errWidth := rfl
@[simp] theorem commitBlock_written : (commitBlock r0 r1 r2 r3 s).written = s.written := rfl
@[simp] theorem commitBlock_mem : (commitBlock r0 r1 r2 r3 s).mem = s.mem := rfl
@[simp] theorem commitBlock_host : (commitBlock r0 r1 r2 r3 s).host = s.host := rfl
@[simp] theorem commitBlock_replies : (commitBlock r0 r1 r2 r3 s).replies = s.replies := rfl
@[simp] theorem commitBlock_reads : (commitBlock r0 r1 r2 r3 s).reads = s.reads := rfl
@[simp] theorem commitBlock_draws : (commitBlock r0 r1 r2 r3 s).draws = s.draws := rfl

end commitBlock

section applyReset

variable (s : State)

@[simp] theorem applyReset_coeff : (applyReset s).coeff = State.reset.coeff := rfl
@[simp] theorem applyReset_carry : (applyReset s).carry = State.reset.carry := rfl
@[simp] theorem applyReset_ctValid : (applyReset s).ctValid = State.reset.ctValid := rfl
@[simp] theorem applyReset_h : (applyReset s).h = State.reset.h := rfl
@[simp] theorem applyReset_sh : (applyReset s).sh = State.reset.sh := rfl
@[simp] theorem applyReset_offset : (applyReset s).offset = State.reset.offset := rfl
@[simp] theorem applyReset_result : (applyReset s).result = State.reset.result := rfl
@[simp] theorem applyReset_kind : (applyReset s).kind = State.reset.kind := rfl
@[simp] theorem applyReset_base : (applyReset s).base = State.reset.base := rfl
@[simp] theorem applyReset_len : (applyReset s).len = State.reset.len := rfl
@[simp] theorem applyReset_woff : (applyReset s).woff = State.reset.woff := rfl
@[simp] theorem applyReset_arg : (applyReset s).arg = State.reset.arg := rfl
@[simp] theorem applyReset_rdata : (applyReset s).rdata = State.reset.rdata := rfl
@[simp] theorem applyReset_vbuf : (applyReset s).vbuf = State.reset.vbuf := rfl
@[simp] theorem applyReset_phase : (applyReset s).phase = State.reset.phase := rfl
@[simp] theorem applyReset_hseq : (applyReset s).hseq = State.reset.hseq := rfl
@[simp] theorem applyReset_done : (applyReset s).done = State.reset.done := rfl
@[simp] theorem applyReset_ovr : (applyReset s).ovr = State.reset.ovr := rfl
@[simp] theorem applyReset_errCode : (applyReset s).errCode = State.reset.errCode := rfl
@[simp] theorem applyReset_errOff : (applyReset s).errOff = State.reset.errOff := rfl
@[simp] theorem applyReset_errWidth : (applyReset s).errWidth = State.reset.errWidth := rfl
@[simp] theorem applyReset_written : (applyReset s).written = State.reset.written := rfl
@[simp] theorem applyReset_mem : (applyReset s).mem = s.mem := rfl
@[simp] theorem applyReset_host : (applyReset s).host = s.host := rfl
@[simp] theorem applyReset_replies : (applyReset s).replies = s.replies := rfl
@[simp] theorem applyReset_reads : (applyReset s).reads = s.reads := rfl
@[simp] theorem applyReset_draws : (applyReset s).draws = s.draws := rfl

end applyReset

end Sys2Proof.Machine
end

