-- ==== Sys2Proof/Laws/Ops.lean ====
section
/-! SUPPORT. For each shared operation, once, everything it can do: source addresses, MemRead, the adapter reads, the block, acceptance. -/

namespace Sys2Proof.Machine

open Sys2Proof.Config

/-! Addresses and bytes -/

theorem srcAddr_add (s : State) (off k : Nat) : srcAddr s (off + k) = srcAddr s off + k := by
  unfold srcAddr
  split <;> omega

theorem srcAddr_congr {s t : State} (hk : t.kind = s.kind) (hb : t.base = s.base)
    (hw : t.woff = s.woff) (off : Nat) : srcAddr t off = srcAddr s off := by
  simp only [srcAddr, hk, hb, hw]

@[simp] theorem srcAddr_request (s : State) (a n off : Nat) :
    srcAddr (s.request a n) off = srcAddr s off := rfl

@[simp] theorem byteSeen_request (s : State) (a n a' : Nat) :
    byteSeen (s.request a n) a' = byteSeen s a' := rfl

/-- Where no other agent writes, a read sees what memory holds (R63, R72). -/
theorem byteSeen_stable {s : State} (h : s.mem.storing = []) (a : Nat) :
    byteSeen s a = s.mem.byteAt a := by
  simp [byteSeen, h]

@[simp] theorem bytesSeen_length (s : State) (a n : Nat) : (bytesSeen s a n).length = n := by
  simp [bytesSeen]

theorem bytesSeen_getD {s : State} {a n k : Nat} (h : k < n) :
    (bytesSeen s a n).getD k 0 = byteSeen s (a + k) := by
  simp [bytesSeen, h]

/-! MemRead (R63) -/

/-- MemRead: the answer, and the one request it issues. -/
theorem memRead_eq (a n : Nat) (s : State) :
    memRead a n s =
      (if refusedRead s a n then none else some (bytesSeen s a n),
        { s with reads := requestFor a n ++ s.reads }) := by
  unfold memRead refusedRead requestFor
  by_cases h1 : memTop < a + n
  · simp [h1]
  · by_cases h2 : s.mem.admits a n = true <;> simp [h1, h2, State.request]

theorem memRead_refused {a n : Nat} {s : State} (h : refusedRead s a n) :
    memRead a n s = (none, { s with reads := requestFor a n ++ s.reads }) := by
  rw [memRead_eq, if_pos h]

theorem memRead_admitted {a n : Nat} {s : State} (h : ¬refusedRead s a n) :
    memRead a n s = (some (bytesSeen s a n), s.request a n) := by
  rw [memRead_eq, if_neg h]
  simp only [requestFor, State.request]
  rw [if_neg fun h' => h (Or.inl h')]
  rfl

/-! The adapter reads (R114, R115) -/

theorem srcRead_kind {off : DWord} {w : Nat} {s : State} (h : s.kind = .reserved) :
    srcRead off w s = .raised (raise .kind 0 0 s) := by
  simp [srcRead, h]

theorem srcRead_range {off : DWord} {w : Nat} {s : State} (h : s.kind ≠ .reserved)
    (hr : srcLength s < off.toNat + w) : srcRead off w s = .raised (raise .range off w s) := by
  simp [srcRead, h, hr]

theorem srcRead_refused {off : DWord} {w : Nat} {s : State} (h : s.kind ≠ .reserved)
    (hr : off.toNat + w ≤ srcLength s) (hb : refusedRead s (srcAddr s off.toNat) w) :
    srcRead off w s =
      .raised (raise .bus off w { s with reads := requestFor (srcAddr s off.toNat) w ++ s.reads }) := by
  simp only [srcRead, h, if_false, Nat.not_lt.mpr hr, memRead_refused hb]

theorem srcRead_got {off : DWord} {w : Nat} {s : State} (h : s.kind ≠ .reserved)
    (hr : off.toNat + w ≤ srcLength s) (hb : ¬refusedRead s (srcAddr s off.toNat) w) :
    srcRead off w s =
      .got (bytesSeen s (srcAddr s off.toNat) w) (s.request (srcAddr s off.toNat) w) := by
  simp only [srcRead, h, if_false, Nat.not_lt.mpr hr, memRead_admitted hb]

/-- Everything an adapter read can do. -/
theorem srcRead_cases (off : DWord) (w : Nat) (s : State) :
    (s.kind = .reserved ∧ srcRead off w s = .raised (raise .kind 0 0 s)) ∨
    (s.kind ≠ .reserved ∧ srcLength s < off.toNat + w ∧
      srcRead off w s = .raised (raise .range off w s)) ∨
    (s.kind ≠ .reserved ∧ off.toNat + w ≤ srcLength s ∧ refusedRead s (srcAddr s off.toNat) w ∧
      srcRead off w s =
        .raised (raise .bus off w
          { s with reads := requestFor (srcAddr s off.toNat) w ++ s.reads })) ∨
    (s.kind ≠ .reserved ∧ off.toNat + w ≤ srcLength s ∧ ¬refusedRead s (srcAddr s off.toNat) w ∧
      srcRead off w s =
        .got (bytesSeen s (srcAddr s off.toNat) w) (s.request (srcAddr s off.toNat) w)) := by
  by_cases hk : s.kind = .reserved
  · exact .inl ⟨hk, srcRead_kind hk⟩
  by_cases hr : srcLength s < off.toNat + w
  · exact .inr (.inl ⟨hk, hr, srcRead_range hk hr⟩)
  have hr' : off.toNat + w ≤ srcLength s := by omega
  by_cases hb : refusedRead s (srcAddr s off.toNat) w
  · exact .inr (.inr (.inl ⟨hk, hr', hb, srcRead_refused hk hr' hb⟩))
  · exact .inr (.inr (.inr ⟨hk, hr', hb, srcRead_got hk hr' hb⟩))

/-! The block (R132) -/

/-- The bytes of sub-block g as BLK sees them, widened lane by lane (R133). -/
theorem widen_subBlock (s : State) (g : Nat) (i : Fin 8) :
    (widen (bytesSeen s (subBlockAddr s g) L)).get i
      = zext32 (byteSeen s (srcAddr s (s.offset.toNat + g * L + i.val))) := by
  rw [widen_get, bytesSeen_getD i.isLt, subBlockAddr, srcAddr_add s _ i.val]

/-- What a block of admitted reads leaves. -/
def foldedBlock (s : State) : State :=
  { s with
    h := Bank.ofFn fun g i =>
      s.h.get g i * s.carry
        + zext32 (byteSeen s (srcAddr s (s.offset.toNat + g.val * L + i.val))) * s.coeff.get g i
    offset := s.offset + BitVec.ofNat 64 B
    reads := blockRequests s 4 ++ s.reads }

/-- What a block whose sub-block g is the first refused one leaves. -/
def refusedBlock (s : State) (g : Nat) : State :=
  raise .bus (s.offset + BitVec.ofNat 64 (g * L)) L
    { s with reads := requestFor (subBlockAddr s g) L ++ (blockRequests s g ++ s.reads) }

theorem readSubBlock_admitted {s : State} {g : Nat} (h : ¬refusedRead s (subBlockAddr s g) L) :
    readSubBlock g s = (some (bytesSeen s (subBlockAddr s g) L), s.request (subBlockAddr s g) L) :=
  memRead_admitted h

theorem readSubBlock_refused {s : State} {g : Nat} (h : refusedRead s (subBlockAddr s g) L) :
    readSubBlock g s =
      (none, { s with reads := requestFor (subBlockAddr s g) L ++ s.reads }) :=
  memRead_refused h

@[simp] theorem subBlockAddr_request (s : State) (a n g : Nat) :
    subBlockAddr (s.request a n) g = subBlockAddr s g := rfl

@[simp] theorem bytesSeen_request (s : State) (a n a' n' : Nat) :
    bytesSeen (s.request a n) a' n' = bytesSeen s a' n' := rfl

theorem readAndFoldBlock_admitted {s : State}
    (h : ∀ g : Fin 4, ¬refusedRead s (subBlockAddr s g.val) L) :
    readAndFoldBlock s = foldedBlock s := by
  unfold readAndFoldBlock
  rw [readSubBlock_admitted (g := 0) (h 0)]
  simp only
  rw [readSubBlock_admitted (g := 1) (s := s.request _ _) (h 1)]
  simp only
  rw [readSubBlock_admitted (g := 2) (s := (s.request _ _).request _ _) (h 2)]
  simp only
  rw [readSubBlock_admitted (g := 3) (s := ((s.request _ _).request _ _).request _ _) (h 3)]
  simp only [commitBlock, foldedBlock, bytesSeen_request, subBlockAddr_request]
  simp only [State.request]
  congr 1
  apply Bank.ext_get
  intro g i
  rw [foldBlock_get, Bank.get_ofFn]
  congr 2
  fin_cases g
  · exact widen_subBlock s 0 i
  · exact widen_subBlock s 1 i
  · exact widen_subBlock s 2 i
  · exact widen_subBlock s 3 i

theorem readAndFoldBlock_refused {s : State} {g : Fin 4}
    (hg : refusedRead s (subBlockAddr s g.val) L)
    (hl : ∀ g' : Fin 4, g' < g → ¬refusedRead s (subBlockAddr s g'.val) L) :
    readAndFoldBlock s = refusedBlock s g.val := by
  unfold readAndFoldBlock
  match g, hg, hl with
  | 0, hg, _ =>
    rw [readSubBlock_refused (g := 0) hg]
    rfl
  | 1, hg, hl =>
    rw [readSubBlock_admitted (g := 0) (hl 0 (by decide))]
    simp only
    rw [readSubBlock_refused (g := 1) (s := s.request _ _) hg]
    rfl
  | 2, hg, hl =>
    rw [readSubBlock_admitted (g := 0) (hl 0 (by decide))]
    simp only
    rw [readSubBlock_admitted (g := 1) (s := s.request _ _) (hl 1 (by decide))]
    simp only
    rw [readSubBlock_refused (g := 2) (s := (s.request _ _).request _ _) hg]
    rfl
  | 3, hg, hl =>
    rw [readSubBlock_admitted (g := 0) (hl 0 (by decide))]
    simp only
    rw [readSubBlock_admitted (g := 1) (s := s.request _ _) (hl 1 (by decide))]
    simp only
    rw [readSubBlock_admitted (g := 2) (s := (s.request _ _).request _ _) (hl 2 (by decide))]
    simp only
    rw [readSubBlock_refused (g := 3) (s := ((s.request _ _).request _ _).request _ _) hg]
    rfl

/-- Among refused sub-blocks there is a first. -/
theorem first_refused {s : State} (h : ¬∀ g : Fin 4, ¬refusedRead s (subBlockAddr s g.val) L) :
    ∃ g : Fin 4, refusedRead s (subBlockAddr s g.val) L ∧
      ∀ g' : Fin 4, g' < g → ¬refusedRead s (subBlockAddr s g'.val) L := by
  obtain ⟨g, hg⟩ := not_forall.mp h
  obtain ⟨m, hm, hmin⟩ := wellFounded_lt.has_min
    {g : Fin 4 | refusedRead s (subBlockAddr s g.val) L} ⟨g, not_not.mp hg⟩
  exact ⟨m, hm, fun g' hg' hr => hmin g' hr hg'⟩

/-- With its four tests passed, BLK reads (R132). -/
theorem blkBody_ready {s : State} (hp : s.phase = .acc) (hc : s.ctValid = true)
    (hk : s.kind ≠ .reserved) (hr : s.offset.toNat + B ≤ srcLength s) :
    blkBody s = readAndFoldBlock s := by
  have hr' : ¬srcLength s < s.offset.toNat + B := by omega
  simp only [blkBody, hp, hc, hk, hr']
  simp

/-- Everything the BLK body can do, its tests in their order (R132, R175). -/
theorem blkBody_cases (s : State) :
    (s.phase ≠ .acc ∧ blkBody s = raise .seq 0 0 s) ∨
    (s.phase = .acc ∧ s.ctValid = false ∧ blkBody s = raise .noTable 0 0 s) ∨
    (s.phase = .acc ∧ s.ctValid = true ∧ s.kind = .reserved ∧ blkBody s = raise .kind 0 0 s) ∨
    (s.phase = .acc ∧ s.ctValid = true ∧ s.kind ≠ .reserved ∧ srcLength s < s.offset.toNat + B ∧
      blkBody s = raise .range s.offset B s) ∨
    (s.phase = .acc ∧ s.ctValid = true ∧ s.kind ≠ .reserved ∧ s.offset.toNat + B ≤ srcLength s ∧
      ∃ g : Fin 4, refusedRead s (subBlockAddr s g.val) L ∧
        (∀ g' : Fin 4, g' < g → ¬refusedRead s (subBlockAddr s g'.val) L) ∧
        blkBody s = refusedBlock s g.val) ∨
    (s.phase = .acc ∧ s.ctValid = true ∧ s.kind ≠ .reserved ∧ s.offset.toNat + B ≤ srcLength s ∧
      (∀ g : Fin 4, ¬refusedRead s (subBlockAddr s g.val) L) ∧ blkBody s = foldedBlock s) := by
  by_cases hp : s.phase = .acc
  swap
  · exact .inl ⟨hp, by simp [blkBody, hp]⟩
  by_cases hc : s.ctValid = false
  · exact .inr (.inl ⟨hp, hc, by simp [blkBody, hp, hc]⟩)
  have hc' : s.ctValid = true := by simpa using hc
  by_cases hk : s.kind = .reserved
  · exact .inr (.inr (.inl ⟨hp, hc', hk, by simp [blkBody, hp, hc', hk]⟩))
  by_cases hr : srcLength s < s.offset.toNat + B
  · exact .inr (.inr (.inr (.inl ⟨hp, hc', hk, hr, by simp [blkBody, hp, hc', hk, hr]⟩)))
  have hr' : s.offset.toNat + B ≤ srcLength s := by omega
  have hb := blkBody_ready hp hc' hk hr'
  by_cases ha : ∀ g : Fin 4, ¬refusedRead s (subBlockAddr s g.val) L
  · exact .inr (.inr (.inr (.inr (.inr
      ⟨hp, hc', hk, hr', ha, hb.trans (readAndFoldBlock_admitted ha)⟩))))
  · obtain ⟨g, hg, hl⟩ := first_refused ha
    exact .inr (.inr (.inr (.inr (.inl
      ⟨hp, hc', hk, hr', g, hg, hl, hb.trans (readAndFoldBlock_refused hg hl)⟩))))

/-! The other bodies -/

/-- Everything the TAIL body can do (R142). -/
theorem tailBody_cases (s : State) :
    (s.phase ≠ .scalar ∧ tailBody s = raise .seq 0 0 s) ∨
    (s.phase = .scalar ∧ s.kind = .reserved ∧ tailBody s = raise .kind 0 0 s) ∨
    (s.phase = .scalar ∧ s.kind ≠ .reserved ∧ srcLength s ≤ s.offset.toNat ∧
      tailBody s = raise .range s.offset 1 s) ∨
    (s.phase = .scalar ∧ s.kind ≠ .reserved ∧ s.offset.toNat < srcLength s ∧
      refusedRead s (srcAddr s s.offset.toNat) 1 ∧
      tailBody s = raise .bus s.offset 1
        { s with reads := requestFor (srcAddr s s.offset.toNat) 1 ++ s.reads }) ∨
    (s.phase = .scalar ∧ s.kind ≠ .reserved ∧ s.offset.toNat < srcLength s ∧
      ¬refusedRead s (srcAddr s s.offset.toNat) 1 ∧
      tailBody s =
        { s with
          sh := foldByte s.sh (byteSeen s (srcAddr s s.offset.toNat))
          offset := s.offset + 1
          reads := ⟨srcAddr s s.offset.toNat, 1⟩ :: s.reads }) := by
  by_cases hp : s.phase = .scalar
  swap
  · exact .inl ⟨hp, by simp [tailBody, hp]⟩
  refine .inr ?_
  rcases srcRead_cases s.offset 1 s with ⟨hk, e⟩ | ⟨hk, hr, e⟩ | ⟨hk, hr, hb, e⟩ | ⟨hk, hr, hb, e⟩
  · exact .inl ⟨hp, hk, by simp [tailBody, hp, srcReadByte, e]⟩
  · exact .inr (.inl ⟨hp, hk, by omega, by simp [tailBody, hp, srcReadByte, e]⟩)
  · exact .inr (.inr (.inl ⟨hp, hk, by omega, hb, by simp [tailBody, hp, srcReadByte, e]⟩))
  · refine .inr (.inr (.inr ⟨hp, hk, by omega, hb, ?_⟩))
    simp only [tailBody, hp, srcReadByte, e, bytesSeen_getD (show 0 < 1 by omega), State.request,
      Nat.add_zero, ne_eq, not_true_eq_false, if_false]

/-- Everything the RDBYTE body can do (R119). -/
theorem rdbyteBody_cases (s : State) :
    (s.kind = .reserved ∧ rdbyteBody s = raise .kind 0 0 s) ∨
    (s.kind ≠ .reserved ∧ srcLength s ≤ s.arg.toNat ∧ rdbyteBody s = raise .range s.arg 1 s) ∨
    (s.kind ≠ .reserved ∧ s.arg.toNat < srcLength s ∧ refusedRead s (srcAddr s s.arg.toNat) 1 ∧
      rdbyteBody s = raise .bus s.arg 1
        { s with reads := requestFor (srcAddr s s.arg.toNat) 1 ++ s.reads }) ∨
    (s.kind ≠ .reserved ∧ s.arg.toNat < srcLength s ∧ ¬refusedRead s (srcAddr s s.arg.toNat) 1 ∧
      rdbyteBody s =
        { s with
          rdata := zext32 (byteSeen s (srcAddr s s.arg.toNat))
          written := { s.written with rdata := true }
          reads := ⟨srcAddr s s.arg.toNat, 1⟩ :: s.reads }) := by
  rcases srcRead_cases s.arg 1 s with ⟨hk, e⟩ | ⟨hk, hr, e⟩ | ⟨hk, hr, hb, e⟩ | ⟨hk, hr, hb, e⟩
  · exact .inl ⟨hk, by simp [rdbyteBody, srcReadByte, e]⟩
  · exact .inr (.inl ⟨hk, by omega, by simp [rdbyteBody, srcReadByte, e]⟩)
  · exact .inr (.inr (.inl ⟨hk, by omega, hb, by simp [rdbyteBody, srcReadByte, e]⟩))
  · refine .inr (.inr (.inr ⟨hk, by omega, hb, ?_⟩))
    simp only [rdbyteBody, srcReadByte, e, bytesSeen_getD (show 0 < 1 by omega)]
    rfl

/-- Everything the RDBLK body can do once WSEL selects a width (R120). -/
theorem rdblkBody_cases {wsel w : Nat} (hw : selectedWidth wsel = some w) (s : State) :
    (s.kind = .reserved ∧ rdblkBody wsel s = raise .kind 0 0 s) ∨
    (s.kind ≠ .reserved ∧ srcLength s < s.arg.toNat + w ∧
      rdblkBody wsel s = raise .range s.arg w s) ∨
    (s.kind ≠ .reserved ∧ s.arg.toNat + w ≤ srcLength s ∧
      refusedRead s (srcAddr s s.arg.toNat) w ∧
      rdblkBody wsel s = raise .bus s.arg w
        { s with reads := requestFor (srcAddr s s.arg.toNat) w ++ s.reads }) ∨
    (s.kind ≠ .reserved ∧ s.arg.toNat + w ≤ srcLength s ∧
      ¬refusedRead s (srcAddr s s.arg.toNat) w ∧
      rdblkBody wsel s =
        { s with
          vbuf := Bank.ofFn fun g i =>
            if g.val * L + i.val < w then
              zext32 (byteSeen s (srcAddr s (s.arg.toNat + (g.val * L + i.val))))
            else s.vbuf.get g i
          written := { s.written with vbufLanes := max s.written.vbufLanes w }
          reads := ⟨srcAddr s s.arg.toNat, w⟩ :: s.reads }) := by
  rcases srcRead_cases s.arg w s with ⟨hk, e⟩ | ⟨hk, hr, e⟩ | ⟨hk, hr, hb, e⟩ | ⟨hk, hr, hb, e⟩
  · exact .inl ⟨hk, by simp [rdblkBody, hw, srcReadBlock, e]⟩
  · exact .inr (.inl ⟨hk, hr, by simp [rdblkBody, hw, srcReadBlock, e]⟩)
  · exact .inr (.inr (.inl ⟨hk, hr, hb, by simp [rdblkBody, hw, srcReadBlock, e]⟩))
  · refine .inr (.inr (.inr ⟨hk, hr, hb, ?_⟩))
    simp only [rdblkBody, hw, srcReadBlock, e, State.request, vbufWith]
    congr 1
    apply Bank.ext_get
    intro g i
    simp only [Bank.get_ofFn]
    split
    · rename_i h
      rw [bytesSeen_getD h, srcAddr_add]
    · rfl

/-! STATUS (R30) -/

/-- STATUS is made of six fields of the state and nothing else. -/
theorem statusWord_congr {s t : State} (hq : s.hseq = t.hseq) (hp : s.phase = t.phase)
    (he : s.errCode = t.errCode) (ho : s.ovr = t.ovr) (hc : s.ctValid = t.ctValid)
    (hd : s.done = t.done) : statusWord s = statusWord t := by
  simp only [statusWord, State.busy, State.err, hq, hp, he, ho, hc, hd]

/-! Acceptance (R39) -/

theorem present_busy {inFault : Bool} {body : State → State} {s : State} (h : s.busy = true) :
    present inFault body s = dropWrite s := by
  simp [present, h]

theorem present_fault {body : State → State} {s : State} (hb : s.busy = false)
    (h : s.phase = .fault) : present false body s = dropWrite s := by
  simp [present, hb, h]

theorem present_fault_accepted {body : State → State} {s : State} (hb : s.busy = false) :
    present true body s = body s := by
  simp [present, hb]

theorem present_accepting {inFault : Bool} {body : State → State} {s : State} (h : Accepting s) :
    present inFault body s = body s := by
  simp [present, h.1, h.2]

end Sys2Proof.Machine
end

