-- ==== Sys2Proof/Laws/Exec.lean ====
section
/-! SUPPORT. Every meaning is one body behind the acceptance rule; a step by what comes next from outside. -/

namespace Sys2Proof.Machine

open Sys2Proof.Config

/-- The body of each command: what it does once accepted. -/
def bodyOf : Instr → State → State
  | .nop => fun s => s
  | .cinit => cinitBody
  | .ainit => ainitBody
  | .blk => blkBody
  | .red => redBody
  | .tail => tailBody
  | .fin => finBody
  | .hash => hashBody
  | .rdbyte => rdbyteBody
  | .rdblk wsel => rdblkBody wsel
  | .clr => clearFault

/-- FAULT accepts NOP and CLR (R39). -/
def freeInFault : Instr → Bool
  | .nop => true
  | .clr => true
  | .cinit | .ainit | .blk | .red | .tail | .fin | .hash | .rdbyte | .rdblk _ => false

/-- Every command: its body behind the acceptance rule (R39). -/
theorem exec_eq (i : Instr) (s : State) :
    exec i s = .next (present (freeInFault i) (bodyOf i) s) := by
  cases i <;> rfl

theorem exec_accepting (i : Instr) {s : State} (h : Accepting s) :
    exec i s = .next (bodyOf i s) := by
  rw [exec_eq, present_accepting h]

theorem exec_next_iff {i : Instr} {s t : State} :
    exec i s = .next t ↔ present (freeInFault i) (bodyOf i) s = t := by
  rw [exec_eq, Host.Outcome.next.injEq]

/-- Everything a presented command can do. -/
theorem exec_cases {i : Instr} {s t : State} (h : exec i s = .next t) :
    t = dropWrite s ∨ (Accepting s ∧ t = bodyOf i s) ∨
      (s.busy = false ∧ s.phase = .fault ∧ i = .nop ∧ t = s) ∨
      (s.busy = false ∧ s.phase = .fault ∧ i = .clr ∧ t = clearFault s) := by
  rw [exec_next_iff] at h
  subst h
  by_cases hb : s.busy = true
  · exact .inl (present_busy hb)
  have hb' : s.busy = false := by simpa using hb
  by_cases hp : s.phase = .fault
  · cases i
    case nop => exact .inr (.inr (.inl ⟨hb', hp, rfl, present_fault_accepted hb'⟩))
    case clr => exact .inr (.inr (.inr ⟨hb', hp, rfl, present_fault_accepted hb'⟩))
    all_goals exact .inl (present_fault hb' hp)
  · exact .inr (.inl ⟨⟨hb', hp⟩, present_accepting ⟨hb', hp⟩⟩)

theorem step_nil {s : State} (h : s.host = []) : step s = vphaTurn s := by
  simp [step, h]

theorem step_cons {s : State} {a : HostAction} {rest : List HostAction} (h : s.host = a :: rest) :
    step s = outsideTurn a { s with host := rest } := by
  simp [step, h]

/-- The host presents a word to CMD. -/
theorem regWrite_cmd (w : Word) (s : State) : regWrite cmdOffset 32 w s = presentWord w s := rfl

theorem presentWord_ok {w : Word} {i : Instr} (h : decode w = .ok i) (s : State) :
    presentWord w s = exec i s := by
  simp [presentWord, h]

theorem presentWord_illegal {w : Word} {r : Illegal} (h : decode w = .error r) (s : State) :
    presentWord w s = .next (present false (raise .illegal 0 0) s) := by
  simp [presentWord, h]

end Sys2Proof.Machine
end

