-- ==== Sys2Proof/Laws/Memory.lean ====
section
/-! SUPPORT. The platform memory: a store is read back, leaves every other byte alone, and keeps the canonical form. -/

namespace Sys2Proof.Machine

open Sys2Proof.Config

theorem cellAt_below {cells : List Host.Cell} {lo a : Nat} (h : cellsFrom lo cells = true)
    (ha : a < lo) : cellAt cells a = unlistedByte := by
  induction cells generalizing lo with
  | nil => rfl
  | cons c cells ih =>
    obtain ⟨x, v⟩ := c
    simp only [cellsFrom, Bool.and_eq_true, decide_eq_true_eq] at h
    have hx : x ≠ a := by omega
    simp only [cellAt, hx, if_false]
    exact ih h.2 (by omega)

theorem cellAt_writeCell_self {cells : List Host.Cell} {lo : Nat} (h : cellsFrom lo cells = true)
    (a : Nat) (b : Byte) : cellAt (writeCell cells a b) a = b := by
  induction cells generalizing lo with
  | nil =>
    by_cases hb : b = unlistedByte <;> simp [writeCell, cellAt, hb]
  | cons c cells ih =>
    obtain ⟨x, v⟩ := c
    simp only [cellsFrom, Bool.and_eq_true, decide_eq_true_eq] at h
    by_cases h1 : a < x
    · have hx : x ≠ a := by omega
      by_cases hb : b = unlistedByte
      · simp [writeCell, cellAt, h1, hb, hx, cellAt_below h.2 (show a < x + 1 by omega)]
      · simp [writeCell, cellAt, h1, hb]
    · by_cases h2 : a = x
      · subst h2
        by_cases hb : b = unlistedByte
        · simp [writeCell, hb, cellAt_below h.2 (show a < a + 1 by omega)]
        · simp [writeCell, cellAt, hb]
      · have hx : x ≠ a := fun e => h2 e.symm
        simp [writeCell, cellAt, h1, h2, hx, ih h.2]

theorem cellAt_writeCell_other (cells : List Host.Cell) {a a' : Nat} (b : Byte) (ha : a' ≠ a) :
    cellAt (writeCell cells a b) a' = cellAt cells a' := by
  have ha2 : a ≠ a' := fun e => ha e.symm
  induction cells with
  | nil => by_cases hb : b = unlistedByte <;> simp [writeCell, cellAt, hb, ha2]
  | cons c cells ih =>
    obtain ⟨x, v⟩ := c
    by_cases h1 : a < x
    · by_cases hb : b = unlistedByte <;> simp [writeCell, cellAt, h1, hb, ha2]
    · by_cases h2 : a = x
      · subst h2
        by_cases hb : b = unlistedByte <;> simp [writeCell, cellAt, hb, ha2]
      · simp only [writeCell, h1, h2, if_false, cellAt, ih]

theorem cellsFrom_mono {cells : List Host.Cell} {lo lo' : Nat} (h : cellsFrom lo cells = true)
    (hl : lo' ≤ lo) : cellsFrom lo' cells = true := by
  cases cells with
  | nil => rfl
  | cons c cells =>
    obtain ⟨x, v⟩ := c
    simp only [cellsFrom, Bool.and_eq_true, decide_eq_true_eq] at h ⊢
    exact ⟨⟨⟨by omega, h.1.1.2⟩, h.1.2⟩, h.2⟩

theorem cellsFrom_writeCell {cells : List Host.Cell} {lo a : Nat} (h : cellsFrom lo cells = true)
    (hl : lo ≤ a) (ht : a < memTop) (b : Byte) : cellsFrom lo (writeCell cells a b) = true := by
  induction cells generalizing lo with
  | nil => by_cases hb : b = unlistedByte <;> simp [writeCell, cellsFrom, hb, hl, ht]
  | cons c cells ih =>
    obtain ⟨x, v⟩ := c
    have h' := h
    simp only [cellsFrom, Bool.and_eq_true, decide_eq_true_eq] at h
    by_cases h1 : a < x
    · by_cases hb : b = unlistedByte
      · simpa [writeCell, h1, hb] using h'
      · simp only [writeCell, h1, hb, if_true, if_false, cellsFrom, Bool.and_eq_true, decide_eq_true_eq]
        exact ⟨⟨⟨hl, ht⟩, hb⟩, ⟨⟨by omega, h.1.1.2⟩, h.1.2⟩, h.2⟩
    · by_cases h2 : a = x
      · subst h2
        by_cases hb : b = unlistedByte
        · simpa [writeCell, hb] using cellsFrom_mono h.2 (by omega)
        · simp only [writeCell, lt_irrefl, hb, if_true, if_false, cellsFrom, Bool.and_eq_true,
            decide_eq_true_eq]
          exact ⟨⟨⟨hl, ht⟩, hb⟩, h.2⟩
      · simp only [writeCell, h1, h2, if_false, cellsFrom, Bool.and_eq_true, decide_eq_true_eq]
        exact ⟨h.1, ih h.2 (by omega)⟩

/-- The memory after reset is in canonical form. -/
theorem blank_wf : Memory.blank.wf = true := rfl

/-- The start of a store keeps the canonical form. -/
theorem beginStore_wf {m : Memory} (h : m.wf = true) (a : Nat) : (m.beginStore a).wf = true := by
  simp only [Memory.wf, Memory.beginStore, Bool.and_eq_true, decide_eq_true_eq] at h ⊢
  refine ⟨h.1, decide_eq_true ?_⟩
  split
  · exact h.2
  · exact List.nodup_cons.mpr ⟨‹_›, h.2⟩

/-- A completed store keeps the canonical form. -/
theorem completeStore_wf {m : Memory} (h : m.wf = true) {a : Nat} (ha : a < memTop) (b : Byte) :
    (m.completeStore a b).wf = true := by
  simp only [Memory.wf, Memory.completeStore, Bool.and_eq_true, decide_eq_true_eq] at h ⊢
  exact ⟨cellsFrom_writeCell h.1 (Nat.zero_le _) ha b,
    decide_eq_true (h.2.filter _)⟩

/-- A stored byte is read back. -/
theorem byteAt_completeStore_self {m : Memory} (h : m.wf = true) (a : Nat) (b : Byte) :
    (m.completeStore a b).byteAt a = b := by
  simp only [Memory.wf, Bool.and_eq_true] at h
  exact cellAt_writeCell_self h.1 a b

/-- A store leaves every other byte alone. -/
theorem byteAt_completeStore_other (m : Memory) {a a' : Nat} (b : Byte) (ha : a' ≠ a) :
    (m.completeStore a b).byteAt a' = m.byteAt a' :=
  cellAt_writeCell_other m.cells b ha

@[simp] theorem admits_beginStore (m : Memory) (a a' n : Nat) :
    (m.beginStore a).admits a' n = m.admits a' n := rfl

@[simp] theorem admits_completeStore (m : Memory) (a a' n : Nat) (b : Byte) :
    (m.completeStore a b).admits a' n = m.admits a' n := rfl

@[simp] theorem byteAt_beginStore (m : Memory) (a a' : Nat) :
    (m.beginStore a).byteAt a' = m.byteAt a' := rfl

end Sys2Proof.Machine
end

