-- ==== Sys2Proof/Laws/PerInstr.lean ====
section
/-! SUPPORT. For each command, the fields of the word that encodes it (R81, R83). -/

namespace Sys2Proof.Laws.EncodedFields

/-- The word of a command carries its opcode, its WSEL, and zeros in RSV. -/
def Statement (i : Instr) : Prop :=
  opcField (encode i) = opcode i ∧ wselField (encode i) = widthSelect i ∧ rsvField (encode i) = 0

theorem nop : Statement .nop := ⟨by decide, by decide, by decide⟩

theorem cinit : Statement .cinit := ⟨by decide, by decide, by decide⟩

theorem ainit : Statement .ainit := ⟨by decide, by decide, by decide⟩

theorem blk : Statement .blk := ⟨by decide, by decide, by decide⟩

theorem red : Statement .red := ⟨by decide, by decide, by decide⟩

theorem tail : Statement .tail := ⟨by decide, by decide, by decide⟩

theorem fin : Statement .fin := ⟨by decide, by decide, by decide⟩

theorem hash : Statement .hash := ⟨by decide, by decide, by decide⟩

theorem rdbyte : Statement .rdbyte := ⟨by decide, by decide, by decide⟩

theorem rdblk (wsel : Nat) : Statement (.rdblk wsel) := by
  simp only [Statement, encode, widthSelect, opcode]
  generalize BitVec.ofNat 2 wsel = v
  revert v
  decide

theorem clr : Statement .clr := ⟨by decide, by decide, by decide⟩

end Sys2Proof.Laws.EncodedFields
end

