-- ==== Sys2Proof/Laws/Reference.lean ====
section
/-! SUPPORT. The reference hash of a growing prefix, byte by byte and block by block, and the block fold against it (R16, R136). -/

namespace Sys2Proof.Machine

open Sys2Proof.Config

/-- The reference hash of the first `n` bytes of `b`. -/
def prefixHash (b : Nat → Byte) (n : Nat) : Word := scalarHash ((List.range n).map b)

theorem prefixHash_succ (b : Nat → Byte) (n : Nat) :
    prefixHash b (n + 1) = 31 * prefixHash b n + zext32 (b n) := by
  unfold prefixHash scalarHash
  rw [List.range_succ, List.map_append, List.foldl_append]
  rfl

/-- Hashing `m` bytes more multiplies by 31^m and adds the bytes, each with its power. -/
theorem prefixHash_add (b : Nat → Byte) (n m : Nat) :
    prefixHash b (n + m) = prefixHash b n * powerOf31 m
      + ∑ k ∈ Finset.range m, zext32 (b (n + k)) * powerOf31 (m - 1 - k) := by
  induction m with
  | zero => simp [powerOf31]
  | succ m ih =>
    have shift : ∑ k ∈ Finset.range m, 31 * (zext32 (b (n + k)) * powerOf31 (m - 1 - k))
        = ∑ k ∈ Finset.range m, zext32 (b (n + k)) * powerOf31 (m + 1 - 1 - k) := by
      apply Finset.sum_congr rfl
      intro k hk
      have hk := Finset.mem_range.mp hk
      rw [show m + 1 - 1 - k = m - 1 - k + 1 by omega, powerOf31]
      ring
    rw [← Nat.add_assoc, prefixHash_succ, ih, Finset.sum_range_succ, powerOf31, mul_add,
      Finset.mul_sum, shift, show m + 1 - 1 - m = 0 by omega, powerOf31]
    ring

/-- Row by row, then lane by lane, is byte by byte (R133). -/
theorem sum_rows (f : Nat → Word) :
    ∑ g : Fin 4, ∑ i : Fin 8, f (g.val * 8 + i.val) = ∑ k ∈ Finset.range 32, f k := by
  rw [Finset.sum_range (n := 32),
    ← Equiv.sum_comp (finProdFinEquiv (m := 4) (n := 8)) (fun k : Fin 32 => f k.val),
    Fintype.sum_prod_type]
  apply Finset.sum_congr rfl
  intro g _
  apply Finset.sum_congr rfl
  intro i _
  congr 1
  simp only [finProdFinEquiv_apply_val]
  omega

/-- Each table entry is the power the reference hash gives its byte (R100). -/
theorem coeffTable_get (g : Fin 4) (i : Fin 8) :
    coeffTable.get g i = powerOf31 (31 - (g.val * 8 + i.val)) := by
  rw [powerOf31_eq]
  revert g i
  decide

theorem carryCoeff_eq : carryCoeff = powerOf31 32 := by decide

/-- A block folded into accumulators that sum to the hash of a prefix leaves ones that sum to the hash of the prefix and the
block. -/
theorem reduceAll_block (b : Nat → Byte) (n : Nat) (h : Bank) (hh : reduceAll h = prefixHash b n) :
    reduceAll (Bank.ofFn fun g i =>
      h.get g i * carryCoeff + zext32 (b (n + g.val * 8 + i.val)) * coeffTable.get g i)
      = prefixHash b (n + 32) := by
  rw [prefixHash_add, ← hh, reduceAll_eq_sum, reduceAll_eq_sum]
  simp only [Bank.get_ofFn, coeffTable_get, carryCoeff_eq, Finset.sum_add_distrib, ← Finset.sum_mul]
  rw [← sum_rows fun k => zext32 (b (n + k)) * powerOf31 (32 - 1 - k)]
  simp only [Nat.add_assoc]

end Sys2Proof.Machine
end

