-- ==== Sys2Proof/Laws/Step.lean ====
section
/-! SUPPORT. Inversion: everything a register write, a micro-step and a step can do. -/

namespace Sys2Proof.Machine

open Sys2Proof.Config

/-- Only the descriptor and ARG differ. -/
def DescriptorOnly (s t : State) : Prop :=
  ∃ k b l w a, t = { s with kind := k, base := b, len := l, woff := w, arg := a }

theorem descriptorWrite_cases {update : State → State} {s : State}
    (hu : DescriptorOnly s (update s)) :
    (s.busy = true ∧ descriptorWrite update s = dropWrite s) ∨
      (s.busy = false ∧ DescriptorOnly s (descriptorWrite update s)) := by
  by_cases hb : s.busy = true
  · exact .inl ⟨hb, by simp [descriptorWrite, hb]⟩
  · have hb' : s.busy = false := by simpa using hb
    exact .inr ⟨hb', by simpa [descriptorWrite, hb'] using hu⟩

/-- Everything a register write can do. -/
theorem regWrite_cases {ra : BitVec 12} {bits : Nat} {d : Word} {s t : State}
    (h : regWrite ra bits d s = .next t) :
    t = s ∨ (s.busy = true ∧ t = dropWrite s) ∨ (s.busy = false ∧ DescriptorOnly s t) ∨
      (∃ i, decode d = .ok i ∧ exec i s = .next t) ∨
      (s.busy = false ∧ s.phase = .fault ∧ t = dropWrite s) ∨
      (Accepting s ∧ t = raise .illegal 0 0 s) := by
  have descr : ∀ {u : State → State}, DescriptorOnly s (u s) →
      Host.Outcome.next (descriptorWrite u s) = Host.Outcome.next (φ := Fault) (ρ := Refusal) t →
      (s.busy = true ∧ t = dropWrite s) ∨ (s.busy = false ∧ DescriptorOnly s t) := by
    intro u hu e
    rw [Host.Outcome.next.injEq] at e
    subst e
    exact descriptorWrite_cases hu
  have lift : (s.busy = true ∧ t = dropWrite s) ∨ (s.busy = false ∧ DescriptorOnly s t) →
      t = s ∨ (s.busy = true ∧ t = dropWrite s) ∨ (s.busy = false ∧ DescriptorOnly s t) ∨
        (∃ i, decode d = .ok i ∧ exec i s = .next t) ∨
        (s.busy = false ∧ s.phase = .fault ∧ t = dropWrite s) ∨
        (Accepting s ∧ t = raise .illegal 0 0 s) :=
    fun e => e.elim (fun e => .inr (.inl e)) fun e => .inr (.inr (.inl e))
  unfold regWrite at h
  split at h
  swap
  · exact .inl (by simpa using h.symm)
  split at h
  · exact .inl (by simpa using h.symm)
  rename_i r _
  cases r
  case cmd =>
    cases hd : decode d with
    | ok i => exact .inr (.inr (.inr (.inl ⟨i, rfl, (presentWord_ok hd s).symm.trans h⟩)))
    | error e =>
      have h := (presentWord_illegal hd s).symm.trans h
      rw [Host.Outcome.next.injEq] at h
      subst h
      by_cases hb : s.busy = true
      · exact .inr (.inl ⟨hb, present_busy hb⟩)
      · have hb' : s.busy = false := by simpa using hb
        by_cases hp : s.phase = .fault
        · exact .inr (.inr (.inr (.inr (.inl ⟨hb', hp, present_fault hb' hp⟩))))
        · exact .inr (.inr (.inr (.inr (.inr ⟨⟨hb', hp⟩, present_accepting ⟨hb', hp⟩⟩))))
  case srcKind => exact lift (descr ⟨_, _, _, _, _, rfl⟩ h)
  case srcBaseLo => exact lift (descr ⟨_, _, _, _, _, rfl⟩ h)
  case srcBaseHi => exact lift (descr ⟨_, _, _, _, _, rfl⟩ h)
  case srcLenLo => exact lift (descr ⟨_, _, _, _, _, rfl⟩ h)
  case srcLenHi => exact lift (descr ⟨_, _, _, _, _, rfl⟩ h)
  case srcWoffLo => exact lift (descr ⟨_, _, _, _, _, rfl⟩ h)
  case srcWoffHi => exact lift (descr ⟨_, _, _, _, _, rfl⟩ h)
  case argLo => exact lift (descr ⟨_, _, _, _, _, rfl⟩ h)
  case argHi => exact lift (descr ⟨_, _, _, _, _, rfl⟩ h)
  all_goals exact .inl (by simpa [writeReg] using h.symm)

/-- Everything a micro-step can do (R151). -/
theorem microStep_cases {s : State} (hb : s.busy = true) :
    (s.hseq = .init ∧ s.ctValid = false ∧ microStep s = cinitBody s) ∨
    (s.hseq = .init ∧ s.ctValid = true ∧ microStep s = { ainitBody s with hseq := .bloop }) ∨
    (s.hseq = .bloop ∧ s.offset.toNat + B ≤ srcLength s ∧ microStep s = blkBody s) ∨
    (s.hseq = .bloop ∧ srcLength s < s.offset.toNat + B ∧ s.phase = .acc ∧
      microStep s = { s with sh := reduceAll s.h, phase := .scalar, hseq := .tloop }) ∨
    (s.hseq = .bloop ∧ srcLength s < s.offset.toNat + B ∧ s.phase ≠ .acc ∧
      microStep s = raise .seq 0 0 s) ∨
    (s.hseq = .tloop ∧ s.offset.toNat < srcLength s ∧ microStep s = tailBody s) ∨
    (s.hseq = .tloop ∧ srcLength s ≤ s.offset.toNat ∧ s.phase = .scalar ∧
      microStep s = { s with
        result := s.sh, done := true, phase := .idle, hseq := .none,
        written := { s.written with result := true } }) ∨
    (s.hseq = .tloop ∧ srcLength s ≤ s.offset.toNat ∧ s.phase ≠ .scalar ∧
      microStep s = raise .seq 0 0 s) := by
  cases hq : s.hseq
  · simp [State.busy, hq] at hb
  · by_cases hc : s.ctValid = true
    · exact .inr (.inl ⟨rfl, hc, by simp [microStep, hq, hc, thenGoTo]⟩)
    · exact .inl ⟨rfl, by simpa using hc, by simp [microStep, hq, hc]⟩
  · by_cases ho : s.offset.toNat + B ≤ srcLength s
    · exact .inr (.inr (.inl ⟨rfl, ho, by simp only [microStep, hq, ho, if_true]⟩))
    · by_cases hp : s.phase = .acc
      · exact .inr (.inr (.inr (.inl ⟨rfl, by omega, hp, by
          simp [microStep, hq, ho, redBody, hp, thenGoTo]⟩)))
      · exact .inr (.inr (.inr (.inr (.inl ⟨rfl, by omega, hp, by
          simp [microStep, hq, ho, redBody, hp, thenGoTo]⟩))))
  · by_cases ho : s.offset.toNat < srcLength s
    · exact .inr (.inr (.inr (.inr (.inr (.inl ⟨rfl, ho, by
        simp only [microStep, hq, ho, if_true]⟩)))))
    · by_cases hp : s.phase = .scalar
      · exact .inr (.inr (.inr (.inr (.inr (.inr (.inl ⟨rfl, by omega, hp, by
          simp [microStep, hq, ho, finBody, hp, thenGoTo]⟩))))))
      · exact .inr (.inr (.inr (.inr (.inr (.inr (.inr ⟨rfl, by omega, hp, by
          simp [microStep, hq, ho, finBody, hp, thenGoTo]⟩))))))

/-- Everything VPHA's turn can do. -/
theorem vphaTurn_cases {s t : State} (h : vphaTurn s = .next t) :
    (s.busy = false ∧ t = s) ∨ (s.busy = true ∧ t = nextDraw (microStep s)) := by
  by_cases hb : s.busy = true
  · exact .inr ⟨hb, by simpa [vphaTurn, hb] using h.symm⟩
  · exact .inl ⟨by simpa using hb, by simpa [vphaTurn, hb] using h.symm⟩

theorem mapNext_eq_next {f : State → State} {o : Host.Outcome State Fault Refusal} {t : State}
    (h : mapNext f o = .next t) : ∃ u, o = .next u ∧ t = f u := by
  cases o with
  | next u => exact ⟨u, rfl, by simpa [mapNext] using h.symm⟩
  | fault r => cases h
  | refused r => cases h

/-- Everything a step can do, by whose turn it is. -/
theorem step_cases {s t : State} (h : step s = .next t) :
    (s.host = [] ∧ vphaTurn s = .next t) ∨
    ∃ a rest, s.host = a :: rest ∧
      match a with
      | .regWrite ra bits d =>
        ∃ u, regWrite ra bits d { s with host := rest } = .next u ∧ t = nextDraw u
      | .regRead ra bits =>
        t = nextDraw { s with host := rest, replies := regRead ra bits s :: s.replies }
      | .rst => t = nextDraw (applyReset { s with host := rest })
      | .storeBegin addr =>
        t = nextDraw { s with host := rest, mem := s.mem.beginStore addr.toNat }
      | .store addr b =>
        t = nextDraw { s with host := rest, mem := s.mem.completeStore addr.toNat b }
      | .pause => vphaTurn { s with host := rest } = .next t := by
  cases hh : s.host with
  | nil => exact .inl ⟨rfl, by rwa [step_nil hh] at h⟩
  | cons a rest =>
    refine .inr ⟨a, rest, rfl, ?_⟩
    rw [step_cons hh] at h
    cases a with
    | regWrite ra bits d => exact mapNext_eq_next h
    | pause => exact h
    | regRead ra bits => exact (Host.Outcome.next.inj h).symm
    | rst => exact (Host.Outcome.next.inj h).symm
    | storeBegin addr => exact (Host.Outcome.next.inj h).symm
    | store addr b => exact (Host.Outcome.next.inj h).symm

/-! Runs -/

theorem run_zero (s : State) : Host.Core.run Sys2Proof.core 0 s = .next s := rfl

/-- A run of one step more. -/
theorem run_succ (k : Nat) {s t : State} (h : step s = .next t) :
    Host.Core.run Sys2Proof.core (k + 1) s = Host.Core.run Sys2Proof.core k t := by
  have h' : Sys2Proof.core.step s = .next t := h
  exact (Host.Core.run.eq_2 Sys2Proof.core s k).trans (by rw [h'])

/-- A run is never stopped, and its first step has a next state. -/
theorem run_succ_cases {k : Nat} {s t : State}
    (h : Host.Core.run Sys2Proof.core (k + 1) s = .next t) :
    ∃ u, step s = .next u ∧ Host.Core.run Sys2Proof.core k u = .next t := by
  have h' := (Host.Core.run.eq_2 Sys2Proof.core s k).symm.trans h
  cases hs : step s with
  | next u =>
    have hs' : Sys2Proof.core.step s = .next u := hs
    rw [hs'] at h'
    exact ⟨u, rfl, h'⟩
  | fault r => cases r
  | refused r =>
    have hs' : Sys2Proof.core.step s = .refused r := hs
    rw [hs'] at h'
    cases h'

end Sys2Proof.Machine
end

