-- ==== Sys2Proof/Tests/Slice0.lean ====
section
/-! SUPPORT. The model's own tests: decoding of words written out by hand, one-step tests against the spec's vectors, and a witness for the hypotheses of each statement. -/

namespace Sys2Proof.Tests

open Sys2Proof Sys2Proof.Machine Sys2Proof.Config

/-! ## Decoding: words written out from the fields of R81, opcodes from R83 -/

/-- WSEL has two bits: a fourth width code fits, a fifth is no term that can be encoded (R81). -/
theorem test_wellFormed_refuses_wide_wsel :
    (Instr.rdblk 4).wellFormed = false ∧ (Instr.rdblk 3).wellFormed = true := by decide

theorem test_decode_nop : decode 0b00000000000000000000000000000000#32 = .ok .nop := by rfl
theorem test_decode_cinit : decode 0b00000000000000000000000000000001#32 = .ok .cinit := by rfl
theorem test_decode_ainit : decode 0b00000000000000000000000000000010#32 = .ok .ainit := by rfl
theorem test_decode_blk : decode 0b00000000000000000000000000000011#32 = .ok .blk := by rfl
theorem test_decode_red : decode 0b00000000000000000000000000000100#32 = .ok .red := by rfl
theorem test_decode_tail : decode 0b00000000000000000000000000000101#32 = .ok .tail := by rfl
theorem test_decode_fin : decode 0b00000000000000000000000000000110#32 = .ok .fin := by rfl
theorem test_decode_hash : decode 0b00000000000000000000000000000111#32 = .ok .hash := by rfl
theorem test_decode_rdbyte : decode 0b00000000000000000000000000001000#32 = .ok .rdbyte := by rfl
theorem test_decode_rdblk8 : decode 0b00000000000000000000000000001001#32 = .ok (.rdblk 0) := by rfl
theorem test_decode_rdblk32 : decode 0b00000000000000000000000100001001#32 = .ok (.rdblk 1) := by rfl
theorem test_decode_rdblk_width2 : decode 0b00000000000000000000001000001001#32 = .ok (.rdblk 2) := by rfl
theorem test_decode_rdblk_width3 : decode 0b00000000000000000000001100001001#32 = .ok (.rdblk 3) := by rfl
theorem test_decode_clr : decode 0b00000000000000000000000000001010#32 = .ok .clr := by rfl

/-- The lowest and the highest bit of RSV make a word ILLEGAL, on RDBLK's opcode too (R85). -/
theorem test_decode_refuses_reserved_bits :
    decode 0b00000000000000000000010000000000#32 = .error .reservedBits ∧
    decode 0b10000000000000000000000000001001#32 = .error .reservedBits := by decide

/-- WSEL ≠ 0 beside RDBLK's two neighbours in the opcode map (R85). -/
theorem test_decode_refuses_width_select :
    decode 0b00000000000000000000000100001000#32 = .error .widthSelect ∧
    decode 0b00000000000000000000001000001010#32 = .error .widthSelect := by decide

/-- The first and the last reserved opcode (R86). -/
theorem test_decode_refuses_reserved_opcodes :
    decode 0b00000000000000000000000000001011#32 = .error .reservedOpcode ∧
    decode 0b00000000000000000000000011111111#32 = .error .reservedOpcode := by decide

/-- The interface the host asks: R93's words for CLR and RDBLK.32, and one bit too many. -/
theorem test_decodeTableWord :
    decodeTableWord 32 0x0A = some .clr ∧ decodeTableWord 32 0x109 = some (.rdblk 1) ∧
    decodeTableWord 32 0x10A = none := by decide

/-! ## Small states -/

/-- Reset, with the bytes 61 62 63 at 0x1000 and the descriptor of an owned source of `len` bytes there. -/
def idle (len : Nat) : State :=
  { State.reset with
    base := 0x1000
    len := BitVec.ofNat 64 len
    mem := ⟨[(0x1000, 0x61), (0x1001, 0x62), (0x1002, 0x63)], [], []⟩ }

/-- A state between step commands of a hash over a source of `len` bytes, `off` of which are consumed. -/
def between (phase : Phase) (len off : Nat) : State :=
  { idle len with
    phase := phase
    offset := BitVec.ofNat 64 off
    ctValid := true
    coeff := coeffTable
    carry := carryCoeff
    written := ⟨true, false, false, 0⟩ }

/-- A state in FAULT with a record of E_RANGE, as R159's example leaves it. -/
def faulted : State := { between .fault 3 3 with errCode := .range, errOff := 3, errWidth := 1 }

/-- A HASH over the three bytes, accepted after CINIT, before its first micro-step. -/
def accepted : State := { between .idle 3 0 with hseq := .init }

/-- The same HASH in its tail loop, one byte consumed: SH = 128 (V-F5d). -/
def inTail : State := { between .scalar 3 1 with hseq := .tloop, sh := 128 }

/-- A memory with nothing listed that refuses the reads of `width` bytes from `first` on. -/
def refusing (first width : Nat) : Memory := ⟨[], [⟨first, 2 ^ 64, width⟩], []⟩

/-- What a step or a command left, seen through a test of its next state. -/
def leaves (o : Host.Outcome State Fault Refusal) (p : State → Bool) : Bool :=
  match o with
  | .next t => p t
  | .fault _ => false
  | .refused _ => false

/-! ## One step each, against values of the spec -/

/-- V-C1: STATUS = 8, COEFF_0_0 = 31^31, COEFF_1_0 = 31^23, CARRY. -/
theorem test_cinit :
    leaves (exec .cinit State.reset) (fun t =>
      statusWord t == 0x00000008 && regRead 0x180 32 t == 0x88303FDF &&
      regRead 0x1A0 32 t == 0xFC018EDF && regRead 0x058 32 t == 0x7DD7BC01) = true := by decide

/-- V-K1: lane 0 of H[0] is 1, its neighbour and the last lane 0, PHASE = ACC. -/
theorem test_ainit :
    leaves (exec .ainit State.reset) (fun t =>
      statusWord t == 0x00010000 && regRead 0x100 32 t == 1 && regRead 0x104 32 t == 0 &&
      regRead 0x17C 32 t == 0) = true := by decide

/-- V-K5: one BLK over the bytes 00 01 … 1F; four lanes of the table, OFFSET and the reads. -/
theorem test_blk_iota :
    leaves (exec .blk { between .acc 32 0 with
        h := accStart,
        mem := ⟨(List.range 31).map fun k => (0x1001 + k, BitVec.ofNat 8 (k + 1)), [], []⟩ })
      (fun t =>
        regRead 0x100 32 t == 0x7DD7BC01 && regRead 0x108 32 t == 0x0159573E &&
        regRead 0x140 32 t == 0x191DDDF0 && regRead 0x17C 32 t == 0x0000001F &&
        t.offset == 32 &&
        t.reads == [⟨0x1018, 8⟩, ⟨0x1010, 8⟩, ⟨0x1008, 8⟩, ⟨0x1000, 8⟩]) = true := by decide

/-- V-K10: the third sub-block is refused: E_BUS (6, 16, 8), no lane written, no fourth read. -/
theorem test_blk_refused :
    leaves (exec .blk { between .acc 32 0 with h := accStart, mem := refusing 0x1009 8 }) (fun t =>
      statusWord t == 0x0003060C && t.errOff == 16 && t.errWidth == 8 && t.h == accStart &&
      t.offset == 0 && t.reads.length == 3) = true := by decide

/-- V-T1: RED right after AINIT gives SH = 1 in PHASE SCALAR. -/
theorem test_red :
    leaves (exec .red { idle 0 with phase := .acc, h := accStart, written := ⟨true, false, false, 0⟩ })
      (fun t => statusWord t == 0x00020000 && regRead 0x03C 32 t == 1) = true := by decide

/-- V-T5: SH = 1 and byte 0x61 give 0x80. -/
theorem test_tail :
    leaves (exec .tail { between .scalar 3 0 with sh := 1 })
      (fun t => t.sh == 0x80 && t.offset == 1 && t.phase == .scalar) = true := by decide

/-- V-T6: SH = 0xFFFFFFFF and byte 0xFF give 0xE0: the byte is unsigned and the product wraps. -/
theorem test_tail_wraps :
    leaves (exec .tail { between .scalar 1 0 with sh := 0xFFFFFFFF, mem := ⟨[(0x1000, 0xFF)], [], []⟩ })
      (fun t => t.sh == 0xE0) = true := by decide

/-- V-T9: FIN with bytes left returns the prefix's hash and does not fault. -/
theorem test_fin :
    leaves (exec .fin { between .scalar 3 1 with sh := 0x80, ctValid := false })
      (fun t => statusWord t == 0x00000002 && regRead 0x038 32 t == 0x80) = true := by decide

/-- V-F5b: the acceptance step alone. -/
theorem test_hash_accepted :
    leaves (exec .hash (idle 3)) (fun t => statusWord t == 0x00100001) = true := by decide

/-- V-F5d: the first TAIL micro-step's successor: byte 0x62 after SH = 0x80 gives 0xFE2, still in TLOOP. -/
theorem test_hash_micro_step :
    leaves (step inTail) (fun t => t.sh == 0xFE2 && statusWord t == 0x00320009) = true := by decide

/-- V-B2: byte 0xFF enters as 255. -/
theorem test_rdbyte_zero_extends :
    leaves (exec .rdbyte { idle 1 with mem := ⟨[(0x1000, 0xFF)], [], []⟩ })
      (fun t => regRead 0x054 32 t == 0x000000FF && t.reads == [⟨0x1000, 1⟩]) = true := by decide

/-- V-B13: a window's bytes stand at SRC_BASE + SRC_WOFF, and SRC_WOFF stays. -/
theorem test_rdbyte_window :
    leaves (exec .rdbyte { idle 4 with
        kind := .win, base := 0x3000, woff := 0x10, arg := 1, mem := ⟨[(0x3011, 0xB1)], [], []⟩ })
      (fun t => t.rdata == 0xB1 && t.woff == 0x10) = true := by decide

/-- The shape of V-B8 over the three listed bytes: lane 0 holds the lowest address, 8 lanes hold values, lane 8 none. -/
theorem test_rdblk8 :
    leaves (exec (.rdblk 0) (idle 8)) (fun t =>
      regRead 0x200 32 t == 0x61 && regRead 0x208 32 t == 0x63 && regRead 0x21C 32 t == 0 &&
      t.written.vbufLanes == 8 && t.reads == [⟨0x1000, 8⟩]) = true := by decide

/-- V-B15: a range past 2^64 − 1 is E_BUS and no request goes out. -/
theorem test_rdblk_top_of_memory :
    leaves (exec (.rdblk 0) { idle 8 with base := 0xFFFFFFFFFFFFFFFC }) (fun t =>
      statusWord t == 0x00030604 && t.errOff == 0 && t.errWidth == 8 && t.reads == []) = true := by
  decide

/-- R159's example: STATUS 0x0003010C before, 8 after. -/
theorem test_clr :
    statusWord faulted = 0x0003010C ∧
    leaves (exec .clr faulted) (fun t => statusWord t == 0x00000008 && t.errOff == 0) = true := by
  decide

/-- R158's example: NOP in FAULT leaves STATUS as it is. -/
theorem test_nop_in_fault :
    leaves (exec .nop faulted) (fun t => statusWord t == 0x0003010C) = true := by decide

/-- V-F5c: a write to SRC_LEN_LO while BUSY is dropped and sets OVR. -/
theorem test_dropped_descriptor_write :
    leaves (regWrite 0x020 32 1 { idle 3 with hseq := .init }) (fun t =>
      statusWord t == 0x00100011 && t.len == 3) = true := by decide

/-- R46, R45: the two constants. -/
theorem test_constants :
    regRead 0x000 32 State.reset = 0x56504841 ∧ regRead 0x004 32 State.reset = 0x20200408 := by
  decide

/-! ## Witnesses: states and operands that meet the hypotheses of each statement, at the boundaries of its clauses -/

theorem witness_DecodeOfEncodeIsTheCommand :
    ∀ i ∈ ([.nop, .cinit, .ainit, .blk, .red, .tail, .fin, .hash, .rdbyte, .rdblk 0, .rdblk 1, .rdblk 2,
      .rdblk 3, .clr] : List Instr), i.wellFormed = true := by decide

theorem witness_EncodeOfDecodeIsTheWord : decode 0x00000309 = .ok (.rdblk 3) := by rfl

/-- Each of the three causes, at its lowest and highest value. -/
theorem witness_IllegalWordRaisesWhenAccepted :
    Accepting State.reset ∧
    rsvField 0x00000400 ≠ 0 ∧ rsvField 0x80000009 ≠ 0 ∧
    (wselField 0x00000100 ≠ 0 ∧ opcField 0x00000100 ≠ 0x09) ∧
    (wselField 0x0000030A ≠ 0 ∧ opcField 0x0000030A ≠ 0x09) ∧
    0x0A < (opcField 0x0000000B).toNat ∧ 0x0A < (opcField 0x000000FF).toNat := by decide

theorem witness_StepRunsThePresentedCommand :
    ({ idle 3 with host := [cmdWrite .clr] }).host = .regWrite cmdOffset 32 0x0000000A :: [] ∧
    decode 0x0000000A = .ok .clr ∧ Instr.clr.wellFormed = true ∧
    ({ idle 3 with host := [.regWrite 0x020 32 5] }).host = .regWrite 0x020 32 5 :: [] := by decide

theorem witness_TurnOfTheBlock :
    ((idle 3).host = [] ∧ (idle 3).busy = false) ∧ (accepted.host = [] ∧ accepted.busy = true) ∧
    ({ idle 3 with host := [.pause] }).host = .pause :: [] ∧
    ({ accepted with host := [.pause] }).busy = true := by decide

/-- BUSY, FAULT (a NOP, a CLR, a HASH and an ILLEGAL word), and an accepting state (a command and an ILLEGAL word). -/
theorem witness_CommandWordAcceptance :
    accepted.busy = true ∧ (faulted.busy = false ∧ faulted.phase = .fault) ∧
    decode 0x00000000 = .ok .nop ∧ decode 0x0000000A = .ok .clr ∧
    (decode 0x00000007 ≠ .ok .nop ∧ decode 0x00000007 ≠ .ok .clr) ∧
    (decode 0x0000000B ≠ .ok .nop ∧ decode 0x0000000B ≠ .ok .clr) ∧
    Accepting (idle 3) ∧ decode 0x00000007 = .ok .hash ∧ decode 0x0000000B = .error .reservedOpcode := by
  decide

theorem witness_DescriptorWritesAreGuarded :
    accepted.busy = true ∧ (idle 3).busy = false ∧ faulted.busy = false := by decide

theorem witness_ReadOnlyWritesAreIgnored :
    Reg.id.writable = false ∧ Reg.status.writable = false ∧ (Reg.vbuf 31).writable = false := by decide

theorem witness_PartialAccessesHaveNoEffect :
    ((8 : Nat) ≠ 32 ∨ (0x008 : BitVec 12).toNat % 4 ≠ 0) ∧
    ((32 : Nat) ≠ 32 ∨ (0x009 : BitVec 12).toNat % 4 ≠ 0) ∧
    ((32 : Nat) ≠ 32 ∨ (0xFFF : BitVec 12).toNat % 4 ≠ 0) := by decide

/-- The ends of the three reserved ranges, and two words that differ in reserved bits of SRC_KIND. -/
theorem witness_ReservedSpaceReadsZero :
    (∀ ra ∈ ([0x014, 0x05C, 0x0FC, 0x280, 0xFFC] : List (BitVec 12)),
      ra.toNat = 0x014 ∨ (0x05C ≤ ra.toNat ∧ ra.toNat ≤ 0x0FC) ∨ 0x280 ≤ ra.toNat) ∧
    (0xFFFFFFFE : Word).extractLsb' 0 2 = (0x00000002 : Word).extractLsb' 0 2 := by decide

theorem witness_RegisterMapIsOneToOne :
    (0x27C % 4 = 0 ∧ regAt 0x27C = some (.vbuf 31)) ∧ (0x17C % 4 = 0 ∧ regAt 0x17C = some (.acc 3 7)) := by
  decide

/-- A state in which every register holds a value, and a host read of it. -/
def allHeld : State :=
  { between .idle 3 3 with written := ⟨true, true, true, 32⟩, host := [.regRead 0x27C 32] }

theorem witness_HostReadsReturnTheRegisters :
    allHeld.written.result = true ∧ allHeld.written.acc = true ∧ allHeld.written.rdata = true ∧
    allHeld.ctValid = true ∧ 8 * (3 : Fin 4).val + (7 : Fin 8).val < allHeld.written.vbufLanes ∧
    allHeld.host = .regRead 0x27C 32 :: [] := by decide

/-- A register of each kind that holds no value after reset, VBUF's first lane without one after RDBLK.8, and a read. -/
theorem witness_UnheldRegistersReadAsDraws :
    (∀ r ∈ ([.result, .sh, .rdata, .carry, .acc 3 7, .coeff 0 0, .vbuf 0] : List Reg),
      holdsValue State.reset r = false) ∧
    holdsValue { idle 8 with written := ⟨false, false, false, 8⟩ } (.vbuf 8) = false ∧
    ∃ t, step { State.reset with host := [.regRead 0x038 32] } = .next t := ⟨by decide, by decide, _, rfl⟩

/-- The invariant holds in the midst of a HASH. -/
theorem inTail_inv : StateInv inTail where
  errRecorded := by decide
  busyNotFault := by decide
  record := ⟨rfl, rfl⟩
  table := by decide
  busyKind := by decide
  busyDone := by decide
  blockLoop := by decide
  tailLoop := by decide
  accHeld := by decide
  resultHeld := by decide
  vbufHeld := by decide
  memory := by decide

/-- It holds between CINIT and a HASH, over a source of `n` of the bytes at 0x1000 (here 0 or 1). -/
theorem between_inv : ∀ n ∈ [0, 1], StateInv (between .idle n 0) := by
  intro n h
  have : n = 0 ∨ n = 1 := by simpa using h
  rcases this with rfl | rfl <;> constructor <;> first | decide | exact ⟨rfl, rfl⟩

/-- It holds in FAULT. -/
theorem faulted_inv : StateInv faulted := by
  constructor <;> first | decide | exact Or.inl rfl

/-- A step in the midst of a HASH, for the statements about any step of a state with the invariant. -/
theorem witness_EveryStepKeepsTheInvariant : StateInv inTail ∧ ∃ t, step inTail = .next t :=
  ⟨inTail_inv, _, rfl⟩

theorem witness_UnheldRegistersAreNeverUsed :
    StateInv inTail ∧ inTail.written.result = false ∧ ∃ t, step inTail = .next t :=
  ⟨inTail_inv, rfl, _, rfl⟩

theorem witness_ResetSetsEveryRegister :
    ({ accepted with host := [.rst] }).host = .rst :: [] ∧ accepted.busy = true := by decide

/-- Two steps from reset: CINIT, then HASH over an empty source. -/
theorem witness_ReachableStatesKeepStatusClauses :
    (idle 0).mem.wf = true ∧
    ∃ t, Host.Core.run Sys2Proof.core 2
      { State.reset with mem := (idle 0).mem, host := [cmdWrite .cinit, cmdWrite .hash] } = .next t ∧
      t.busy = true := ⟨by decide, _, rfl, rfl⟩

/-- An accepted FIN, AINIT, HASH and a raise; a dropped one; a micro-step. -/
theorem witness_DoneChangesOnlyAsStated :
    (Accepting (between .scalar 3 3) ∧ ∃ t, exec .fin (between .scalar 3 3) = .next t ∧ t.done = true) ∧
    (Accepting (idle 3) ∧ ∃ t, exec .fin (idle 3) = .next t ∧ t.phase = .fault) ∧
    (¬Accepting faulted ∧ ∃ t, exec .hash faulted = .next t) ∧ inTail.busy = true :=
  ⟨⟨by decide, _, rfl, rfl⟩, ⟨by decide, _, rfl, rfl⟩, ⟨by decide, _, rfl⟩, by decide⟩

/-- A dropped write, an event that clears OVR, one that leaves it, and VPHA's own turn. -/
theorem witness_OvrRecordsDroppedWrites :
    droppedWrite accepted (cmdWrite .nop) = true ∧ clearsFault faulted (cmdWrite .clr) = true ∧
    droppedWrite faulted (cmdWrite .nop) = false ∧
    (∃ t, step { accepted with host := [cmdWrite .nop] } = .next t) ∧
    (inTail.host = [] ∧ ∃ t, step inTail = .next t) ∧
    ∃ t u, step inTail = .next t ∧ step { inTail with ovr := true } = .next u :=
  ⟨by decide, by decide, by decide, ⟨_, rfl⟩, ⟨rfl, _, rfl⟩, _, _, rfl, rfl⟩

theorem witness_ControlStateTransitions :
    (∃ t, exec .red (between .acc 3 0) = .next t ∧ t.phase = .scalar) ∧
    (∃ t, exec .hash (idle 3) = .next t ∧ t.hseq = .init) ∧
    accepted.busy = true ∧ ∃ t, step { accepted with host := [.rst] } = .next t :=
  ⟨⟨_, rfl, rfl⟩, ⟨_, rfl, rfl⟩, by decide, _, rfl⟩

/-- A TAIL that takes the last byte of the source, and a BLK that takes the last block. -/
theorem witness_OffsetNeverWraps :
    (∃ t, step { between .scalar 3 2 with host := [cmdWrite .tail] } = .next t ∧ t.offset.toNat = 3) ∧
    ∃ t, step { between .acc 64 32 with host := [cmdWrite .blk] } = .next t ∧ t.offset.toNat = 64 :=
  ⟨⟨_, rfl, by decide⟩, _, rfl, by decide⟩

/-! For each command: where it completes, and each of its other clauses at its boundary. -/

theorem witness_NopChangesNothing : accepted.busy = true ∧ faulted.busy = false ∧ (idle 3).busy = false := by
  decide

theorem witness_ClrClearsTheFault : accepted.busy = true ∧ faulted.busy = false := by decide

/-- CINIT and AINIT, and the drop clause of every command: FAULT and BUSY do not accept, IDLE does. -/
theorem witness_CinitBuildsTheTable : ¬Accepting faulted ∧ ¬Accepting accepted ∧ Accepting (idle 0) := by
  decide

theorem witness_AinitStartsAHash : ¬Accepting faulted ∧ Accepting (idle 0) ∧ Accepting (between .scalar 3 1) := by
  decide

/-- E_RANGE with one byte too few, the commit with the last whole block, and each sub-block refused first. -/
theorem witness_BlkFoldsOneBlock :
    (Accepting (idle 32) ∧ (idle 32).phase ≠ .acc) ∧
    (Accepting { between .acc 32 0 with ctValid := false } ∧ (between .acc 32 0).phase = .acc) ∧
    (Accepting { between .acc 32 0 with kind := .reserved } ∧ (between .acc 32 0).ctValid = true) ∧
    (Accepting (between .acc 63 32) ∧ (between .acc 63 32).kind ≠ .reserved ∧
      srcLength (between .acc 63 32) < (between .acc 63 32).offset.toNat + 32) ∧
    ((between .acc 64 32).offset.toNat + 32 ≤ srcLength (between .acc 64 32) ∧
      ∀ g : Fin 4, ¬refusedRead (between .acc 64 32) (subBlockAddr (between .acc 64 32) g.val) 8) ∧
    ∀ g : Fin 4,
      let s := { between .acc 64 32 with mem := refusing (0x1020 + 8 * g.val) 8 }
      Accepting s ∧ refusedRead s (subBlockAddr s g.val) 8 ∧
        ∀ g' < g, ¬refusedRead s (subBlockAddr s g'.val) 8 := by decide

theorem witness_RedSumsTheLanes :
    (Accepting (between .scalar 3 1) ∧ (between .scalar 3 1).phase ≠ .acc) ∧
    (Accepting (between .acc 3 0) ∧ (between .acc 3 0).phase = .acc) := by decide

/-- E_RANGE at OFFSET = SRC_LEN, the last legal TAIL, and a refused byte. -/
theorem witness_TailFoldsOneByte :
    (Accepting (between .acc 3 0) ∧ (between .acc 3 0).phase ≠ .scalar) ∧
    (Accepting { between .scalar 3 0 with kind := .reserved } ∧ (between .scalar 3 0).phase = .scalar) ∧
    (Accepting (between .scalar 3 3) ∧ srcLength (between .scalar 3 3) ≤ (between .scalar 3 3).offset.toNat) ∧
    ((between .scalar 3 2).kind ≠ .reserved ∧
      (between .scalar 3 2).offset.toNat < srcLength (between .scalar 3 2) ∧
      ¬refusedRead (between .scalar 3 2) (srcAddr (between .scalar 3 2) 2) 1) ∧
    refusedRead { between .scalar 3 2 with mem := refusing 0x1002 1 } (srcAddr (between .scalar 3 2) 2) 1 := by
  decide

theorem witness_FinReturnsTheScalar :
    (Accepting (idle 3) ∧ (idle 3).phase ≠ .scalar) ∧
    (Accepting (between .scalar 3 0) ∧ (between .scalar 3 0).phase = .scalar) := by decide

theorem witness_HashAcceptanceStartsTheSequencer :
    (Accepting { idle 3 with kind := .reserved } ∧ ¬Accepting accepted) ∧
    (Accepting (idle 0) ∧ (idle 0).kind ≠ .reserved) := by decide

/-- E_RANGE at ARG = SRC_LEN, the last legal ARG, and a refused byte: one that passes the top of the memory space. -/
theorem witness_RdbyteReadsOneByte :
    (Accepting { idle 3 with kind := .reserved }) ∧
    (Accepting { idle 3 with arg := 3 } ∧ srcLength (idle 3) ≤ ({ idle 3 with arg := 3 }).arg.toNat) ∧
    (Accepting { idle 3 with arg := 2 } ∧ ({ idle 3 with arg := 2 }).arg.toNat < srcLength (idle 3) ∧
      ¬refusedRead { idle 3 with arg := 2 } (srcAddr (idle 3) 2) 1) ∧
    refusedRead { idle 3 with arg := 2, base := 0xFFFFFFFFFFFFFFFE }
      (srcAddr { idle 3 with base := 0xFFFFFFFFFFFFFFFE } 2) 1 := by decide

/-- Both reserved widths; for both widths: E_RANGE with one byte too few, the last legal ARG, and a refused read. -/
theorem witness_RdblkReadsIntoVbuf :
    ((2 : Nat) ≠ 0 ∧ (2 : Nat) ≠ 1) ∧ ((3 : Nat) ≠ 0 ∧ (3 : Nat) ≠ 1) ∧ ¬Accepting faulted ∧
    ∀ p ∈ [(0, 8), (1, 32)], p ∈ [(0, 8), (1, 32)] ∧
      Accepting { idle (4 + p.2) with arg := 5 } ∧
      srcLength (idle (4 + p.2)) < ({ idle (4 + p.2) with arg := 5 }).arg.toNat + p.2 ∧
      ({ idle (4 + p.2) with arg := 4 }).arg.toNat + p.2 ≤ srcLength (idle (4 + p.2)) ∧
      ¬refusedRead (idle (4 + p.2)) (srcAddr (idle (4 + p.2)) 4) p.2 ∧
      refusedRead { idle (4 + p.2) with mem := refusing 0x1004 p.2 } (srcAddr (idle (4 + p.2)) 4) p.2 := by
  decide

theorem witness_TableHoldsPowersOf31 :
    StateInv (between .idle 0 0) ∧ Accepting (between .idle 0 0) ∧ (between .idle 0 0).ctValid = true :=
  ⟨between_inv 0 (by decide), by decide, rfl⟩

theorem witness_ReductionOrderIsFree : accStart.toList.reverse.Perm accStart.toList :=
  List.reverse_perm _

/-- A range that ends exactly at the top of the memory space, one a byte longer, and a refused one. -/
theorem witness_MemReadFollowsItsRule :
    (idle 3).mem.storing = [] ∧
    ((2 ^ 64 - 8) + 8 ≤ 2 ^ 64 ∧ (idle 3).mem.admits (2 ^ 64 - 8) 8 = true) ∧ 2 ^ 64 < (2 ^ 64 - 7) + 8 ∧
    (0x1000 + 8 ≤ 2 ^ 64 ∧ (refusing 0x1000 8).admits 0x1000 8 = false) := by decide

theorem witness_OverlappedBytesReadAsDraws :
    ¬refusedRead { idle 3 with mem := ⟨[], [], [0x1001]⟩ } 0x1000 8 ∧
    ∃ t, step { idle 3 with host := [.storeBegin 0x1001] } = .next t ∧ 0x1001 ∈ t.mem.storing :=
  ⟨by decide, _, rfl, by decide⟩

/-- A store to a listed address and one at the top of the memory space. -/
theorem witness_CompletedStoresAreSeen :
    (idle 3).mem.wf = true ∧ (∃ t, step { idle 3 with host := [.store 0x1001 0] } = .next t) ∧
    ∃ t, step { idle 3 with host := [.store 0xFFFFFFFFFFFFFFFF 7] } = .next t :=
  ⟨by decide, ⟨_, rfl⟩, _, rfl⟩

theorem witness_VphaNeverWritesMemory :
    (∃ t, exec .tail (between .scalar 3 2) = .next t) ∧ ∃ t, regWrite 0x020 32 5 (idle 3) = .next t :=
  ⟨⟨_, rfl⟩, _, rfl⟩

theorem witness_CommandsKeepTheDescriptor : ∃ t, exec .rdbyte (idle 3) = .next t := ⟨_, rfl⟩

theorem witness_ReadsOfEachCommand :
    Accepting (between .acc 32 0) ∧ ∃ t, exec .blk (between .acc 32 0) = .next t ∧ t.phase ≠ .fault :=
  ⟨by decide, _, rfl, by decide⟩

/-- The same three bytes owned at 0x1000 and through a window that starts 0x800 lower. -/
theorem witness_SourceKindsAreEquivalent :
    SameView (between .scalar 3 1) { between .scalar 3 1 with kind := .win, base := 0x800, woff := 0x800 } where
  kindS := by decide
  kindT := by decide
  stableS := rfl
  stableT := rfl
  registersAgree := rfl
  sameBytes := by decide
  insideS := by decide
  insideT := by decide
  sameReads := fun _ _ _ => rfl

/-- A command and a micro-step that raise. -/
theorem witness_FaultsArePrecise :
    (Accepting (idle 3) ∧ ∃ t, exec .blk (idle 3) = .next t ∧ t.phase = .fault) ∧
    (inTail.busy = true ∧ inTail.phase ≠ .fault ∧
      (microStep { inTail with mem := refusing 0x1001 1 }).phase = .fault) :=
  ⟨⟨by decide, _, rfl, rfl⟩, by decide⟩

/-- Three error conditions at once in a BLK: E_SEQ is reported (V-K2). -/
theorem witness_FirstErrorIsReported :
    Accepting (idle 3) ∧ (∃ t, exec .blk (idle 3) = .next t ∧ t.phase = .fault ∧ t.errCode = .seq) ∧
    meets .blk (idle 3) .seq ∧ meets .blk (idle 3) .noTable ∧ meets .blk (idle 3) .range :=
  ⟨by decide, ⟨_, rfl, rfl, rfl⟩, by decide, by decide, by decide⟩

theorem witness_FaultIsStickyUntilCleared :
    StateInv faulted ∧ faulted.phase = .fault ∧
    (∃ t, step { faulted with host := [cmdWrite .hash] } = .next t ∧ t.phase = .fault) ∧
    ∃ t, step { faulted with host := [cmdWrite .clr] } = .next t ∧ t.phase = .idle :=
  ⟨faulted_inv, rfl, ⟨_, rfl, rfl⟩, _, rfl, rfl⟩

theorem witness_MicroStepRunsTheSequencerCommand :
    inTail.busy = true ∧ inTail.phase ≠ .fault ∧
    ∃ t, exec (sequencerCommand inTail) { inTail with hseq := .none } = .next t :=
  ⟨by decide, by decide, _, rfl⟩

theorem witness_HashRaisesOnlyKindAndBus :
    (Accepting { idle 3 with kind := .reserved } ∧
      ∃ t, exec .hash { idle 3 with kind := .reserved } = .next t ∧ t.phase = .fault) ∧
    StateInv { inTail with mem := refusing 0x1001 1 } ∧
    (microStep { inTail with mem := refusing 0x1001 1 }).phase = .fault :=
  ⟨⟨by decide, _, rfl, rfl⟩, by constructor <;> first | decide | exact ⟨rfl, rfl⟩, by decide⟩

/-- A HASH over 61 62 63 in its tail loop, with one byte consumed, while the host polls STATUS. -/
theorem witness_RunningHashStaysRight :
    HashRunning [0x61, 0x62, 0x63] { inTail with host := [.regRead 0x00C 32] } ∧
    HostAction.leavesSource (.regRead 0x00C 32) = true ∧
    ∃ t, step { inTail with host := [.regRead 0x00C 32] } = .next t :=
  ⟨⟨by constructor <;> first | decide | exact ⟨rfl, rfl⟩, by decide, by decide, rfl, by decide, by decide⟩,
    rfl, _, rfl⟩

/-- An empty source and one of a single byte. -/
theorem witness_HashCompletesWithTheReferenceHash :
    ∀ n ∈ [0, 1], StateInv { between .idle n 0 with host := [cmdWrite .hash] } ∧
      Accepting (between .idle n 0) ∧ (between .idle n 0).kind ≠ .reserved ∧ Readable (between .idle n 0) := by
  intro n h
  have : n = 0 ∨ n = 1 := by simpa using h
  rcases this with rfl | rfl <;>
    exact ⟨by constructor <;> first | decide | exact ⟨rfl, rfl⟩, by decide, by decide, by decide⟩

/-- The four steps of a HASH over an empty source. -/
theorem witness_HashEqualsStepMode :
    StateInv (between .idle 0 0) ∧ Accepting (between .idle 0 0) ∧ (between .idle 0 0).kind ≠ .reserved ∧
    (between .idle 0 0).mem.storing = [] ∧
    ∃ t, Host.Core.run Sys2Proof.core (1 + hashMicroSteps (between .idle 0 0))
      { between .idle 0 0 with host := [cmdWrite .hash] } = .next t ∧ t.phase ≠ .fault :=
  ⟨between_inv 0 (by decide), by decide, by decide, rfl, _, rfl, by decide⟩

/-- No block and one block. -/
theorem witness_AccumulatorLanesAfterBlocks :
    ((between .idle 32 0).ctValid = true ∧ (between .idle 32 0).coeff = coeffTable ∧
      (between .idle 32 0).carry = carryCoeff ∧ (between .idle 32 0).mem.storing = []) ∧
    ∀ m ∈ [0, 1], (blkBody^[m] (ainitBody (between .idle 32 0))).phase = .acc := by decide

/-- One byte of the tail, with and without a block before it. -/
theorem witness_ScalarPartialIsThePrefixHash :
    ((between .idle 33 0).ctValid = true ∧ (between .idle 33 0).coeff = coeffTable ∧
      (between .idle 33 0).carry = carryCoeff ∧ (between .idle 33 0).mem.storing = []) ∧
    ∀ m ∈ [0, 1], (tailBody^[1] (redBody (blkBody^[m] (ainitBody (between .idle 33 0))))).phase = .scalar := by
  decide

end Sys2Proof.Tests
end

/-! The family of 00_scope.md: the reduction in any order (R14, R140, R141), the closed form of the reference hash (R16),
and a HASH from its acceptance to its RESULT (R17, R150 to R157). -/

namespace Sys2Proof.Proofs

open Sys2Proof Sys2Proof.Machine Sys2Proof.Config

/-! ## The reduction (R14, R140, R141) -/

theorem reduceAll_eq_list_sum (h : Bank) : reduceAll h = h.toList.sum := List.sum_eq_foldl.symm

theorem hsum_eq_sum (v : Lanes) : hsum v = ∑ i : Fin 8, v.get i := by
  rw [hsum, ← List.sum_eq_foldl, Fin.sum_univ_eight]
  simp only [Lanes.toList, List.sum_cons, List.sum_nil, Lanes.get]
  ring

/-- RED's sum is the sum of the four vectors' horizontal sums (R140). -/
theorem reduceAll_eq_hsums (h : Bank) :
    reduceAll h = hsum h.v0 + hsum h.v1 + hsum h.v2 + hsum h.v3 := by
  simp only [reduceAll_eq_sum, hsum_eq_sum, Fin.sum_univ_four, Bank.get, Bank.row]

/-- Settles O40: wraparound addition is associative and commutative, so a sum over a list is one over its permutations. -/
theorem reductionOrderIsFree : Obligations.ReductionOrderIsFree := by
  refine ⟨fun h order hperm => ?_, reduceAll_eq_hsums⟩
  calc order.foldl (fun a b => a + b) 0
      = order.sum := List.sum_eq_foldl.symm
    _ = h.toList.sum := hperm.sum_eq
    _ = reduceAll h := (reduceAll_eq_list_sum h).symm

/-! ## The closed form of the reference hash (R16) -/

@[simp] theorem prefixHash_zero (b : Nat → Byte) : prefixHash b 0 = 1 := rfl

theorem map_getD_range (bytes : List Byte) :
    (List.range bytes.length).map (fun i => bytes.getD i 0) = bytes := by
  apply List.ext_getElem
  · simp
  · intro i _ hi
    simp [List.getElem?_eq_getElem hi]

theorem scalarHash_eq_prefixHash (bytes : List Byte) :
    scalarHash bytes = prefixHash (fun i => bytes.getD i 0) bytes.length := by
  rw [prefixHash, map_getD_range]

theorem zext32_eq_ofNat (b : Byte) : zext32 b = BitVec.ofNat 32 b.toNat := by
  apply BitVec.eq_of_toNat_eq
  simp [zext32]

/-- Reduction mod 2^32 passes through a sum over the first `n` numbers (R13). -/
theorem ofNat_sum_range (f : Nat → Nat) (n : Nat) :
    BitVec.ofNat 32 ((List.range n).map f).sum = ∑ k ∈ Finset.range n, BitVec.ofNat 32 (f k) := by
  induction n with
  | zero => rfl
  | succ n ih => rw [List.sum_range_succ, BitVec.ofNat_add, ih, Finset.sum_range_succ]

/-- A byte of the reference hash with its power, as a word and as a number mod 2^32. -/
theorem zext32_mul_powerOf31 (b : Byte) (k : Nat) :
    zext32 b * powerOf31 k = BitVec.ofNat 32 (b.toNat * 31 ^ k) := by
  rw [zext32_eq_ofNat, powerOf31_eq, BitVec.ofNat_mul]

/-- The closed form of R16 over the first `n` bytes of `b`. -/
theorem prefixHash_closed (b : Nat → Byte) (n : Nat) :
    prefixHash b n = BitVec.ofNat 32
      (31 ^ n + ((List.range n).map fun i => (b i).toNat * 31 ^ (n - 1 - i)).sum) := by
  have hsplit := prefixHash_add b 0 n
  simp only [Nat.zero_add, prefixHash_zero, one_mul, zext32_mul_powerOf31] at hsplit
  rw [hsplit, BitVec.ofNat_add, ofNat_sum_range, powerOf31_eq]

/-- Settles O41: the bytes are hashed one after another from no byte on, each with its power of 31. -/
theorem referenceHashClosedForm : Obligations.ReferenceHashClosedForm := fun bytes => by
  rw [scalarHash_eq_prefixHash, prefixHash_closed]

/-! ## The source of a HASH: the descriptor and the memory behind it -/

/-- What fixes the bytes of a source: the descriptor and the memory (R110). -/
structure SourceView where
  kind : SrcKind
  base : DWord
  len : DWord
  woff : DWord
  mem : Memory

/-- The source as a state has it. -/
def viewOf (s : State) : SourceView := ⟨s.kind, s.base, s.len, s.woff, s.mem⟩

/-- `u` has the source of `s`: no command and no micro-step changes it (R61, R118). -/
def SameSource (s u : State) : Prop := viewOf u = viewOf s

section source

variable {s u : State}

theorem SameSource.kind_eq (h : SameSource s u) : u.kind = s.kind := congrArg SourceView.kind h

theorem SameSource.mem_eq (h : SameSource s u) : u.mem = s.mem := congrArg SourceView.mem h

theorem SameSource.srcLength_eq (h : SameSource s u) : srcLength u = srcLength s :=
  congrArg (fun v => v.len.toNat) h

theorem SameSource.srcAddr_eq (h : SameSource s u) (off : Nat) : srcAddr u off = srcAddr s off :=
  srcAddr_congr h.kind_eq (congrArg SourceView.base h) (congrArg SourceView.woff h) off

/-- While no other agent writes, a read of `u` sees the source bytes of `s` (R72, R110). -/
theorem SameSource.byteSeen_eq (h : SameSource s u) (hs : s.mem.storing = []) (off : Nat) :
    byteSeen u (srcAddr u off) = sourceByte s off := by
  have hu : u.mem.storing = [] := by rw [h.mem_eq, hs]
  rw [byteSeen_stable hu, h.srcAddr_eq, h.mem_eq, sourceByte]

/-- The platform admits to `u` every read of 1 or L bytes inside a readable source. -/
theorem SameSource.not_refused (h : SameSource s u) (hr : Readable s) {off w : Nat}
    (hw : w ∈ [1, L]) (hin : off + w ≤ srcLength s) : ¬refusedRead u (srcAddr u off) w := by
  have hpos : 0 < w := by
    rcases List.mem_pair.mp hw with rfl | rfl <;> decide
  obtain ⟨htop, hadm⟩ := hr.2 off (by omega) w hw hin
  rw [refusedRead, h.srcAddr_eq, h.mem_eq]
  simp [hadm, Nat.not_lt.mpr htop]

/-- The four sub-blocks of a block inside a readable source are admitted (R132). -/
theorem SameSource.block_not_refused (h : SameSource s u) (hr : Readable s)
    (hin : u.offset.toNat + B ≤ srcLength s) (g : Fin 4) :
    ¬refusedRead u (subBlockAddr u g.val) L := by
  refine h.not_refused hr (by simp) ?_
  have hg := g.isLt
  simp only [B, L] at hin ⊢
  omega

end source

/-! ## The course of a HASH (R151, R152) -/

/-- Where a HASH stands, and what it has hashed so far (R136, R145). -/
inductive HashStage (s u : State) : Prop where
  /-- Before AINIT. -/
  | init (hseq : u.hseq = .init)
  /-- In the block loop: the lanes sum to the hash of the bytes consumed. -/
  | blocks (hseq : u.hseq = .bloop) (phase : u.phase = .acc) (ctValid : u.ctValid = true)
      (inside : u.offset.toNat ≤ srcLength s)
      (hashed : reduceAll u.h = prefixHash (sourceByte s) u.offset.toNat)
  /-- In the tail loop: SH is the hash of the bytes consumed. -/
  | tail (hseq : u.hseq = .tloop) (phase : u.phase = .scalar)
      (inside : u.offset.toNat ≤ srcLength s)
      (hashed : u.sh = prefixHash (sourceByte s) u.offset.toNat)
  /-- Completed: RESULT is the hash of the whole source (R157). -/
  | finished (hseq : u.hseq = .none) (phase : u.phase = .idle) (done : u.done = true)
      (offset : u.offset = s.len) (hashed : u.result = prefixHash (sourceByte s) (srcLength s))

/-- `u` is on the way of the HASH that `s` accepts, or at its end, with nothing left for the host to do. -/
structure HashCourse (s u : State) : Prop where
  source : SameSource s u
  host : u.host = []
  noError : u.errCode = .none
  table : u.ctValid = true → u.coeff = coeffTable ∧ u.carry = carryCoeff
  /-- An empty source is never read (R146). -/
  noReads : srcLength s = 0 → u.reads = s.reads
  stage : HashStage s u

/-- The micro-steps that the HASH accepted in `s` still has to take in `u` (R152). -/
def stepsLeft (s u : State) : Nat :=
  match u.hseq with
  | .none => 0
  | .init => (if u.ctValid then 0 else 1) + 1 + srcLength s / B + 1 + srcLength s % B + 1
  | .bloop => (srcLength s - u.offset.toNat) / B + 1 + (srcLength s - u.offset.toNat) % B + 1
  | .tloop => srcLength s - u.offset.toNat + 1

section stepsLeft

variable (s : State) {u : State}

theorem stepsLeft_none (h : u.hseq = .none) : stepsLeft s u = 0 := by simp [stepsLeft, h]

theorem stepsLeft_init (h : u.hseq = .init) :
    stepsLeft s u =
      (if u.ctValid then 0 else 1) + 1 + srcLength s / B + 1 + srcLength s % B + 1 := by
  simp [stepsLeft, h]

theorem stepsLeft_bloop (h : u.hseq = .bloop) :
    stepsLeft s u =
      (srcLength s - u.offset.toNat) / B + 1 + (srcLength s - u.offset.toNat) % B + 1 := by
  simp [stepsLeft, h]

theorem stepsLeft_tloop (h : u.hseq = .tloop) :
    stepsLeft s u = srcLength s - u.offset.toNat + 1 := by
  simp [stepsLeft, h]

/-- BUSY is 1 exactly while a micro-step is left (R31). -/
theorem stepsLeft_eq_zero_iff : stepsLeft s u = 0 ↔ u.hseq = .none := by
  cases h : u.hseq <;> simp [stepsLeft, h]

@[simp] theorem stepsLeft_nextDraw : stepsLeft s (nextDraw u) = stepsLeft s u := rfl

end stepsLeft

theorem busy_iff {u : State} : u.busy = true ↔ u.hseq ≠ .none := by simp [State.busy]

theorem HashStage.nextDraw {s u : State} (h : HashStage s u) : HashStage s (nextDraw u) := by
  cases h with
  | init hq => exact .init hq
  | blocks hq hp hc hi hh => exact .blocks hq hp hc hi hh
  | tail hq hp hi hh => exact .tail hq hp hi hh
  | finished hq hp hd ho hh => exact .finished hq hp hd ho hh

section stages

variable {s u : State}

theorem HashCourse.inBlocks (h : HashCourse s u) (hq : u.hseq = .bloop) :
    u.phase = .acc ∧ u.ctValid = true ∧ u.offset.toNat ≤ srcLength s ∧
      reduceAll u.h = prefixHash (sourceByte s) u.offset.toNat := by
  cases h.stage with
  | blocks _ hp hc hin hh => exact ⟨hp, hc, hin, hh⟩
  | init hq' | tail hq' | finished hq' => cases hq.symm.trans hq'

theorem HashCourse.inTail (h : HashCourse s u) (hq : u.hseq = .tloop) :
    u.phase = .scalar ∧ u.offset.toNat ≤ srcLength s ∧
      u.sh = prefixHash (sourceByte s) u.offset.toNat := by
  cases h.stage with
  | tail _ hp hin hh => exact ⟨hp, hin, hh⟩
  | init hq' | blocks hq' | finished hq' => cases hq.symm.trans hq'

theorem HashCourse.atEnd (h : HashCourse s u) (hq : u.hseq = .none) :
    u.phase = .idle ∧ u.done = true ∧ u.offset = s.len ∧
      u.result = prefixHash (sourceByte s) (srcLength s) := by
  cases h.stage with
  | finished _ hp hd ho hh => exact ⟨hp, hd, ho, hh⟩
  | init hq' | blocks hq' | tail hq' => cases hq.symm.trans hq'

end stages

/-- The draw counter is no part of the course. -/
theorem HashCourse.nextDraw {s u : State} (h : HashCourse s u) : HashCourse s (nextDraw u) :=
  ⟨h.source, h.host, h.noError, h.table, h.noReads, h.stage.nextDraw⟩

/-- TAIL with its tests passed and its read admitted (R142). -/
theorem tailBody_admitted {u : State} (hp : u.phase = .scalar) (hk : u.kind ≠ .reserved)
    (hin : u.offset.toNat < srcLength u) (hadm : ¬refusedRead u (srcAddr u u.offset.toNat) 1) :
    tailBody u = { u with
      sh := foldByte u.sh (byteSeen u (srcAddr u u.offset.toNat))
      offset := u.offset + 1
      reads := ⟨srcAddr u u.offset.toNat, 1⟩ :: u.reads } := by
  rcases tailBody_cases u with ⟨hp', _⟩ | ⟨_, hk', _⟩ | ⟨_, _, hr, _⟩ | ⟨_, _, _, hb, _⟩ |
    ⟨_, _, _, _, hbody⟩
  · exact absurd hp hp'
  · exact absurd hk' hk
  · omega
  · exact absurd hb hadm
  · exact hbody

/-! Each micro-step on its way: it keeps to the course, and one micro-step fewer is left. -/

/-- What a micro-step from `u` to `t` does to the HASH that `s` accepted. -/
def Advances (s u t : State) : Prop := HashCourse s t ∧ stepsLeft s u = stepsLeft s t + 1

section microSteps

variable {s u : State}

/-- The CINIT micro-step (R151). -/
theorem HashCourse.cinit (h : HashCourse s u) (hq : u.hseq = .init) (hc : u.ctValid = false) :
    Advances s u (cinitBody u) := by
  refine ⟨⟨h.source, h.host, h.noError, fun _ => ⟨rfl, rfl⟩, h.noReads, .init hq⟩, ?_⟩
  rw [stepsLeft_init s hq, stepsLeft_init s (u := cinitBody u) hq, hc, cinitBody_ctValid]
  simp only [Bool.false_eq_true, if_false, if_true]
  omega

theorem reduceAll_accStart : reduceAll accStart = 1 := by decide

/-- The AINIT micro-step: the accumulators start with the hash of no bytes (R131, R136). -/
theorem HashCourse.ainit (h : HashCourse s u) (hq : u.hseq = .init) (hc : u.ctValid = true) :
    Advances s u { ainitBody u with hseq := .bloop } := by
  refine ⟨⟨h.source, h.host, h.noError, h.table, h.noReads, ?stage⟩, ?count⟩
  case stage => exact .blocks rfl rfl hc (Nat.zero_le _) reduceAll_accStart
  case count =>
    rw [stepsLeft_init s hq, stepsLeft_bloop s rfl, hc]
    have hzero : (0 : DWord).toNat = 0 := rfl
    simp only [ainitBody_offset, hzero, Nat.sub_zero, if_true]
    omega

/-- A sum that stays inside the source does not wrap. -/
theorem toNat_add_inside {off len : DWord} {k : Nat} (hin : off.toNat + k ≤ len.toNat) :
    (off + BitVec.ofNat 64 k).toNat = off.toNat + k := by
  have hlen := len.isLt
  rw [BitVec.toNat_add, BitVec.toNat_ofNat, Nat.mod_eq_of_lt (a := k) (by omega),
    Nat.mod_eq_of_lt (by omega)]

/-- The lanes after a block over the stable source of `s`, with the table built (R132, R136). -/
theorem reduceAll_foldedBlock (h : HashCourse s u) (hs : s.mem.storing = [])
    (hc : u.ctValid = true) (hh : reduceAll u.h = prefixHash (sourceByte s) u.offset.toNat) :
    reduceAll (foldedBlock u).h = prefixHash (sourceByte s) (u.offset.toNat + B) := by
  obtain ⟨hcoeff, hcarry⟩ := h.table hc
  simp only [foldedBlock, h.source.byteSeen_eq hs, hcoeff, hcarry]
  exact reduceAll_block (sourceByte s) u.offset.toNat u.h hh

/-- The BLK micro-step commits, and the block is hashed (R132, R136). -/
theorem HashCourse.block (h : HashCourse s u) (hr : Readable s) (hk : s.kind ≠ .reserved)
    (hq : u.hseq = .bloop) (hmore : u.offset.toNat + B ≤ srcLength u) :
    Advances s u (blkBody u) := by
  obtain ⟨hp, hc, _, hh⟩ := h.inBlocks hq
  have hin : u.offset.toNat + B ≤ srcLength s := h.source.srcLength_eq ▸ hmore
  have hbody : blkBody u = foldedBlock u :=
    (blkBody_ready hp hc (h.source.kind_eq ▸ hk) hmore).trans
      (readAndFoldBlock_admitted (h.source.block_not_refused hr hin))
  have hoff : (foldedBlock u).offset.toNat = u.offset.toNat + B := toNat_add_inside hin
  rw [hbody]
  refine ⟨⟨h.source, h.host, h.noError, h.table, ?noReads, ?stage⟩, ?count⟩
  case noReads => intro h0; simp only [B] at hin; omega
  case stage =>
    refine .blocks hq hp hc (hoff ▸ hin) ?_
    rw [hoff]
    exact reduceAll_foldedBlock h hr.1 hc hh
  case count =>
    rw [stepsLeft_bloop s hq, stepsLeft_bloop s (u := foldedBlock u) hq, hoff]
    simp only [B] at hin ⊢
    omega

/-- The RED micro-step, with less than a block left: the lanes' sum is the start of the tail (R140, R145). -/
theorem HashCourse.red (h : HashCourse s u) (hq : u.hseq = .bloop)
    (hend : srcLength u < u.offset.toNat + B) :
    Advances s u { u with sh := reduceAll u.h, phase := .scalar, hseq := .tloop } := by
  obtain ⟨_, _, hin, hh⟩ := h.inBlocks hq
  rw [h.source.srcLength_eq] at hend
  refine ⟨⟨h.source, h.host, h.noError, h.table, h.noReads, .tail rfl rfl hin hh⟩, ?_⟩
  rw [stepsLeft_bloop s hq, stepsLeft_tloop s rfl]
  simp only [B] at hend ⊢
  omega

/-- One TAIL is one step of the recurrence of R16 (R142). -/
theorem foldByte_prefixHash (b : Nat → Byte) (n : Nat) :
    foldByte (prefixHash b n) (b n) = prefixHash b (n + 1) := by
  rw [prefixHash_succ, foldByte, mul_comm]

/-- The TAIL micro-step reads its byte, and the byte is hashed (R142, R145). -/
theorem HashCourse.tail (h : HashCourse s u) (hr : Readable s) (hk : s.kind ≠ .reserved)
    (hq : u.hseq = .tloop) (hmore : u.offset.toNat < srcLength u) :
    Advances s u (tailBody u) := by
  obtain ⟨hp, _, hh⟩ := h.inTail hq
  have hin : u.offset.toNat < srcLength s := h.source.srcLength_eq ▸ hmore
  have hadm : ¬refusedRead u (srcAddr u u.offset.toNat) 1 := h.source.not_refused hr (by simp) hin
  have hoff : (u.offset + 1).toNat = u.offset.toNat + 1 := toNat_add_inside (k := 1) hin
  rw [tailBody_admitted hp (h.source.kind_eq ▸ hk) hmore hadm]
  refine ⟨⟨h.source, h.host, h.noError, h.table, ?noReads, ?stage⟩, ?count⟩
  case noReads => intro h0; omega
  case stage =>
    refine .tail hq hp (hoff ▸ hin) ?_
    simp only [hoff, h.source.byteSeen_eq hr.1, hh, foldByte_prefixHash]
  case count =>
    rw [stepsLeft_tloop s hq, stepsLeft_tloop s (by exact hq), hoff]
    omega

/-- The FIN micro-step, with no byte left: RESULT is the hash of the source (R143, R157). -/
theorem HashCourse.fin (h : HashCourse s u) (hq : u.hseq = .tloop)
    (hend : srcLength u ≤ u.offset.toNat) :
    Advances s u { u with
      result := u.sh, done := true, phase := .idle, hseq := .none,
      written := { u.written with result := true } } := by
  obtain ⟨_, hin, hh⟩ := h.inTail hq
  rw [h.source.srcLength_eq] at hend
  have hall : u.offset.toNat = srcLength s := by omega
  refine ⟨⟨h.source, h.host, h.noError, h.table, h.noReads, ?stage⟩, ?count⟩
  case stage => exact .finished rfl rfl rfl (BitVec.eq_of_toNat_eq hall) (hall ▸ hh)
  case count =>
    rw [stepsLeft_tloop s hq, stepsLeft_none s rfl]
    omega

/-- Over a readable source every micro-step of a HASH advances it, and none raises (R151, R188). -/
theorem HashCourse.microStep (h : HashCourse s u) (hr : Readable s) (hk : s.kind ≠ .reserved)
    (hb : u.busy = true) : Advances s u (microStep u) := by
  rcases microStep_cases hb with ⟨hq, hc, e⟩ | ⟨hq, hc, e⟩ | ⟨hq, hmore, e⟩ | ⟨hq, hend, _, e⟩ |
    ⟨hq, _, hp, _⟩ | ⟨hq, hmore, e⟩ | ⟨hq, hend, _, e⟩ | ⟨hq, _, hp, _⟩
  · exact e ▸ h.cinit hq hc
  · exact e ▸ h.ainit hq hc
  · exact e ▸ h.block hr hk hq hmore
  · exact e ▸ h.red hq hend
  · exact absurd (h.inBlocks hq).1 hp
  · exact e ▸ h.tail hr hk hq hmore
  · exact e ▸ h.fin hq hend
  · exact absurd (h.inTail hq).1 hp

end microSteps

/-! ## The run of a HASH (R152, R202) -/

/-- A command word that the host writes and the block accepts runs that command's body (R39). -/
theorem step_cmdWrite_accepted {i : Instr} {s : State} {rest : List HostAction}
    (hd : decode (encode i) = .ok i) (hh : s.host = cmdWrite i :: rest) (ha : Accepting s) :
    step s = .next (nextDraw (bodyOf i { s with host := rest })) := by
  have haccept : Accepting { s with host := rest } := ha
  rw [step_cons hh, cmdWrite, outsideTurn, regWrite_cmd, presentWord_ok hd,
    exec_accepting i haccept, mapNext]

/-- With the host silent, a busy block takes its micro-step (R202). -/
theorem step_busy {u : State} (hh : u.host = []) (hb : u.busy = true) :
    step u = .next (nextDraw (microStep u)) := by
  rw [step_nil hh, vphaTurn, if_pos hb]

/-- The acceptance step of HASH begins the course, with all its micro-steps left (R150, R152). -/
theorem hashBody_starts {s : State} (hinv : StateInv s) (ha : Accepting s)
    (hk : s.kind ≠ .reserved) :
    HashCourse s (hashBody { s with host := [] }) ∧
      stepsLeft s (hashBody { s with host := [] }) = hashMicroSteps s := by
  have hbody : hashBody { s with host := [] } =
      { s with host := [], done := false, hseq := .init } := if_neg hk
  have herr : s.errCode = .none := by
    by_contra he
    exact ha.2 (hinv.errRecorded.mp he)
  rw [hbody]
  exact ⟨⟨rfl, rfl, herr, hinv.table, fun _ => rfl, .init rfl⟩, rfl⟩

/-- A HASH on its course is busy for exactly the micro-steps it has left, and then finished. -/
theorem HashCourse.run {s : State} (hr : Readable s) (hk : s.kind ≠ .reserved) {m : Nat} :
    ∀ {u : State}, HashCourse s u → stepsLeft s u = m →
      (∀ k < m, ∃ v, Host.Core.run Sys2Proof.core k u = .next v ∧ v.busy = true) ∧
      ∃ t, Host.Core.run Sys2Proof.core m u = .next t ∧ HashCourse s t ∧ t.hseq = .none := by
  induction m with
  | zero =>
    intro u h hm
    exact ⟨fun k hk => absurd hk (Nat.not_lt_zero k), u, run_zero u, h,
      (stepsLeft_eq_zero_iff s).mp hm⟩
  | succ m ih =>
    intro u h hm
    have hb : u.busy = true := busy_iff.mpr fun hq => by
      have := stepsLeft_none s hq
      omega
    have hstep := step_busy h.host hb
    obtain ⟨hnext, hcount⟩ := h.microStep hr hk hb
    obtain ⟨hbusy, hend⟩ := ih hnext.nextDraw (by rw [stepsLeft_nextDraw]; omega)
    rw [run_succ m hstep]
    refine ⟨fun k hk => ?_, hend⟩
    cases k with
    | zero => exact ⟨u, run_zero u, hb⟩
    | succ k =>
      rw [run_succ k hstep]
      exact hbusy k (by omega)

/-- Settles O55, by induction on the micro-steps left: each one advances the HASH by one. -/
theorem hashCompletesWithTheReferenceHash : Obligations.HashCompletesWithTheReferenceHash := by
  intro s hinv ha hk hr hhost
  obtain ⟨hstart, hcount⟩ := hashBody_starts hinv ha hk
  have hstep := step_cmdWrite_accepted (by rfl) hhost ha
  obtain ⟨hbusy, t, hrun, hend, hq⟩ := hstart.nextDraw.run hr hk hcount
  simp only [Nat.add_comm 1, run_succ _ hstep]
  obtain ⟨hp, hd, ho, hh⟩ := hend.atEnd hq
  refine ⟨hbusy, t, hrun, hq, hp, hd, hend.noError, ho, hh, fun hempty => ⟨?_, hend.noReads hempty⟩⟩
  rw [hh, hempty, prefixHash_zero]

end Sys2Proof.Proofs

/-! The family of 10_state.md. First the host register port: the register map (R35 to R56), STATUS (R30) and what a
command word written to CMD does (R39). -/

namespace Sys2Proof.Proofs

open Sys2Proof Sys2Proof.Machine Sys2Proof.Config

/-! ## The register map (R35) -/

theorem regOffset_aligned (r : Reg) : regOffset r % 4 = 0 := by
  cases r with
  | acc g i | coeff g i | vbuf j => simp only [regOffset]; omega
  | _ => rfl

theorem regOffset_inside (r : Reg) : regOffset r < 4096 := by
  cases r with
  | acc g i | coeff g i | vbuf j => simp only [regOffset, L]; omega
  | _ => simp only [regOffset]; omega

theorem regAt_regOffset (r : Reg) : regAt (regOffset r) = some r := by
  cases r with
  | acc g i => revert g i; decide
  | coeff g i => revert g i; decide
  | vbuf j => revert j; decide
  | _ => rfl

theorem regOffset_of_scalarRegAt {off : Nat} {r : Reg} (h : scalarRegAt off = some r) :
    regOffset r = off := by
  unfold scalarRegAt at h
  split at h <;> cases h <;> rfl

/-- An aligned offset that leads to a register is that register's own. -/
theorem regOffset_of_regAt {off : Nat} {r : Reg} (ha : off % 4 = 0) (h : regAt off = some r) :
    regOffset r = off := by
  unfold regAt at h
  split at h
  · exact regOffset_of_scalarRegAt h
  split at h
  · cases h
  split at h
  · cases h
    simp only [regOffset, Fin.ofNat, L]
    omega
  split at h
  · cases h
    simp only [regOffset, Fin.ofNat, L]
    omega
  split at h
  · cases h
    simp only [regOffset, Fin.ofNat]
    omega
  · cases h

/-- Settles O15: the map leads each offset back to its register, and each aligned offset of a register to that offset. -/
theorem registerMapIsOneToOne : Obligations.RegisterMapIsOneToOne :=
  ⟨fun r => ⟨regOffset_aligned r, regOffset_inside r, regAt_regOffset r⟩,
    fun _ _ => regOffset_of_regAt⟩

/-! ## Accesses to the register port (R36, R37) -/

theorem wholeWord_iff {ra : BitVec 12} {bits : Nat} :
    wholeWord ra bits = true ↔ bits = 32 ∧ ra.toNat % 4 = 0 := by
  simp [wholeWord]

theorem toNat_regOffset (r : Reg) : (BitVec.ofNat 12 (regOffset r)).toNat = regOffset r := by
  rw [BitVec.toNat_ofNat, Nat.mod_eq_of_lt (regOffset_inside r)]

theorem wholeWord_regOffset (r : Reg) : wholeWord (BitVec.ofNat 12 (regOffset r)) 32 = true :=
  wholeWord_iff.mpr ⟨rfl, by rw [toNat_regOffset, regOffset_aligned]⟩

theorem regAt_toNat_regOffset (r : Reg) : regAt (BitVec.ofNat 12 (regOffset r)).toNat = some r := by
  rw [toNat_regOffset, regAt_regOffset]

/-- A whole-word read at the offset of a register (R56). -/
theorem regRead_at {ra : BitVec 12} {bits : Nat} {r : Reg} (hw : wholeWord ra bits = true)
    (hr : regAt ra.toNat = some r) (s : State) :
    regRead ra bits s = if holdsValue s r then contents s r else draw s.draws := by
  simp only [regRead, hw, hr, if_true]

/-- A whole-word write at the offset of a register (R38 to R44). -/
theorem regWrite_at {ra : BitVec 12} {bits : Nat} {r : Reg} (hw : wholeWord ra bits = true)
    (hr : regAt ra.toNat = some r) (d : Word) (s : State) : regWrite ra bits d s = writeReg r d s := by
  simp only [regWrite, hw, hr, if_true]

theorem regRead_reg (r : Reg) (s : State) :
    regRead (BitVec.ofNat 12 (regOffset r)) 32 s =
      if holdsValue s r then contents s r else draw s.draws :=
  regRead_at (wholeWord_regOffset r) (regAt_toNat_regOffset r) s

theorem regWrite_reg (r : Reg) (d : Word) (s : State) :
    regWrite (BitVec.ofNat 12 (regOffset r)) 32 d s = writeReg r d s :=
  regWrite_at (wholeWord_regOffset r) (regAt_toNat_regOffset r) d s

theorem regRead_held {r : Reg} {s : State} (h : holdsValue s r = true) :
    regRead (BitVec.ofNat 12 (regOffset r)) 32 s = contents s r := by
  rw [regRead_reg, if_pos h]

theorem regRead_partial {ra : BitVec 12} {bits : Nat} (h : wholeWord ra bits = false) (s : State) :
    regRead ra bits s = 0 := by
  simp [regRead, h]

theorem regWrite_partial {ra : BitVec 12} {bits : Nat} (h : wholeWord ra bits = false) (d : Word)
    (s : State) : regWrite ra bits d s = .next s := by
  simp [regWrite, h]

theorem regRead_reserved {ra : BitVec 12} (h : regAt ra.toNat = none) (bits : Nat) (s : State) :
    regRead ra bits s = 0 := by
  simp [regRead, h]

theorem regWrite_reserved {ra : BitVec 12} (h : regAt ra.toNat = none) (bits : Nat) (d : Word)
    (s : State) : regWrite ra bits d s = .next s := by
  simp [regWrite, h]

/-- Settles O13: such an access is no whole-word access. -/
theorem partialAccessesHaveNoEffect : Obligations.PartialAccessesHaveNoEffect := by
  intro ra bits d s h
  have hpart : wholeWord ra bits = false := by
    rw [← Bool.not_eq_true, wholeWord_iff]
    omega
  exact ⟨regWrite_partial hpart d s, regRead_partial hpart s⟩

theorem writeReg_readOnly {r : Reg} (h : r.writable = false) (d : Word) (s : State) :
    writeReg r d s = .next s := by
  cases r with
  | cmd | srcKind | srcBaseLo | srcBaseHi | srcLenLo | srcLenHi | srcWoffLo | srcWoffHi | argLo
  | argHi => cases h
  | _ => rfl

/-- Settles O12: outside the writable registers a write does nothing. -/
theorem readOnlyWritesAreIgnored : Obligations.ReadOnlyWritesAreIgnored :=
  ⟨fun r s d h => (regWrite_reg r d s).trans (writeReg_readOnly h d s),
    fun _ => regRead_held (r := .cmd) rfl⟩

/-! ## The halves of a 64-bit register (R40) -/

theorem toNat_halves (v : DWord) : v.toNat = (highHalf v).toNat * 2 ^ 32 + (lowHalf v).toNat := by
  have h := congrArg BitVec.toNat (halves_append v)
  rw [BitVec.toNat_append, ← Nat.shiftLeft_add_eq_or_of_lt (lowHalf v).isLt, Nat.shiftLeft_eq] at h
  exact h.symm

/-- Settles O11: a written register is a concatenation of the new half with the kept one. -/
theorem halvesAreIndependent : Obligations.HalvesAreIndependent := fun v _ =>
  ⟨lowHalf_append _ _, highHalf_append _ _, highHalf_append _ _, lowHalf_append _ _,
    halves_append v, toNat_halves v⟩

/-! ## STATUS (R30) -/

/-- The fields of STATUS, from bit 0 up, the reserved ones included. -/
theorem statusWord_fields (s : State) :
    (statusWord s).extractLsb' 0 1 = BitVec.ofBool s.busy ∧
    (statusWord s).extractLsb' 1 1 = BitVec.ofBool s.done ∧
    (statusWord s).extractLsb' 2 1 = BitVec.ofBool s.err ∧
    (statusWord s).extractLsb' 3 1 = BitVec.ofBool s.ctValid ∧
    (statusWord s).extractLsb' 4 1 = BitVec.ofBool s.ovr ∧
    (statusWord s).extractLsb' 5 3 = 0 ∧
    (statusWord s).extractLsb' 8 4 = errValue s.errCode ∧
    (statusWord s).extractLsb' 12 4 = 0 ∧
    (statusWord s).extractLsb' 16 2 = phaseCode s.phase ∧
    (statusWord s).extractLsb' 18 2 = 0 ∧
    (statusWord s).extractLsb' 20 2 = hseqCode s.hseq ∧
    (statusWord s).extractLsb' 22 10 = 0 := by
  unfold statusWord
  refine ⟨?_, ?_, ?_, ?_, ?_, ?_, ?_, ?_, ?_, ?_, ?_, ?top⟩
  case top =>
    repeat rw [extract_append_left _ _ _ _ (by decide)]
    simp
  all_goals
    repeat rw [extract_append_left _ _ _ _ (by decide)]
    rw [extract_append_right _ _ _ _ (by decide)]
    simp

/-- Settles O17: each field is cut out of the concatenation that STATUS is. -/
theorem statusFieldsStandWhereStated : Obligations.StatusFieldsStandWhereStated := by
  refine ⟨fun s => ?_, by decide⟩
  obtain ⟨busy, done, err, ctValid, ovr, res5, code, res12, phase, res18, hseq, res22⟩ :=
    statusWord_fields s
  exact ⟨busy, done, err, ctValid, ovr, res5, code, res12, phase, res18, hseq, res22,
    busy.symm, done.symm, err.symm⟩

/-! ## Reserved space and writes to the descriptor (R37, R41, R44) -/

theorem regAt_reserved {off : Nat} (ha : off % 4 = 0)
    (h : off = 0x014 ∨ (0x05C ≤ off ∧ off ≤ 0x0FC) ∨ 0x280 ≤ off) : regAt off = none := by
  rcases h with rfl | ⟨hlo, hhi⟩ | hhi
  · rfl
  · rw [regAt, if_neg (by omega), if_pos (by omega)]
  · rw [regAt, if_neg (by omega), if_neg (by omega), if_neg (by omega), if_neg (by omega),
      if_neg (by omega)]

/-- The bits that SRC_KIND does not hold read 0 (R37). -/
theorem kindWord_reserved (k : SrcKind) : (kindWord k).extractLsb' 2 30 = 0 := by
  cases k <;> decide

/-- A write to SRC_KIND stores `d[1:0]` alone (R41). -/
theorem kindOfWord_congr {d e : Word} (h : d.extractLsb' 0 2 = e.extractLsb' 0 2) :
    kindOfWord d = kindOfWord e := by
  rw [kindOfWord, kindOfWord, h]

theorem regRead_status (s : State) : regRead 0x00C 32 s = statusWord s :=
  regRead_held (r := .status) rfl

theorem regRead_srcKind (s : State) : regRead 0x010 32 s = kindWord s.kind :=
  regRead_held (r := .srcKind) rfl

theorem regWrite_srcKind (d : Word) (s : State) :
    regWrite 0x010 32 d s = .next (descriptorWrite (fun t => { t with kind := kindOfWord d }) s) :=
  regWrite_reg .srcKind d s

/-- Settles O14: a reserved offset leads to no register, and a reserved field is 0 in what is read. -/
theorem reservedSpaceReadsZero : Obligations.ReservedSpaceReadsZero := by
  refine ⟨fun ra d s hres => ?_, fun s => ?_, fun s d e hde => ?_⟩
  · by_cases hw : wholeWord ra 32 = true
    · have hnone := regAt_reserved (wholeWord_iff.mp hw).2 hres
      exact ⟨regRead_reserved hnone 32 s, regWrite_reserved hnone 32 d s⟩
    · have hpart : wholeWord ra 32 = false := by simpa using hw
      exact ⟨regRead_partial hpart s, regWrite_partial hpart d s⟩
  · obtain ⟨_, _, _, _, _, res5, _, res12, _, res18, _, res22⟩ := statusWord_fields s
    rw [regRead_status, regRead_srcKind]
    exact ⟨kindWord_reserved s.kind, res5, res12, res18, res22⟩
  · rw [regWrite_srcKind, regWrite_srcKind, kindOfWord_congr hde]

/-- The registers that hold the descriptor and ARG (R44). -/
def descriptorRegs : List Reg :=
  [.srcKind, .srcBaseLo, .srcBaseHi, .srcLenLo, .srcLenHi, .srcWoffLo, .srcWoffHi, .argLo, .argHi]

theorem descriptorWrite_busy {s : State} (h : s.busy = true) (update : State → State) :
    descriptorWrite update s = dropWrite s := by
  simp [descriptorWrite, h]

theorem descriptorWrite_ready {s : State} (h : s.busy = false) (update : State → State) :
    descriptorWrite update s = update s := by
  simp [descriptorWrite, h]

/-- Each of these registers is written through the guard of R44. -/
theorem writeReg_descriptor {r : Reg} (h : r ∈ descriptorRegs) (d : Word) :
    ∃ update, ∀ s, writeReg r d s = .next (descriptorWrite update s) := by
  simp only [descriptorRegs, List.mem_cons, List.not_mem_nil, or_false] at h
  rcases h with rfl | rfl | rfl | rfl | rfl | rfl | rfl | rfl | rfl <;> exact ⟨_, fun _ => rfl⟩

theorem kindWord_kindOfWord (d : Word) : kindWord (kindOfWord d) = d &&& 3 := by
  have hmod : d &&& 3 = BitVec.ofNat 32 (d.extractLsb' 0 2).toNat := by
    apply BitVec.eq_of_toNat_eq
    rw [BitVec.toNat_and, BitVec.toNat_ofNat, BitVec.extractLsb'_toNat]
    exact (Nat.and_two_pow_sub_one_eq_mod d.toNat 2).trans (by omega)
  rw [hmod, kindOfWord]
  generalize d.extractLsb' 0 2 = k
  revert k
  decide

/-- Settles O10: while BUSY the guard drops the write, else the half written replaces the old one. -/
theorem descriptorWritesAreGuarded : Obligations.DescriptorWritesAreGuarded := by
  refine ⟨fun s d hb ra hra => ?_, fun s d hb => ?_, kindWord_kindOfWord⟩
  · obtain ⟨r, hr, rfl⟩ : ∃ r ∈ descriptorRegs, BitVec.ofNat 12 (regOffset r) = ra :=
      List.mem_map.mp hra
    obtain ⟨update, hw⟩ := writeReg_descriptor hr d
    rw [regWrite_reg, hw, descriptorWrite_busy hb]
    rfl
  · have take : ∀ update : State → State, Host.Outcome.next (descriptorWrite update s)
        = Host.Outcome.next (φ := Fault) (ρ := Refusal) (update s) :=
      fun update => congrArg Host.Outcome.next (descriptorWrite_ready hb update)
    exact ⟨(regWrite_reg .srcKind d s).trans (take _), (regWrite_reg .srcBaseLo d s).trans (take _),
      (regWrite_reg .srcBaseHi d s).trans (take _), (regWrite_reg .srcLenLo d s).trans (take _),
      (regWrite_reg .srcLenHi d s).trans (take _), (regWrite_reg .srcWoffLo d s).trans (take _),
      (regWrite_reg .srcWoffHi d s).trans (take _), (regWrite_reg .argLo d s).trans (take _),
      (regWrite_reg .argHi d s).trans (take _)⟩

/-! ## What the host reads (R45 to R56) -/

/-- The two halves of a 64-bit register, read one after the other (R40). -/
theorem regRead_halves {lo hi : Reg} {s : State} {v : DWord} (hlo : holdsValue s lo = true)
    (hhi : holdsValue s hi = true) (el : contents s lo = lowHalf v) (eh : contents s hi = highHalf v) :
    regRead (BitVec.ofNat 12 (regOffset hi)) 32 s ++ regRead (BitVec.ofNat 12 (regOffset lo)) 32 s
      = v := by
  rw [regRead_held hlo, regRead_held hhi, el, eh, halves_append]

theorem step_regRead {s : State} {ra : BitVec 12} {bits : Nat} {rest : List HostAction}
    (h : s.host = .regRead ra bits :: rest) :
    step s = .next { s with
      host := rest, replies := regRead ra bits s :: s.replies, draws := s.draws + 1 } :=
  step_cons h

/-- The lane of VBUF behind `VBUF_j` is lane `j % 8` of row `j / 8` (R54). -/
theorem contents_vbuf (s : State) (g : Fin 4) (i : Fin 8) (hj : 8 * g.val + i.val < 32) :
    contents s (.vbuf ⟨8 * g.val + i.val, hj⟩) = s.vbuf.get g i := by
  have hg : Fin.ofNat 4 ((8 * g.val + i.val) / L) = g := Fin.ext (by simp [Fin.ofNat, L]; omega)
  have hi : Fin.ofNat 8 (8 * g.val + i.val) = i := Fin.ext (by simp [Fin.ofNat])
  rw [contents, hg, hi]

/-- Settles O16, register by register. -/
theorem hostReadsReturnTheRegisters : Obligations.HostReadsReturnTheRegisters := by
  refine ⟨fun s => ?fixed, fun s => ?scalars, fun s g i => ?lanes, fun s ra bits rest => step_regRead⟩
  case fixed =>
    exact ⟨regRead_held (r := .id) rfl, regRead_held (r := .param) rfl, regRead_status s,
      regRead_srcKind s,
      regRead_halves (lo := .srcBaseLo) (hi := .srcBaseHi) rfl rfl rfl rfl,
      regRead_halves (lo := .srcLenLo) (hi := .srcLenHi) rfl rfl rfl rfl,
      regRead_halves (lo := .srcWoffLo) (hi := .srcWoffHi) rfl rfl rfl rfl,
      regRead_halves (lo := .argLo) (hi := .argHi) rfl rfl rfl rfl,
      regRead_halves (lo := .offsetLo) (hi := .offsetHi) rfl rfl rfl rfl,
      regRead_halves (lo := .errOffLo) (hi := .errOffHi) rfl rfl rfl rfl,
      regRead_held (r := .errWidth) rfl⟩
  case scalars =>
    exact ⟨fun h => regRead_held (r := .result) h, fun h => regRead_held (r := .sh) h,
      fun h => regRead_held (r := .rdata) h, fun h => regRead_held (r := .carry) h⟩
  case lanes =>
    have hj : 8 * g.val + i.val < 32 := by omega
    exact ⟨fun h => regRead_held (r := .acc g i) h, fun h => regRead_held (r := .coeff g i) h,
      fun h => (regRead_held (r := .vbuf ⟨_, hj⟩) (decide_eq_true h)).trans (contents_vbuf s g i hj)⟩

/-- Settles O18: what a read returns depends on whether the register holds a value. -/
theorem unheldRegistersReadAsDraws : Obligations.UnheldRegistersReadAsDraws := by
  refine ⟨fun s r h => ?_, fun r => ?_, fun s ra bits rest t hh ht => ?_⟩
  · rw [regRead_reg, h]
    rfl
  · cases r <;> simp [holdsValue, State.reset, Written.nothing]
  · rw [step_regRead hh, Host.Outcome.next.injEq] at ht
    subst ht
    exact Nat.succ_ne_self _

/-! ## A command word written to CMD (R39) -/

theorem exec_busy (i : Instr) {s : State} (hb : s.busy = true) : exec i s = .next (dropWrite s) := by
  rw [exec_eq, present_busy hb]

/-- FAULT drops every command but NOP and CLR. -/
theorem exec_inFault {i : Instr} {s : State} (hb : s.busy = false) (hp : s.phase = .fault)
    (hn : i ≠ .nop) (hc : i ≠ .clr) : exec i s = .next (dropWrite s) := by
  cases i with
  | nop => exact absurd rfl hn
  | clr => exact absurd rfl hc
  | _ => exact congrArg Host.Outcome.next (present_fault hb hp)

theorem presentWord_busy (w : Word) {s : State} (hb : s.busy = true) :
    presentWord w s = .next (dropWrite s) := by
  cases hd : decode w with
  | ok i => rw [presentWord_ok hd, exec_busy i hb]
  | error e => rw [presentWord_illegal hd, present_busy hb]

/-- FAULT drops every word but NOP's and CLR's, ILLEGAL ones too. -/
theorem presentWord_inFault {w : Word} {s : State} (hb : s.busy = false) (hp : s.phase = .fault)
    (hn : decode w ≠ .ok .nop) (hc : decode w ≠ .ok .clr) :
    presentWord w s = .next (dropWrite s) := by
  cases hd : decode w with
  | ok i =>
    rw [presentWord_ok hd, exec_inFault hb hp (fun e => hn (e ▸ hd)) fun e => hc (e ▸ hd)]
  | error e => rw [presentWord_illegal hd, present_fault hb hp]

/-- Settles O9, by BUSY, PHASE and what the word decodes to. -/
theorem commandWordAcceptance : Obligations.CommandWordAcceptance := by
  refine ⟨fun s w => presentWord_busy w, fun s w hb hp => ⟨fun hd => ?nop, fun hd => ?clr,
      presentWord_inFault hb hp⟩, fun s w ha => ⟨fun i hd => presentWord_ok hd s, fun hnone => ?_⟩,
    fun i s => exec_busy i, fun i s => exec_inFault⟩
  case nop | clr =>
    rw [regWrite_cmd, presentWord_ok hd, exec_eq]
    exact congrArg Host.Outcome.next (present_fault_accepted hb)
  · cases hd : decode w with
    | ok i => exact absurd hd (hnone i)
    | error e => rw [regWrite_cmd, presentWord_illegal hd, present_accepting ha]

theorem decode_encode {i : Instr} (h : i.wellFormed = true) : decode (encode i) = .ok i := by
  cases i with
  | rdblk wsel =>
    have hw : wsel < 4 := of_decide_eq_true h
    interval_cases wsel <;> rfl
  | _ => rfl

theorem step_regWrite {s : State} {rest : List HostAction} {ra : BitVec 12} {bits : Nat} {d : Word}
    (h : s.host = .regWrite ra bits d :: rest) :
    step s = mapNext nextDraw (regWrite ra bits d { s with host := rest }) :=
  step_cons h

/-- A step on a written command word that decodes to a command. -/
theorem step_cmdWord {s : State} {rest : List HostAction} {w : Word} {i : Instr}
    (hh : s.host = .regWrite cmdOffset 32 w :: rest) (hd : decode w = .ok i) :
    step s = mapNext nextDraw (exec i { s with host := rest }) := by
  rw [step_regWrite hh, regWrite_cmd, presentWord_ok hd]

/-- The word that is placed is the next one the host writes. -/
theorem withFetchWord_eq (s : State) (w : Word) :
    s.withFetchWord 32 w.toNat = { s with host := .regWrite cmdOffset 32 w :: s.host } := by
  have hword : BitVec.ofNat 32 (w.toNat % 2 ^ 32) = w := by
    rw [Nat.mod_eq_of_lt w.isLt, BitVec.ofNat_toNat, BitVec.setWidth_eq]
  rw [State.withFetchWord, hword]

/-- Settles O6: the word that the host writes next is presented to CMD. -/
theorem stepRunsThePresentedCommand : Obligations.StepRunsThePresentedCommand := by
  refine ⟨fun s rest w i hh hd _ => step_cmdWord hh hd, fun s i hwf => ?_,
    fun s rest ra bits d => step_regWrite⟩
  rw [withFetchWord_eq]
  exact step_cmdWord rfl (decode_encode hwf)

/-! What a step can do, said once for a state and for every state with the same control: the error record a command
raises with, or the state in which it completes (R170 to R175); then every move of the machine (R20, R39, R151). -/

/-! ## Control and payload -/

/-- The contents of a state that no test of a command looks at: the data registers of R56, and OVR (R33). -/
structure Payload where
  coeff : Bank
  carry : Word
  h : Bank
  sh : Word
  result : Word
  rdata : Word
  vbuf : Bank
  ovr : Bool

def withPayload (p : Payload) (s : State) : State :=
  { s with
    coeff := p.coeff, carry := p.carry, h := p.h, sh := p.sh, result := p.result
    rdata := p.rdata, vbuf := p.vbuf, ovr := p.ovr }

/-- A state's own payload: `withPayload (payloadOf s) s` is `s`, by definition. -/
def payloadOf (s : State) : Payload :=
  ⟨s.coeff, s.carry, s.h, s.sh, s.result, s.rdata, s.vbuf, s.ovr⟩

/-! ## The body of a command: it raises, or it completes -/

/-- An error and a record that the table of R171 allows it. -/
def ErrorRecord (c : ErrCode) (off : DWord) (w : Nat) : Prop :=
  c ≠ .none ∧ recordFits c off (BitVec.ofNat 32 w)

/-- The state a command leaves when it meets no error condition. -/
def completed : Instr → State → State
  | .nop, s => s
  | .cinit, s => cinitBody s
  | .ainit, s => ainitBody s
  | .blk, s => foldedBlock s
  | .red, s => { s with sh := reduceAll s.h, phase := .scalar }
  | .tail, s =>
    { s with
      sh := foldByte s.sh (byteSeen s (srcAddr s s.offset.toNat))
      offset := s.offset + 1
      reads := ⟨srcAddr s s.offset.toNat, 1⟩ :: s.reads }
  | .fin, s =>
    { s with result := s.sh, done := true, phase := .idle, written := { s.written with result := true } }
  | .hash, s => { s with done := false, hseq := .init }
  | .rdbyte, s =>
    { s with
      rdata := zext32 (byteSeen s (srcAddr s s.arg.toNat))
      written := { s.written with rdata := true }
      reads := ⟨srcAddr s s.arg.toNat, 1⟩ :: s.reads }
  | .rdblk wsel, s =>
    let w := if wsel = 0 then L else B
    { s with
      vbuf := vbufWith s.vbuf w (bytesSeen s (srcAddr s s.arg.toNat) w)
      written := { s.written with vbufLanes := max s.written.vbufLanes w }
      reads := ⟨srcAddr s s.arg.toNat, w⟩ :: s.reads }
  | .clr, s => clearFault s

/-- Whatever the payload of `s`, the body raises one and the same error. -/
def RaisesFrom (body : State → State) (s : State) : Prop :=
  ∃ c off w r, ErrorRecord c off w ∧
    ∀ p, body (withPayload p s) = raise c off w { withPayload p s with reads := r }

/-- Whatever the payload of `s`, the body completes. -/
def CompletesFrom (i : Instr) (s : State) : Prop :=
  (∀ c, ¬meets i s c) ∧ ∀ p, bodyOf i (withPayload p s) = completed i (withPayload p s)

/-- A body that raises before it has read anything. -/
theorem raisesFrom_unread {body : State → State} {s : State} {c : ErrCode} {off : DWord} {w : Nat}
    (he : ErrorRecord c off w)
    (h : ∀ p, body (withPayload p s) = raise c off w (withPayload p s)) : RaisesFrom body s :=
  ⟨c, off, w, s.reads, he, h⟩

theorem blkBody_decided (s : State) : RaisesFrom blkBody s ∨ CompletesFrom .blk s := by
  by_cases hp : s.phase = .acc
  swap
  · exact .inl (raisesFrom_unread (c := .seq) ⟨by decide, rfl, rfl⟩ fun _ => if_pos hp)
  have hp' : ¬s.phase ≠ .acc := not_not.mpr hp
  by_cases hc : s.ctValid = false
  · exact .inl (raisesFrom_unread (c := .noTable) ⟨by decide, rfl, rfl⟩ fun _ =>
      (if_neg hp').trans (if_pos hc))
  by_cases hk : s.kind = .reserved
  · exact .inl (raisesFrom_unread (c := .kind) ⟨by decide, rfl, rfl⟩ fun _ =>
      (if_neg hp').trans ((if_neg hc).trans (if_pos hk)))
  by_cases hr : srcLength s < s.offset.toNat + B
  · exact .inl (raisesFrom_unread (c := .range) ⟨by decide, .inr (.inr rfl)⟩ fun _ =>
      (if_neg hp').trans ((if_neg hc).trans ((if_neg hk).trans (if_pos hr))))
  have ready : ∀ p, blkBody (withPayload p s) = readAndFoldBlock (withPayload p s) := fun _ =>
    (if_neg hp').trans ((if_neg hc).trans ((if_neg hk).trans (if_neg hr)))
  by_cases ha : ∀ g : Fin 4, ¬refusedRead s (subBlockAddr s g.val) L
  · refine .inr ⟨fun c hm => ?_, fun p =>
      (ready p).trans (readAndFoldBlock_admitted (s := withPayload p s) ha)⟩
    cases c with
    | seq => exact hm hp
    | noTable => exact hc hm
    | kind => exact hk hm
    | range => exact hr hm
    | bus => exact hm.elim ha
    | none | illegal | width => exact hm
  · obtain ⟨g, hg, hl⟩ := first_refused ha
    exact .inl ⟨.bus, s.offset + BitVec.ofNat 64 (g.val * L), L,
      requestFor (subBlockAddr s g.val) L ++ (blockRequests s g.val ++ s.reads),
      ⟨by decide, .inr (.inl rfl)⟩, fun p =>
        (ready p).trans (readAndFoldBlock_refused (s := withPayload p s) hg hl)⟩

/-- A command that goes on with the bytes of its read. -/
def afterRead (use : List Byte → State → State) : Access → State
  | .raised s => s
  | .got bytes s => use bytes s

/-- An adapter read: the tests of R117 and the platform's answer do not depend on the payload. -/
theorem srcRead_decided (off : DWord) {w : Nat} (hw : w = 1 ∨ w = L ∨ w = B) (s : State) :
    (∃ c o n r, ErrorRecord c o n ∧ ∀ p,
      srcRead off w (withPayload p s) = .raised (raise c o n { withPayload p s with reads := r })) ∨
    ((s.kind ≠ .reserved ∧ off.toNat + w ≤ srcLength s ∧ ¬refusedRead s (srcAddr s off.toNat) w) ∧
      ∀ p, srcRead off w (withPayload p s) =
        .got (bytesSeen s (srcAddr s off.toNat) w)
          ((withPayload p s).request (srcAddr s off.toNat) w)) := by
  have fits : BitVec.ofNat 32 w = 1 ∨ BitVec.ofNat 32 w = 8 ∨ BitVec.ofNat 32 w = 32 :=
    hw.imp (congrArg _) (Or.imp (congrArg _) (congrArg _))
  rcases srcRead_cases off w s with ⟨hk, _⟩ | ⟨hk, hr, _⟩ | ⟨hk, hr, hb, _⟩ | ⟨hk, hr, hb, _⟩
  · exact .inl ⟨.kind, 0, 0, s.reads, ⟨by decide, rfl, rfl⟩, fun p =>
      srcRead_kind (s := withPayload p s) hk⟩
  · exact .inl ⟨.range, off, w, s.reads, ⟨by decide, fits⟩, fun p =>
      srcRead_range (s := withPayload p s) hk hr⟩
  · exact .inl ⟨.bus, off, w, requestFor (srcAddr s off.toNat) w ++ s.reads, ⟨by decide, fits⟩,
      fun p => srcRead_refused (s := withPayload p s) hk hr hb⟩
  · exact .inr ⟨⟨hk, hr, hb⟩, fun p => srcRead_got (s := withPayload p s) hk hr hb⟩

/-- A command whose body is one adapter read and what it does with the bytes. -/
theorem adapter_decided {i : Instr} {s : State} {off : DWord} {w : Nat}
    {use : List Byte → State → State} (hw : w = 1 ∨ w = L ∨ w = B)
    (hbody : ∀ p, bodyOf i (withPayload p s) = afterRead use (srcRead off w (withPayload p s)))
    (hmeets : s.kind ≠ .reserved → off.toNat + w ≤ srcLength s →
      ¬refusedRead s (srcAddr s off.toNat) w → ∀ c, ¬meets i s c)
    (huse : ∀ p, use (bytesSeen s (srcAddr s off.toNat) w)
      ((withPayload p s).request (srcAddr s off.toNat) w) = completed i (withPayload p s)) :
    RaisesFrom (bodyOf i) s ∨ CompletesFrom i s := by
  rcases srcRead_decided off hw s with ⟨c, o, n, r, he, h⟩ | ⟨⟨hk, hr, hb⟩, h⟩
  · exact .inl ⟨c, o, n, r, he, fun p => by rw [hbody, h, afterRead]⟩
  · exact .inr ⟨hmeets hk hr hb, fun p => by rw [hbody, h, afterRead, huse]⟩

theorem tailBody_decided (s : State) : RaisesFrom tailBody s ∨ CompletesFrom .tail s := by
  by_cases hp : s.phase = .scalar
  swap
  · exact .inl (raisesFrom_unread (c := .seq) ⟨by decide, rfl, rfl⟩ fun _ => if_pos hp)
  refine adapter_decided (i := .tail) (off := s.offset) (.inl rfl)
    (use := fun bytes t => { t with sh := foldByte t.sh (bytes.getD 0 0), offset := t.offset + 1 })
    (fun _ => if_neg (not_not.mpr hp)) (fun hk hr hb c hm => ?meets) fun p => ?use
  case meets =>
    cases c with
    | seq => exact hm hp
    | kind => exact hk hm
    | range => exact absurd hr (Nat.not_le.mpr (Nat.lt_succ_of_le hm))
    | bus => exact hb hm
    | none | illegal | noTable | width => exact hm
  case use =>
    simp only [bytesSeen_getD Nat.zero_lt_one]
    rfl

theorem rdbyteBody_decided (s : State) : RaisesFrom rdbyteBody s ∨ CompletesFrom .rdbyte s := by
  refine adapter_decided (i := .rdbyte) (off := s.arg) (.inl rfl)
    (use := fun bytes t =>
      { t with rdata := zext32 (bytes.getD 0 0), written := { t.written with rdata := true } })
    (fun _ => rfl) (fun hk hr hb c hm => ?meets) fun p => ?use
  case meets =>
    cases c with
    | kind => exact hk hm
    | range => exact absurd hr (Nat.not_le.mpr (Nat.lt_succ_of_le hm))
    | bus => exact hb hm
    | none | illegal | seq | noTable | width => exact hm
  case use =>
    simp only [bytesSeen_getD Nat.zero_lt_one]
    rfl

/-- WSEL selects L or B bytes, or it is reserved (R82). -/
theorem selectedWidth_cases (wsel : Nat) :
    ((wsel = 0 ∨ wsel = 1) ∧ selectedWidth wsel = some (if wsel = 0 then L else B)) ∨
      ((wsel ≠ 0 ∧ wsel ≠ 1) ∧ selectedWidth wsel = none) := by
  match wsel with
  | 0 => exact .inl ⟨.inl rfl, rfl⟩
  | 1 => exact .inl ⟨.inr rfl, rfl⟩
  | n + 2 => exact .inr ⟨by omega, rfl⟩

theorem rdblkBody_decided (wsel : Nat) (s : State) :
    RaisesFrom (rdblkBody wsel) s ∨ CompletesFrom (.rdblk wsel) s := by
  rcases selectedWidth_cases wsel with ⟨hsel, hw⟩ | ⟨_, hw⟩
  swap
  · exact .inl (raisesFrom_unread (c := .width) ⟨by decide, rfl, rfl⟩ fun _ => by
      simp only [rdblkBody, hw])
  refine adapter_decided (i := .rdblk wsel) (off := s.arg) (w := if wsel = 0 then L else B)
    (use := fun bytes t =>
      { t with
        vbuf := vbufWith t.vbuf (if wsel = 0 then L else B) bytes
        written := { t.written with vbufLanes := max t.written.vbufLanes (if wsel = 0 then L else B) } })
    ?width (fun p => ?body) (fun hk hr hb c hm => ?meets) fun _ => rfl
  case width =>
    rcases hsel with rfl | rfl
    · exact .inr (.inl rfl)
    · exact .inr (.inr rfl)
  case body =>
    simp only [bodyOf, rdblkBody, hw]
    rfl
  case meets =>
    cases c with
    | width => exact hsel.elim hm.1 hm.2
    | kind => exact hk hm
    | range => exact absurd hr (Nat.not_le.mpr hm)
    | bus => exact hb hm
    | none | illegal | seq | noTable => exact hm

theorem redBody_decided (s : State) : RaisesFrom redBody s ∨ CompletesFrom .red s := by
  by_cases hp : s.phase = .acc
  · refine .inr ⟨fun c hm => ?_, fun _ => if_neg (not_not.mpr hp)⟩
    cases c with
    | seq => exact hm hp
    | _ => exact hm
  · exact .inl (raisesFrom_unread (c := .seq) ⟨by decide, rfl, rfl⟩ fun _ => if_pos hp)

theorem finBody_decided (s : State) : RaisesFrom finBody s ∨ CompletesFrom .fin s := by
  by_cases hp : s.phase = .scalar
  · refine .inr ⟨fun c hm => ?_, fun _ => if_neg (not_not.mpr hp)⟩
    cases c with
    | seq => exact hm hp
    | _ => exact hm
  · exact .inl (raisesFrom_unread (c := .seq) ⟨by decide, rfl, rfl⟩ fun _ => if_pos hp)

theorem hashBody_decided (s : State) : RaisesFrom hashBody s ∨ CompletesFrom .hash s := by
  by_cases hk : s.kind = .reserved
  · exact .inl (raisesFrom_unread (c := .kind) ⟨by decide, rfl, rfl⟩ fun _ => if_pos hk)
  · refine .inr ⟨fun c hm => ?_, fun _ => if_neg hk⟩
    cases c with
    | kind => exact hk hm
    | _ => exact hm

/-- Every body raises or completes, and the control of the state alone decides which. -/
theorem bodyOf_decided (i : Instr) (s : State) : RaisesFrom (bodyOf i) s ∨ CompletesFrom i s := by
  cases i with
  | nop | cinit | ainit | clr => exact .inr ⟨fun c => by cases c <;> exact id, fun _ => rfl⟩
  | blk => exact blkBody_decided s
  | red => exact redBody_decided s
  | tail => exact tailBody_decided s
  | fin => exact finBody_decided s
  | hash => exact hashBody_decided s
  | rdbyte => exact rdbyteBody_decided s
  | rdblk wsel => exact rdblkBody_decided wsel s

/-- The same for the state itself. -/
theorem bodyOf_cases (i : Instr) (s : State) :
    (∃ c off w r, ErrorRecord c off w ∧ bodyOf i s = raise c off w { s with reads := r }) ∨
      ((∀ c, ¬meets i s c) ∧ bodyOf i s = completed i s) :=
  (bodyOf_decided i s).imp
    (fun ⟨c, off, w, r, he, h⟩ => ⟨c, off, w, r, he, h (payloadOf s)⟩)
    fun ⟨hm, h⟩ => ⟨hm, h (payloadOf s)⟩

/-! What a completed command has not met. -/

theorem blk_unmet {s : State} (h : ∀ c, ¬meets .blk s c) :
    s.phase = .acc ∧ s.ctValid = true ∧ s.kind ≠ .reserved ∧ s.offset.toNat + B ≤ srcLength s :=
  ⟨not_not.mp (h .seq), by simpa using h .noTable, h .kind, Nat.not_lt.mp (h .range)⟩

theorem red_unmet {s : State} (h : ∀ c, ¬meets .red s c) : s.phase = .acc := not_not.mp (h .seq)

theorem tail_unmet {s : State} (h : ∀ c, ¬meets .tail s c) :
    s.phase = .scalar ∧ s.kind ≠ .reserved ∧ s.offset.toNat + 1 ≤ srcLength s :=
  ⟨not_not.mp (h .seq), h .kind, Nat.lt_of_not_le (h .range)⟩

theorem fin_unmet {s : State} (h : ∀ c, ¬meets .fin s c) : s.phase = .scalar := not_not.mp (h .seq)

theorem hash_unmet {s : State} (h : ∀ c, ¬meets .hash s c) : s.kind ≠ .reserved := h .kind

/-! ## The micro-steps (R151) -/

/-- HSEQ is moved on already, or the body raised. -/
theorem thenGoTo_self {q : Hseq} {s : State} (h : s.hseq = q ∨ s.phase = .fault) :
    thenGoTo q s = s := by
  unfold thenGoTo
  split
  · rfl
  · next hp =>
    rw [← h.resolve_right hp]

/-- A micro-step is the body of the sequencer's command, and then HSEQ moves on. -/
theorem microStep_eq (s : State) :
    microStep s = thenGoTo (sequencerNext s) (bodyOf (sequencerCommand s) s) := by
  have held : ∀ i, (completed i s).hseq = s.hseq →
      (bodyOf i s).hseq = s.hseq ∨ (bodyOf i s).phase = .fault := fun i hi => by
    rcases bodyOf_cases i s with ⟨_, _, _, _, _, e⟩ | ⟨_, e⟩
    · exact .inr (e ▸ rfl)
    · exact .inl (e ▸ hi)
  cases hq : s.hseq with
  | none =>
    simp only [microStep, sequencerNext, sequencerCommand, hq]
    exact (thenGoTo_self (hq ▸ held .nop rfl)).symm
  | init =>
    by_cases hc : s.ctValid = false
    · simp only [microStep, sequencerNext, sequencerCommand, hq, if_pos hc]
      exact (thenGoTo_self (hq ▸ held .cinit rfl)).symm
    · simp only [microStep, sequencerNext, sequencerCommand, hq, if_neg hc, bodyOf]
  | bloop =>
    by_cases ho : s.offset.toNat + B ≤ srcLength s
    · simp only [microStep, sequencerNext, sequencerCommand, hq, if_pos ho]
      exact (thenGoTo_self (hq ▸ held .blk rfl)).symm
    · simp only [microStep, sequencerNext, sequencerCommand, hq, if_neg ho, bodyOf]
  | tloop =>
    by_cases ho : s.offset.toNat < srcLength s
    · simp only [microStep, sequencerNext, sequencerCommand, hq, if_pos ho]
      exact (thenGoTo_self (hq ▸ held .tail rfl)).symm
    · simp only [microStep, sequencerNext, sequencerCommand, hq, if_neg ho, bodyOf]

/-! ## The moves of the machine -/

/-- What one event or one turn can do to the state it finds, as an update that looks at no payload of `s` to be chosen. -/
inductive Move (s : State) : (State → State) → Prop
  /-- The state is held: NOP, and every ignored access. -/
  | hold : Move s id
  /-- A dropped write (R33). -/
  | drop : Move s dropWrite
  /-- A fault is taken (R172). -/
  | fault {c : ErrCode} {off : DWord} {w : Nat} (r : List MemRequest) (record : ErrorRecord c off w) :
    Move s fun u => raise c off w { u with reads := r }
  /-- An accepted command completes; of those that change the state, FAULT accepts CLR alone (R39). -/
  | command {i : Instr} (ready : s.busy = false) (inFault : s.phase = .fault → i = .clr)
      (unmet : ∀ c, ¬meets i s c) : Move s (completed i)
  /-- A micro-step completes, and HSEQ moves on (R151). -/
  | micro (busy : s.busy = true) (unmet : ∀ c, ¬meets (sequencerCommand s) s c) :
    Move s fun u => { completed (sequencerCommand s) u with hseq := sequencerNext s }
  /-- The descriptor or ARG is written (R44). -/
  | descriptor (ready : s.busy = false) (k : SrcKind) (b l w a : DWord) :
    Move s fun u => { u with kind := k, base := b, len := l, woff := w, arg := a }
  /-- The host reads a register (R21). -/
  | reply (ra : BitVec 12) (bits : Nat) :
    Move s fun u => { u with replies := regRead ra bits u :: u.replies }
  /-- The reset input (R190). -/
  | reset : Move s applyReset
  /-- Another agent begins or completes a store (R71, R72). -/
  | memory (m : Memory) (keepsForm : s.mem.wf = true → m.wf = true) : Move s fun u => { u with mem := m }

/-- Whatever the payload of `s`, the operation makes one and the same move of `s`. -/
def MovesFrom (op : State → Host.Outcome State Fault Refusal) (s : State) : Prop :=
  ∃ f, Move s f ∧ ∀ p, op (withPayload p s) = .next (f (withPayload p s))

theorem movesFrom_drop {op : State → Host.Outcome State Fault Refusal} {s : State}
    (h : ∀ p, op (withPayload p s) = .next (dropWrite (withPayload p s))) : MovesFrom op s :=
  ⟨_, .drop, h⟩

theorem exec_moves (i : Instr) (s : State) : MovesFrom (exec i) s := by
  by_cases hb : s.busy = true
  · exact movesFrom_drop fun p => exec_busy i (s := withPayload p s) hb
  have hb' : s.busy = false := by simpa using hb
  by_cases hp : s.phase = .fault
  · by_cases hn : i = .nop
    · exact ⟨_, .hold, fun p => by
        rw [exec_eq, hn]
        exact congrArg Host.Outcome.next (present_fault_accepted (s := withPayload p s) hb')⟩
    by_cases hc : i = .clr
    · refine ⟨_, .command (i := .clr) hb' (fun _ => rfl) (fun c => by cases c <;> exact id), fun p => ?_⟩
      rw [exec_eq, hc]
      exact congrArg Host.Outcome.next (present_fault_accepted (s := withPayload p s) hb')
    · exact movesFrom_drop fun p => exec_inFault (s := withPayload p s) hb' hp hn hc
  · have accepted : ∀ p, exec i (withPayload p s) = .next (bodyOf i (withPayload p s)) := fun p =>
      exec_accepting i (s := withPayload p s) ⟨hb', hp⟩
    rcases bodyOf_decided i s with ⟨c, off, w, r, he, h⟩ | ⟨hm, h⟩
    · exact ⟨_, .fault r he, fun p => by rw [accepted, h]⟩
    · exact ⟨_, .command hb' (fun e => absurd e hp) hm, fun p => by rw [accepted, h]⟩

theorem presentWord_moves (w : Word) (s : State) : MovesFrom (presentWord w) s := by
  cases hd : decode w with
  | ok i =>
    obtain ⟨f, hf, h⟩ := exec_moves i s
    exact ⟨f, hf, fun p => (presentWord_ok hd _).trans (h p)⟩
  | error e =>
    have illegal := fun p => presentWord_illegal hd (withPayload p s)
    by_cases hb : s.busy = true
    · exact movesFrom_drop fun p => by rw [illegal, present_busy (s := withPayload p s) hb]
    have hb' : s.busy = false := by simpa using hb
    by_cases hp : s.phase = .fault
    · exact movesFrom_drop fun p => by rw [illegal, present_fault (s := withPayload p s) hb' hp]
    · refine ⟨_, .fault (c := .illegal) (off := 0) (w := 0) s.reads ⟨by decide, rfl, rfl⟩, fun p => ?_⟩
      rw [illegal, present_accepting (s := withPayload p s) ⟨hb', hp⟩]
      rfl

/-- A guarded write that changes the descriptor and ARG alone, to what it makes of those of `s`. -/
theorem descriptorWrite_moves {update : State → State} {s : State}
    (h : ∀ p, update (withPayload p s) =
      { withPayload p s with
        kind := (update s).kind, base := (update s).base, len := (update s).len
        woff := (update s).woff, arg := (update s).arg }) :
    MovesFrom (fun u => .next (descriptorWrite update u)) s := by
  by_cases hb : s.busy = true
  · exact movesFrom_drop fun p =>
      congrArg Host.Outcome.next (descriptorWrite_busy (s := withPayload p s) hb update)
  · have hb' : s.busy = false := by simpa using hb
    exact ⟨_, .descriptor hb' _ _ _ _ _, fun p =>
      congrArg Host.Outcome.next ((descriptorWrite_ready (s := withPayload p s) hb' update).trans (h p))⟩

theorem writeReg_moves (r : Reg) (d : Word) (s : State) : MovesFrom (writeReg r d) s := by
  cases r with
  | cmd => exact presentWord_moves d s
  | srcKind | srcBaseLo | srcBaseHi | srcLenLo | srcLenHi | srcWoffLo | srcWoffHi | argLo | argHi =>
    exact descriptorWrite_moves fun _ => rfl
  | _ => exact ⟨_, .hold, fun _ => rfl⟩

theorem regWrite_moves (ra : BitVec 12) (bits : Nat) (d : Word) (s : State) :
    MovesFrom (regWrite ra bits d) s := by
  cases hw : wholeWord ra bits with
  | false => exact ⟨_, .hold, fun _ => regWrite_partial hw d _⟩
  | true =>
    cases hr : regAt ra.toNat with
    | none => exact ⟨_, .hold, fun _ => regWrite_reserved hr bits d _⟩
    | some r =>
      obtain ⟨f, hf, h⟩ := writeReg_moves r d s
      exact ⟨f, hf, fun p => (regWrite_at hw hr d _).trans (h p)⟩

/-- HSEQ moves on after the completed command, or stands where it is to go (R151). -/
theorem thenGoTo_completed {s : State} (hb : s.busy = true) (p : Payload) :
    thenGoTo (sequencerNext s) (completed (sequencerCommand s) (withPayload p s)) =
      { completed (sequencerCommand s) (withPayload p s) with hseq := sequencerNext s } := by
  have moved : ∀ {t : State}, t.phase ≠ .fault → thenGoTo (sequencerNext s) t =
      { t with hseq := sequencerNext s } := fun h => if_neg h
  have stood : ∀ {t : State}, t.hseq = sequencerNext s → thenGoTo (sequencerNext s) t =
      { t with hseq := sequencerNext s } := fun {t} h => by rw [thenGoTo_self (.inl h), ← h]
  cases hq : s.hseq with
  | none => exact absurd hq (busy_iff.mp hb)
  | init =>
    by_cases hc : s.ctValid = false
    · exact stood (by simp [sequencerNext, sequencerCommand, hq, hc, completed, withPayload])
    · exact moved (by simp [sequencerCommand, hq, hc, completed])
  | bloop =>
    by_cases ho : s.offset.toNat + B ≤ srcLength s
    · exact stood (by simp [sequencerNext, sequencerCommand, hq, ho, completed, foldedBlock, withPayload])
    · exact moved (by simp [sequencerCommand, hq, ho, completed])
  | tloop =>
    by_cases ho : s.offset.toNat < srcLength s
    · exact stood (by simp [sequencerNext, sequencerCommand, hq, ho, completed, withPayload])
    · exact moved (by simp [sequencerCommand, hq, ho, completed])

/-- The micro-step of a busy block. -/
theorem microStep_moves {s : State} (hb : s.busy = true) :
    ∃ f, Move s f ∧ ∀ p, microStep (withPayload p s) = f (withPayload p s) := by
  have stepped : ∀ p, microStep (withPayload p s) =
      thenGoTo (sequencerNext s) (bodyOf (sequencerCommand s) (withPayload p s)) := fun p =>
    microStep_eq (withPayload p s)
  rcases bodyOf_decided (sequencerCommand s) s with ⟨c, off, w, r, he, h⟩ | ⟨hm, h⟩
  · exact ⟨_, .fault r he, fun p => by rw [stepped, h, thenGoTo_self (.inr rfl)]⟩
  · exact ⟨_, .micro hb hm, fun p => by rw [stepped, h, thenGoTo_completed hb]⟩

/-- The state with its next event taken. -/
def eventTaken (s : State) : State := { s with host := s.host.tail }

theorem step_of_nil {s : State} (h : s.host = []) : step s = vphaTurn (eventTaken s) := by
  have hs : eventTaken s = s := by rw [eventTaken, h, List.tail_nil, ← h]
  rw [step_nil h, hs]

theorem step_of_cons {s : State} {a : HostAction} {rest : List HostAction} (h : s.host = a :: rest) :
    step s = outsideTurn a (eventTaken s) := by
  rw [step_cons h, eventTaken, h, List.tail_cons]

/-- A turn of the block or of the outside: it is idle, or it makes one and the same move of `s`, whatever its payload, and
the draw counter moves on. -/
def TurnsFrom (op : State → Host.Outcome State Fault Refusal) (s : State) : Prop :=
  (∀ p, op (withPayload p s) = .next (withPayload p s)) ∨
    ∃ f, Move s f ∧ ∀ p, op (withPayload p s) = .next (nextDraw (f (withPayload p s)))

theorem vphaTurn_turns (s : State) : TurnsFrom vphaTurn s := by
  by_cases hb : s.busy = true
  · obtain ⟨f, hf, h⟩ := microStep_moves hb
    exact .inr ⟨f, hf, fun p =>
      (if_pos hb : vphaTurn (withPayload p s) = _).trans (congrArg (fun t => Host.Outcome.next (nextDraw t)) (h p))⟩
  · exact .inl fun _ => if_neg hb

theorem outsideTurn_turns (a : HostAction) (s : State) : TurnsFrom (outsideTurn a) s := by
  cases a with
  | regWrite ra bits d =>
    obtain ⟨f, hf, h⟩ := regWrite_moves ra bits d s
    exact .inr ⟨f, hf, fun p => congrArg (mapNext nextDraw) (h p)⟩
  | regRead ra bits => exact .inr ⟨_, .reply ra bits, fun _ => rfl⟩
  | rst => exact .inr ⟨_, .reset, fun _ => rfl⟩
  | storeBegin addr => exact .inr ⟨_, .memory _ fun h => beginStore_wf h addr.toNat, fun _ => rfl⟩
  | store addr b =>
    exact .inr ⟨_, .memory _ fun h => completeStore_wf h (a := addr.toNat) addr.isLt b, fun _ => rfl⟩
  | pause => exact vphaTurn_turns s

/-- Everything a step can do, and that the payload has no part in choosing it. -/
theorem step_moves (s : State) :
    (∀ p, step (withPayload p s) = .next (withPayload p (eventTaken s))) ∨
    ∃ f, Move (eventTaken s) f ∧
      ∀ p, step (withPayload p s) = .next (nextDraw (f (withPayload p (eventTaken s)))) := by
  cases hh : s.host with
  | nil =>
    exact (vphaTurn_turns (eventTaken s)).imp
      (fun h p => (step_of_nil (s := withPayload p s) hh).trans (h p))
      fun ⟨f, hf, h⟩ => ⟨f, hf, fun p => (step_of_nil (s := withPayload p s) hh).trans (h p)⟩
  | cons a rest =>
    exact (outsideTurn_turns a (eventTaken s)).imp
      (fun h p => (step_of_cons (s := withPayload p s) hh).trans (h p))
      fun ⟨f, hf, h⟩ => ⟨f, hf, fun p => (step_of_cons (s := withPayload p s) hh).trans (h p)⟩

/-- The same for the state itself. -/
theorem step_next_cases {s t : State} (h : step s = .next t) :
    t = eventTaken s ∨ ∃ f, Move (eventTaken s) f ∧ t = nextDraw (f (eventTaken s)) :=
  (step_moves s).imp (fun e => Host.Outcome.next.inj (h.symm.trans (e (payloadOf s))))
    fun ⟨f, hf, e⟩ => ⟨f, hf, Host.Outcome.next.inj (h.symm.trans (e (payloadOf s)))⟩

/-! ## The invariant (R31, R34, R134, R144, R174, R188, R199) -/

section invariant

variable {s : State}

theorem noError (h : StateInv s) (hp : s.phase ≠ .fault) : s.errCode = .none := by
  by_contra he
  exact hp (h.errRecorded.mp he)

/-- Outside FAULT no error is recorded (R31). -/
theorem errRecorded_of_noError (he : s.errCode = .none) (hp : s.phase ≠ .fault) :
    s.errCode ≠ .none ↔ s.phase = .fault :=
  iff_of_false (not_not.mpr he) hp

/-- The clauses of the invariant that are left when no HASH runs. -/
theorem inv_of_idle (hq : s.hseq = .none) (errRecorded : s.errCode ≠ .none ↔ s.phase = .fault)
    (record : recordFits s.errCode s.errOff s.errWidth)
    (table : s.ctValid = true → s.coeff = coeffTable ∧ s.carry = carryCoeff)
    (accHeld : s.phase = .acc ∨ s.phase = .scalar → s.written.acc = true)
    (resultHeld : s.done = true → s.written.result = true)
    (vbufHeld : s.written.vbufLanes = 0 ∨ s.written.vbufLanes = L ∨ s.written.vbufLanes = VB)
    (memory : s.mem.wf = true) : StateInv s where
  errRecorded := errRecorded
  busyNotFault hb := absurd hq (busy_iff.mp hb)
  record := record
  table := table
  busyKind hb := absurd hq (busy_iff.mp hb)
  busyDone hb := absurd hq (busy_iff.mp hb)
  blockLoop hb := by cases hq.symm.trans hb
  tailLoop ht := by cases hq.symm.trans ht
  accHeld := accHeld
  resultHeld := resultHeld
  vbufHeld := vbufHeld
  memory := memory

theorem hseq_of_ready (h : s.busy = false) : s.hseq = .none := by
  simpa [State.busy] using h

theorem inv_raise {c : ErrCode} {off : DWord} {w : Nat} (h : StateInv s) (he : ErrorRecord c off w)
    (r : List MemRequest) : StateInv (raise c off w { s with reads := r }) :=
  inv_of_idle rfl (iff_of_true he.1 rfl) he.2 h.table (by simp) h.resultHeld h.vbufHeld h.memory

theorem inv_reset (hm : s.mem.wf = true) : StateInv (applyReset s) :=
  inv_of_idle rfl (errRecorded_of_noError rfl nofun) ⟨rfl, rfl⟩ nofun (by simp [State.reset]) nofun (.inl rfl) hm

theorem inv_foldedBlock (h : StateInv s) (hm : ∀ c, ¬meets .blk s c) : StateInv (foldedBlock s) := by
  obtain ⟨hp, hc, _, hr⟩ := blk_unmet hm
  have hoff : (foldedBlock s).offset.toNat = s.offset.toNat + B := toNat_add_inside hr
  refine { h with blockLoop := fun hq => ⟨hp, hc, hoff ▸ hr, ?_⟩, tailLoop := fun hq => ?_ }
  · rw [hoff, Nat.add_mod_right]
    exact (h.blockLoop hq).2.2.2
  · cases hp.symm.trans (h.tailLoop hq).1

theorem inv_tail (h : StateInv s) (hm : ∀ c, ¬meets .tail s c) : StateInv (completed .tail s) := by
  obtain ⟨hp, _, hr⟩ := tail_unmet hm
  have hoff : (completed .tail s).offset.toNat = s.offset.toNat + 1 := toNat_add_inside (k := 1) hr
  refine { h with
    blockLoop := fun hq => by cases hp.symm.trans (h.blockLoop hq).1
    tailLoop := fun hq => ⟨hp, hoff ▸ hr, ?_⟩ }
  have hend := (h.tailLoop hq).2.2
  rw [hoff]
  exact Nat.lt_of_lt_of_le hend (by omega)

/-- RDBLK adds a run of L or B lanes from lane 0 (R120). -/
theorem vbufHeld_max {n w : Nat} (hn : n = 0 ∨ n = L ∨ n = VB) (hw : w = L ∨ w = B) :
    max n w = 0 ∨ max n w = L ∨ max n w = VB := by
  simp only [L, B, VB] at *
  omega

theorem inv_command {i : Instr} (h : StateInv s) (hb : s.busy = false)
    (hf : s.phase = .fault → i = .clr) (hm : ∀ c, ¬meets i s c) : StateInv (completed i s) := by
  have hq := hseq_of_ready hb
  have running : i ≠ .clr → s.phase ≠ .fault := fun hi hp => hi (hf hp)
  cases i with
  | nop => exact h
  | cinit => exact { h with table := fun _ => ⟨rfl, rfl⟩, blockLoop := fun e => by cases hq.symm.trans e }
  | ainit =>
    have he := noError h (running nofun)
    exact inv_of_idle hq (errRecorded_of_noError he nofun) (by exact h.record) h.table (fun _ => rfl)
      nofun h.vbufHeld h.memory
  | blk => exact inv_foldedBlock h hm
  | red =>
    have he := noError h (running nofun)
    exact inv_of_idle hq (errRecorded_of_noError he nofun) h.record h.table
      (fun _ => h.accHeld (.inl (red_unmet hm))) h.resultHeld h.vbufHeld h.memory
  | tail => exact inv_tail h hm
  | fin =>
    have he := noError h (running nofun)
    exact inv_of_idle hq (errRecorded_of_noError he nofun) h.record h.table (by simp [completed])
      (fun _ => rfl) h.vbufHeld h.memory
  | hash =>
    exact { h with
      busyNotFault := fun _ => running nofun
      busyKind := fun _ => hash_unmet hm
      busyDone := fun _ => rfl
      blockLoop := nofun
      tailLoop := nofun
      resultHeld := nofun }
  | rdbyte => exact { h with }
  | rdblk wsel =>
    refine { h with vbufHeld := vbufHeld_max h.vbufHeld ?_ }
    split
    · exact .inl rfl
    · exact .inr rfl
  | clr =>
    exact inv_of_idle hq (errRecorded_of_noError rfl nofun) ⟨rfl, rfl⟩ h.table (by simp [completed])
      h.resultHeld h.vbufHeld h.memory

theorem hseq_self {q : Hseq} (h : s.hseq = q) : { s with hseq := q } = s := by
  subst h
  rfl

theorem inv_micro (h : StateInv s) (hb : s.busy = true)
    (hm : ∀ c, ¬meets (sequencerCommand s) s c) :
    StateInv { completed (sequencerCommand s) s with hseq := sequencerNext s } := by
  have he := noError h (h.busyNotFault hb)
  cases hq : s.hseq with
  | none => exact absurd hq (busy_iff.mp hb)
  | init =>
    by_cases hc : s.ctValid = false
    · simp only [sequencerCommand, sequencerNext, hq, if_pos hc]
      exact { h with
        table := fun _ => ⟨rfl, rfl⟩
        busyNotFault := fun _ => h.busyNotFault hb
        busyKind := fun _ => h.busyKind hb
        busyDone := fun _ => h.busyDone hb
        blockLoop := nofun
        tailLoop := nofun }
    · have hc' : s.ctValid = true := by simpa using hc
      simp only [sequencerCommand, sequencerNext, hq, if_neg hc]
      exact { h with
        errRecorded := errRecorded_of_noError he nofun
        busyNotFault := nofun
        busyKind := fun _ => h.busyKind hb
        busyDone := fun _ => rfl
        blockLoop := fun _ => ⟨rfl, hc', Nat.zero_le _, rfl⟩
        tailLoop := nofun
        accHeld := fun _ => rfl
        resultHeld := nofun }
  | bloop =>
    by_cases ho : s.offset.toNat + B ≤ srcLength s
    · simp only [sequencerCommand, sequencerNext, hq, if_pos ho] at hm ⊢
      rw [hseq_self (s := completed .blk s) hq]
      exact inv_foldedBlock h hm
    · obtain ⟨hp, _, hin, _⟩ := h.blockLoop hq
      simp only [sequencerCommand, sequencerNext, hq, if_neg ho]
      exact { h with
        errRecorded := errRecorded_of_noError he nofun
        busyNotFault := nofun
        busyKind := fun _ => h.busyKind hb
        busyDone := fun _ => h.busyDone hb
        blockLoop := nofun
        tailLoop := fun _ => ⟨rfl, hin, Nat.lt_of_not_le ho⟩
        accHeld := fun _ => h.accHeld (.inl hp) }
  | tloop =>
    by_cases ho : s.offset.toNat < srcLength s
    · simp only [sequencerCommand, sequencerNext, hq, if_pos ho] at hm ⊢
      rw [hseq_self (s := completed .tail s) hq]
      exact inv_tail h hm
    · simp only [sequencerCommand, sequencerNext, hq, if_neg ho]
      exact inv_of_idle rfl (errRecorded_of_noError he nofun) h.record h.table (by simp [completed])
        (fun _ => rfl) h.vbufHeld h.memory

theorem inv_move {f : State → State} (h : StateInv s) (hf : Move s f) : StateInv (f s) := by
  cases hf with
  | hold => exact h
  | drop => exact { h with }
  | fault r he => exact inv_raise h he r
  | command hb hf hm => exact inv_command h hb hf hm
  | micro hb hm => exact inv_micro h hb hm
  | descriptor hb k b l w a =>
    exact inv_of_idle (hseq_of_ready hb) h.errRecorded h.record h.table h.accHeld h.resultHeld
      h.vbufHeld h.memory
  | reply ra bits => exact { h with }
  | reset => exact inv_reset h.memory
  | memory m hm => exact { h with memory := hm h.memory }

theorem inv_eventTaken (h : StateInv s) : StateInv (eventTaken s) := { h with }

end invariant

/-- Settles O22, move by move. -/
theorem everyStepKeepsTheInvariant : Obligations.EveryStepKeepsTheInvariant := by
  intro s t h hstep
  have hs := inv_eventTaken h
  rcases step_next_cases hstep with rfl | ⟨f, hf, rfl⟩
  · exact hs
  · exact { inv_move hs hf with }

/-- Settles O21: the state after reset is the reset of itself. -/
theorem invariantHoldsAtReset : Obligations.InvariantHoldsAtReset := inv_reset (s := State.reset) blank_wf

/-- Every run keeps the invariant. -/
theorem inv_run {k : Nat} {s t : State} (h : StateInv s)
    (hrun : Host.Core.run Sys2Proof.core k s = .next t) : StateInv t := by
  induction k generalizing s with
  | zero => exact Host.Outcome.next.inj hrun ▸ h
  | succ k ih =>
    obtain ⟨u, hstep, hrest⟩ := run_succ_cases hrun
    exact ih (everyStepKeepsTheInvariant s u h hstep) hrest

theorem errValue_ne_zero_iff (c : ErrCode) : errValue c ≠ 0 ↔ c ≠ .none := by
  cases c <;> decide

/-- Settles O23: the invariant holds at reset over any canonical memory, and every run keeps it. -/
theorem reachableStatesKeepStatusClauses : Obligations.ReachableStatesKeepStatusClauses := by
  intro k m events t hm hrun
  have h0 : StateInv { State.reset with mem := m, host := events } :=
    inv_reset (s := { State.reset with mem := m, host := events }) hm
  have h := inv_run h0 hrun
  exact ⟨busy_iff, decide_eq_true_iff, (errValue_ne_zero_iff t.errCode).trans h.errRecorded,
    h.busyNotFault⟩

/-! ## OFFSET (R27) -/

/-- OFFSET is kept, cleared, or moved on by a block or a byte inside the source. -/
def OffsetAdvances (s t : State) : Prop :=
  t.offset = s.offset ∨ t.offset = 0 ∨
    (t.offset.toNat = s.offset.toNat + 32 ∧ t.offset.toNat ≤ srcLength t) ∨
    (t.offset.toNat = s.offset.toNat + 1 ∧ t.offset.toNat ≤ srcLength t)

/-- BLK and TAIL advance OFFSET after their range test; AINIT clears it; no other command changes it. -/
theorem offset_completed {i : Instr} {s : State} (hm : ∀ c, ¬meets i s c) :
    OffsetAdvances s (completed i s) := by
  cases i with
  | ainit => exact .inr (.inl rfl)
  | blk =>
    obtain ⟨_, _, _, hr⟩ := blk_unmet hm
    have hoff : (completed .blk s).offset.toNat = s.offset.toNat + 32 := toNat_add_inside hr
    exact .inr (.inr (.inl ⟨hoff, hoff ▸ hr⟩))
  | tail =>
    obtain ⟨_, _, hr⟩ := tail_unmet hm
    have hoff : (completed .tail s).offset.toNat = s.offset.toNat + 1 := toNat_add_inside (k := 1) hr
    exact .inr (.inr (.inr ⟨hoff, hoff ▸ hr⟩))
  | _ => exact .inl rfl

theorem offset_move {s : State} {f : State → State} (hf : Move s f) : OffsetAdvances s (f s) := by
  cases hf with
  | command hb hf hm => exact offset_completed hm
  | micro hb hm => exact offset_completed hm
  | reset => exact .inr (.inl rfl)
  | _ => exact .inl rfl

/-- Settles O27, move by move. -/
theorem offsetNeverWraps : Obligations.OffsetNeverWraps := by
  intro s t hstep
  rcases step_next_cases hstep with rfl | ⟨f, hf, rfl⟩
  · exact .inl rfl
  · exact offset_move hf

/-! ## DONE, PHASE and HSEQ (R28, R29, R32) -/

/-- A completed command leaves DONE as R32 says. -/
theorem done_completed (i : Instr) (s : State) :
    (completed i s).done =
      if i = .fin then true else if i = .ainit ∨ i = .hash then false else s.done := by
  cases i <;> simp [completed, foldedBlock]

/-- Where a completed command leaves PHASE (R28). -/
theorem phase_completed {i : Instr} {s : State} (hm : ∀ c, ¬meets i s c) :
    (completed i s).phase = s.phase ∨ (i = .ainit ∧ (completed i s).phase = .acc) ∨
      (i = .red ∧ s.phase = .acc ∧ (completed i s).phase = .scalar) ∨
      (i = .fin ∧ s.phase = .scalar ∧ (completed i s).phase = .idle) ∨
      (i = .clr ∧ (completed i s).phase = .idle) := by
  cases i with
  | ainit => exact .inr (.inl ⟨rfl, rfl⟩)
  | red => exact .inr (.inr (.inl ⟨rfl, red_unmet hm, rfl⟩))
  | fin => exact .inr (.inr (.inr (.inl ⟨rfl, fin_unmet hm, rfl⟩)))
  | clr => exact .inr (.inr (.inr (.inr ⟨rfl, rfl⟩)))
  | _ => exact .inl rfl

/-- No completed command takes a fault. -/
theorem completed_not_fault {i : Instr} {s : State} (hm : ∀ c, ¬meets i s c) (hp : s.phase ≠ .fault) :
    (completed i s).phase ≠ .fault := by
  rcases phase_completed hm with e | ⟨_, e⟩ | ⟨_, _, e⟩ | ⟨_, _, e⟩ | ⟨_, e⟩ <;> rw [e]
  · exact hp
  all_goals nofun

theorem hseq_completed (i : Instr) (s : State) :
    (completed i s).hseq = s.hseq ∨ (i = .hash ∧ (completed i s).hseq = .init) := by
  cases i with
  | hash => exact .inr ⟨rfl, rfl⟩
  | _ => exact .inl rfl

/-- A command that is dropped, or accepted in FAULT, keeps DONE. -/
theorem done_not_accepting {i : Instr} {s t : State} (ha : ¬Accepting s) (h : exec i s = .next t) :
    t.done = s.done := by
  rcases exec_cases h with rfl | ⟨ha', _⟩ | ⟨_, _, _, rfl⟩ | ⟨_, _, _, rfl⟩
  · rfl
  · exact absurd ha' ha
  · rfl
  · rfl

theorem sequencerCommand_ne_hash (s : State) : sequencerCommand s ≠ .hash := by
  unfold sequencerCommand
  split
  · nofun
  all_goals split <;> nofun

@[simp] theorem thenGoTo_done (q : Hseq) (s : State) : (thenGoTo q s).done = s.done := by
  unfold thenGoTo
  split <;> rfl

@[simp] theorem thenGoTo_phase (q : Hseq) (s : State) : (thenGoTo q s).phase = s.phase := by
  unfold thenGoTo
  split <;> rfl

@[simp] theorem thenGoTo_ovr (q : Hseq) (s : State) : (thenGoTo q s).ovr = s.ovr := by
  unfold thenGoTo
  split <;> rfl

/-- A command that completes in FAULT keeps DONE. -/
theorem done_completed_inFault {i : Instr} {s : State} (hi : i ≠ .hash)
    (h : (completed i s).phase = .fault) : (completed i s).done = s.done := by
  cases i with
  | ainit | fin => cases h
  | hash => exact absurd rfl hi
  | _ => rfl

/-- Settles O24: a body raises, which keeps DONE, or completes. -/
theorem doneChangesOnlyAsStated : Obligations.DoneChangesOnlyAsStated := by
  refine ⟨fun i s t ha h => ?_, fun i s t => done_not_accepting, fun s _ => ?_⟩
  · rw [exec_accepting i ha, Host.Outcome.next.injEq] at h
    subst h
    rcases bodyOf_cases i s with ⟨c, off, w, r, _, e⟩ | ⟨hm, e⟩ <;> rw [e]
    · exact (if_pos rfl).symm
    · rw [if_neg (completed_not_fault hm ha.2), done_completed]
  · have hash := sequencerCommand_ne_hash s
    rw [microStep_eq, thenGoTo_done, thenGoTo_phase]
    rcases bodyOf_cases (sequencerCommand s) s with ⟨c, off, w, r, _, e⟩ | ⟨_, e⟩ <;> rw [e]
    · exact (if_pos rfl).symm
    · split
      · next hp => exact done_completed_inFault hash hp
      · simp [done_completed, hash]

/-- A busy block ignores or drops every register write (R38, R39, R44). -/
theorem regWrite_busy {ra : BitVec 12} {bits : Nat} {d : Word} {s t : State} (hb : s.busy = true)
    (h : regWrite ra bits d s = .next t) : t = s ∨ t = dropWrite s := by
  have busy : s.busy ≠ false := by simp [hb]
  rcases regWrite_cases h with e | ⟨_, e⟩ | ⟨hb', _⟩ | ⟨i, _, he⟩ | ⟨hb', _⟩ | ⟨ha, _⟩
  · exact .inl e
  · exact .inr e
  · exact absurd hb' busy
  · exact .inr (Host.Outcome.next.inj (he.symm.trans (exec_busy i hb)))
  · exact absurd hb' busy
  · exact absurd ha.1 busy

/-- Settles O26: a command is dropped, raises or completes; a busy block drops or ignores every write. -/
theorem controlStateTransitions : Obligations.ControlStateTransitions := by
  refine ⟨fun i s t h => ?_, fun i s t h => ?_, fun s t a rest hh ha hb h => ?_⟩
  · rcases exec_cases h with rfl | ⟨ha, rfl⟩ | ⟨_, _, _, rfl⟩ | ⟨_, _, hi, rfl⟩
    · exact .inl rfl
    · rcases bodyOf_cases i s with ⟨c, off, w, r, he, e⟩ | ⟨hm, e⟩ <;> rw [e]
      · exact .inr (.inr (.inr (.inr (.inr ⟨ha.2, rfl, he.1⟩))))
      · rcases phase_completed hm with hp | ⟨hi, hp⟩ | hp | hp | hp
        · exact .inl hp
        · exact .inr (.inl ⟨hi, ha.2, hp⟩)
        · exact .inr (.inr (.inl hp))
        · exact .inr (.inr (.inr (.inl hp)))
        · exact .inr (.inr (.inr (.inr (.inl hp))))
    · exact .inl rfl
    · exact .inr (.inr (.inr (.inr (.inl ⟨hi, rfl⟩))))
  · rcases exec_cases h with rfl | ⟨ha, rfl⟩ | ⟨_, _, _, rfl⟩ | ⟨_, _, _, rfl⟩
    · exact .inl rfl
    · rcases bodyOf_cases i s with ⟨c, off, w, r, he, e⟩ | ⟨hm, e⟩ <;> rw [e]
      · exact .inr (.inr ⟨rfl, rfl⟩)
      · exact (hseq_completed i s).imp_right fun ⟨hi, hq⟩ => .inl ⟨hi, hseq_of_ready ha.1, hq⟩
    · exact .inl rfl
    · exact .inl rfl
  · rw [step_of_cons hh] at h
    cases a with
    | regWrite ra bits d =>
      obtain ⟨u, hu, rfl⟩ := mapNext_eq_next h
      rcases regWrite_busy (s := eventTaken s) hb hu with rfl | rfl <;> exact .inl rfl
    | rst =>
      cases h
      exact .inr ⟨rfl, rfl⟩
    | pause => exact absurd rfl ha
    | regRead | storeBegin | store =>
      cases h
      exact .inl rfl

/-! ## OVR (R33) -/

theorem bodyOf_ovr {i : Instr} (hi : i ≠ .clr) (s : State) : (bodyOf i s).ovr = s.ovr := by
  rcases bodyOf_cases i s with ⟨c, off, w, r, _, e⟩ | ⟨_, e⟩ <;> rw [e]
  · rfl
  · cases i with
    | clr => exact absurd rfl hi
    | _ => rfl

theorem acceptedInFault_iff (w : Word) :
    acceptedInFault w = true ↔ decode w = .ok .nop ∨ decode w = .ok .clr := by
  unfold acceptedInFault
  split <;> simp_all

/-- A command word is dropped (R39). -/
def wordDropped (s : State) (w : Word) : Prop :=
  s.busy = true ∨ (s.phase = .fault ∧ decode w ≠ .ok .nop ∧ decode w ≠ .ok .clr)

theorem presentWord_dropped {s : State} {w : Word} (h : wordDropped s w) :
    presentWord w s = .next (dropWrite s) := by
  by_cases hb : s.busy = true
  · exact presentWord_busy w hb
  · obtain ⟨hp, hn, hc⟩ := h.resolve_left hb
    exact presentWord_inFault (by simpa using hb) hp hn hc

/-- A word that is not dropped runs the body of its command, or raises E_ILLEGAL (R39, R85). -/
theorem presentWord_accepted {s : State} {w : Word} (h : ¬wordDropped s w) :
    (∃ i, decode w = .ok i ∧ presentWord w s = .next (bodyOf i s)) ∨
      ((∃ e, decode w = .error e) ∧ presentWord w s = .next (raise .illegal 0 0 s)) := by
  obtain ⟨hb, hfree⟩ := not_or.mp h
  have hb' : s.busy = false := by simpa using hb
  cases hd : decode w with
  | error e =>
    have hp : s.phase ≠ .fault := fun hp => hfree ⟨hp, by simp [hd], by simp [hd]⟩
    exact .inr ⟨⟨e, rfl⟩, by rw [presentWord_illegal hd, present_accepting ⟨hb', hp⟩]⟩
  | ok i =>
    refine .inl ⟨i, rfl, ?_⟩
    rw [presentWord_ok hd, exec_eq]
    by_cases hp : s.phase = .fault
    · have hi : freeInFault i = true := by
        by_contra hi
        exact hfree ⟨hp, by rintro e; cases hd.symm.trans e; exact hi rfl,
          by rintro e; cases hd.symm.trans e; exact hi rfl⟩
      rw [hi, present_fault_accepted hb']
    · rw [present_accepting ⟨hb', hp⟩]

/-- A dropped word sets OVR, an accepted CLR clears it, every other word keeps it. -/
theorem presentWord_ovr {w : Word} {s t : State} (h : presentWord w s = .next t) :
    (wordDropped s w → t.ovr = true) ∧
    (¬wordDropped s w → decode w = .ok .clr → t.ovr = false) ∧
    (¬wordDropped s w → decode w ≠ .ok .clr → t.ovr = s.ovr) := by
  refine ⟨fun hd => ?_, fun hd hc => ?_, fun hd hc => ?_⟩
  · cases h.symm.trans (presentWord_dropped hd)
    rfl
  · rcases presentWord_accepted hd with ⟨i, hi, e⟩ | ⟨⟨_, he⟩, _⟩
    · cases h.symm.trans e
      cases hc.symm.trans hi
      rfl
    · cases hc.symm.trans he
  · rcases presentWord_accepted hd with ⟨i, hi, e⟩ | ⟨_, e⟩
    · cases h.symm.trans e
      exact bodyOf_ovr (fun hclr => hc (hclr ▸ hi)) s
    · cases h.symm.trans e
      rfl

section events

variable {s : State} {ra : BitVec 12} {bits : Nat} {d : Word}

theorem droppedWrite_cmd (hw : wholeWord ra bits = true) (hr : regAt ra.toNat = some .cmd) :
    droppedWrite s (.regWrite ra bits d) = true ↔ wordDropped s d := by
  simp only [droppedWrite, hw, hr, wordDropped, ne_eq, ← not_or, ← acceptedInFault_iff]
  simp

theorem clearsFault_cmd (hw : wholeWord ra bits = true) (hr : regAt ra.toNat = some .cmd) :
    clearsFault s (.regWrite ra bits d) = true ↔ s.busy = false ∧ decode d = .ok .clr := by
  simp only [clearsFault, hw, hr]
  split <;> simp_all

theorem droppedWrite_reg {r : Reg} (hw : wholeWord ra bits = true) (hr : regAt ra.toNat = some r)
    (hc : r ≠ .cmd) : droppedWrite s (.regWrite ra bits d) = (r.writable && s.busy) := by
  simp only [droppedWrite, hw, hr]
  cases r with
  | cmd => exact absurd rfl hc
  | _ => simp

theorem clearsFault_reg (hc : regAt ra.toNat ≠ some .cmd) :
    clearsFault s (.regWrite ra bits d) = false := by
  simp [clearsFault, hc]

end events

/-- Every register but CMD is written through the guard of R44, or not at all. -/
theorem writeReg_ovr {r : Reg} {d : Word} {s t : State} (hc : r ≠ .cmd)
    (h : writeReg r d s = .next t) : t.ovr = if (r.writable && s.busy) = true then true else s.ovr := by
  have guarded : ∀ {update : State → State}, (update s).ovr = s.ovr →
      (descriptorWrite update s).ovr = if s.busy = true then true else s.ovr := by
    intro update hu
    unfold descriptorWrite
    split
    · rfl
    · exact hu
  cases r with
  | cmd => exact absurd rfl hc
  | srcKind | srcBaseLo | srcBaseHi | srcLenLo | srcLenHi | srcWoffLo | srcWoffHi | argLo | argHi =>
    cases h
    exact guarded rfl
  | _ =>
    cases h
    rfl

theorem regWrite_ovr {ra : BitVec 12} {bits : Nat} {d : Word} {s t : State}
    (h : regWrite ra bits d s = .next t) :
    t.ovr = if droppedWrite s (.regWrite ra bits d) then true
      else if clearsFault s (.regWrite ra bits d) then false else s.ovr := by
  cases hw : wholeWord ra bits with
  | false =>
    cases h.symm.trans (regWrite_partial hw d s)
    simp [droppedWrite, clearsFault, hw]
  | true =>
    cases hr : regAt ra.toNat with
    | none =>
      cases h.symm.trans (regWrite_reserved hr bits d s)
      simp [droppedWrite, clearsFault, hr]
    | some r =>
      rw [regWrite_at hw hr] at h
      by_cases hc : r = .cmd
      · subst hc
        obtain ⟨hdrop, hclear, hkeep⟩ := presentWord_ovr h
        have dropped := droppedWrite_cmd (s := s) (d := d) hw hr
        have clears := clearsFault_cmd (s := s) (d := d) hw hr
        split
        · next hd => exact hdrop (dropped.mp hd)
        · next hd =>
          have hd := mt dropped.mpr hd
          have hb : s.busy = false := by simpa using fun hb => hd (.inl hb)
          split
          · next hc => exact hclear hd (clears.mp hc).2
          · next hc => exact hkeep hd fun e => hc (clears.mpr ⟨hb, e⟩)
      · have hcmd : regAt ra.toNat ≠ some .cmd := fun e => hc (Option.some.inj (hr.symm.trans e))
        rw [droppedWrite_reg hw hr hc, clearsFault_reg hcmd, writeReg_ovr hc h]
        rfl

theorem microStep_ovr (s : State) : (microStep s).ovr = s.ovr := by
  have hclr : sequencerCommand s ≠ .clr := by
    unfold sequencerCommand
    split
    · nofun
    all_goals split <;> nofun
  rw [microStep_eq, thenGoTo_ovr, bodyOf_ovr hclr]

theorem vphaTurn_ovr {s t : State} (h : vphaTurn s = .next t) : t.ovr = s.ovr := by
  rcases vphaTurn_cases h with ⟨_, rfl⟩ | ⟨_, rfl⟩
  · rfl
  · exact microStep_ovr s

/-- The state without OVR and without what the host has read of it. -/
def blankOvr (s : State) : State := { s with ovr := false, replies := [] }

theorem completed_blankOvr (i : Instr) (s : State) (b : Bool) :
    blankOvr (completed i { s with ovr := b }) = blankOvr (completed i s) := by
  cases i with
  | _ => rfl

theorem move_blankOvr {s : State} {f : State → State} (hf : Move s f) (b : Bool) :
    blankOvr (f { s with ovr := b }) = blankOvr (f s) := by
  cases hf with
  | command hb hf hm => exact completed_blankOvr _ s b
  | micro hb hm =>
    exact congrArg (fun t => { t with hseq := sequencerNext s })
      (completed_blankOvr (sequencerCommand s) s b)
  | _ => rfl

/-- Settles O25: a register write by what it addresses; two states that differ in OVR make the same moves. -/
theorem ovrRecordsDroppedWrites : Obligations.OvrRecordsDroppedWrites := by
  refine ⟨fun s t a rest hh h => ?_, fun s t hh h => ?_, fun s t u b ht hu => ?_⟩
  · rw [step_of_cons hh] at h
    cases a with
    | regWrite ra bits d =>
      obtain ⟨u, hu, rfl⟩ := mapNext_eq_next h
      exact (regWrite_ovr hu :)
    | pause => exact vphaTurn_ovr (s := eventTaken s) h
    | regRead | rst | storeBegin | store =>
      cases h
      rfl
  · rw [step_of_nil hh] at h
    exact vphaTurn_ovr (s := eventTaken s) h
  · let p : Payload := { payloadOf s with ovr := b }
    rcases step_moves s with h | ⟨f, hf, h⟩
    · cases ht.symm.trans (h (payloadOf s))
      cases hu.symm.trans (h p)
      rfl
    · cases ht.symm.trans (h (payloadOf s))
      cases hu.symm.trans (h p)
      exact congrArg nextDraw (move_blankOvr hf b).symm

/-! ## Reset (R190 to R192) -/

/-- Settles O20: the step is `applyReset` of the state with the event taken. -/
theorem resetSetsEveryRegister : Obligations.ResetSetsEveryRegister := by
  intro s rest hh
  let t := nextDraw (applyReset { s with host := rest })
  have held : ∀ r, holdsValue t r = holdsValue State.reset r := fun r => by cases r <;> rfl
  exact ⟨t, step_cons hh, regRead_held (r := .id) rfl, regRead_held (r := .param) rfl,
    statusFieldsStandWhereStated.2, rfl, rfl, rfl, rfl, rfl, rfl, rfl, rfl, rfl, rfl, rfl, rfl, rfl,
    rfl, fun r hr => (held r).trans hr, rfl, rfl, rfl⟩

/-! ## The step mode against the reference hash (R145) -/

/-- `u` has the source of `s`, and its table is built. -/
structure Stepping (s u : State) : Prop where
  source : SameSource s u
  coeff : u.coeff = coeffTable
  carry : u.carry = carryCoeff

section stepMode

variable {s u : State}

/-- No body changes the source or spoils the table. -/
theorem Stepping.body (h : Stepping s u) (i : Instr) : Stepping s (bodyOf i u) := by
  rcases bodyOf_cases i u with ⟨c, off, w, r, _, e⟩ | ⟨_, e⟩ <;> rw [e]
  · exact ⟨h.source, h.coeff, h.carry⟩
  · cases i with
    | cinit => exact ⟨h.source, rfl, rfl⟩
    | _ => exact ⟨h.source, h.coeff, h.carry⟩

theorem Stepping.iterate (h : Stepping s u) (i : Instr) (n : Nat) : Stepping s ((bodyOf i)^[n] u) := by
  induction n with
  | zero => exact h
  | succ n ih =>
    rw [Function.iterate_succ_apply']
    exact ih.body i

/-- A body that leaves no fault has completed. -/
theorem completed_of_not_fault {i : Instr} (h : (bodyOf i u).phase ≠ .fault) :
    (∀ c, ¬meets i u c) ∧ bodyOf i u = completed i u :=
  (bodyOf_cases i u).resolve_left fun ⟨_, _, _, _, _, e⟩ => h (e ▸ rfl)

/-- After AINIT and `m` BLKs that all succeed, `32m` bytes are consumed and the lanes sum to their hash (R136). -/
theorem blocks_hashed (h : Stepping s s) (hs : s.mem.storing = []) (m : Nat)
    (hp : (blkBody^[m] (ainitBody s)).phase = .acc) :
    (blkBody^[m] (ainitBody s)).offset.toNat = m * 32 ∧
      reduceAll (blkBody^[m] (ainitBody s)).h = prefixHash (sourceByte s) (m * 32) := by
  induction m with
  | zero => exact ⟨rfl, reduceAll_accStart⟩
  | succ m ih =>
    have hu : Stepping s (blkBody^[m] (ainitBody s)) := (h.body .ainit).iterate .blk m
    rw [Function.iterate_succ_apply'] at hp ⊢
    generalize blkBody^[m] (ainitBody s) = u at *
    obtain ⟨hm, e⟩ := completed_of_not_fault (i := .blk) (u := u) (by rw [bodyOf, hp]; nofun)
    obtain ⟨hacc, _, _, hin⟩ := blk_unmet hm
    obtain ⟨hoff, hsum⟩ := ih hacc
    have hnext : (m + 1) * 32 = u.offset.toNat + 32 := by rw [hoff, Nat.succ_mul]
    rw [show blkBody u = foldedBlock u from e, hnext]
    refine ⟨toNat_add_inside hin, ?_⟩
    rw [← hoff] at hsum
    simp only [foldedBlock, hu.source.byteSeen_eq hs, hu.coeff, hu.carry]
    exact reduceAll_block (sourceByte s) u.offset.toNat u.h hsum

/-- The first `n` bytes of the source are consumed, and SH is their hash (R145). -/
def PrefixHashed (s : State) (n : Nat) (u : State) : Prop :=
  u.offset.toNat = n ∧ u.sh = prefixHash (sourceByte s) n

/-- RED leaves in SH the hash of the blocks (R140). -/
theorem red_hashed (h : Stepping s s) (hs : s.mem.storing = []) (m : Nat)
    (hp : (redBody (blkBody^[m] (ainitBody s))).phase = .scalar) :
    PrefixHashed s (m * 32) (redBody (blkBody^[m] (ainitBody s))) := by
  obtain ⟨hm, e⟩ := completed_of_not_fault (i := .red) (u := blkBody^[m] (ainitBody s))
    (by rw [bodyOf, hp]; nofun)
  rw [show redBody (blkBody^[m] (ainitBody s)) = completed .red _ from e]
  exact blocks_hashed h hs m (red_unmet hm)

/-- Each TAIL that succeeds hashes one byte more (R142). -/
theorem tails_hashed (h : Stepping s u) (hs : s.mem.storing = []) {n : Nat}
    (hu : u.phase = .scalar → PrefixHashed s n u) (k : Nat) (hp : (tailBody^[k] u).phase = .scalar) :
    PrefixHashed s (n + k) (tailBody^[k] u) := by
  induction k with
  | zero => exact hu hp
  | succ k ih =>
    have hv : Stepping s (tailBody^[k] u) := h.iterate .tail k
    rw [Function.iterate_succ_apply'] at hp ⊢
    generalize tailBody^[k] u = v at *
    obtain ⟨hm, e⟩ := completed_of_not_fault (i := .tail) (u := v) (by rw [bodyOf, hp]; nofun)
    obtain ⟨hscalar, _, hin⟩ := tail_unmet hm
    obtain ⟨hoff, hsh⟩ := ih hscalar
    rw [show tailBody v = completed .tail v from e]
    refine ⟨(toNat_add_inside (k := 1) hin).trans (by rw [hoff, Nat.add_assoc]), ?_⟩
    simp only [completed, hv.source.byteSeen_eq hs, hsh, hoff, foldByte_prefixHash, Nat.add_assoc]

end stepMode

/-- Settles O58: the blocks by induction on `m`, RED, then the tail by induction on `k`. -/
theorem scalarPartialIsThePrefixHash : Obligations.ScalarPartialIsThePrefixHash := by
  intro s m k _ hcoeff hcarry hs hp
  have h : Stepping s s := ⟨rfl, hcoeff, hcarry⟩
  have hred : Stepping s (redBody (blkBody^[m] (ainitBody s))) :=
    ((h.body .ainit).iterate .blk m).body .red
  exact tails_hashed hred hs (red_hashed h hs m) k hp

/-! ## Registers that hold no value (R56, R58) -/

/-- A state without its payload. -/
def bare (s : State) : State := withPayload ⟨Bank.zero, 0, Bank.zero, 0, 0, 0, Bank.zero, false⟩ s

/-- Two states that differ at most in registers that hold no value. -/
structure AgreeOnHeld (a b : State) : Prop where
  control : bare a = bare b
  ovr : a.ovr = b.ovr
  table : b.ctValid = true → a.coeff = b.coeff ∧ a.carry = b.carry
  acc : b.written.acc = true → a.h = b.h ∧ a.sh = b.sh
  result : b.written.result = true → a.result = b.result
  rdata : b.written.rdata = true → a.rdata = b.rdata
  vbuf : ∀ (g : Fin 4) (i : Fin 8), g.val * L + i.val < b.written.vbufLanes →
    a.vbuf.get g i = b.vbuf.get g i

theorem AgreeOnHeld.refl (s : State) : AgreeOnHeld s s :=
  ⟨rfl, rfl, fun _ => ⟨rfl, rfl⟩, fun _ => ⟨rfl, rfl⟩, fun _ => rfl, fun _ => rfl, fun _ _ _ => rfl⟩

/-- Blanking what holds no value leaves what holds one. -/
theorem heldOnly_agrees (s : State) : AgreeOnHeld (heldOnly s) s where
  control := rfl
  ovr := rfl
  table hc := ⟨if_pos hc, if_pos hc⟩
  acc ha := ⟨if_pos ha, if_pos ha⟩
  result hr := if_pos hr
  rdata hr := if_pos hr
  vbuf g i hl := (Bank.get_ofFn _ g i).trans (if_pos hl)

/-- What is left of a state's payload when the registers that hold no value are blanked. -/
def heldPayload (s : State) : Payload := payloadOf (heldOnly s)

theorem heldOnly_eq_withPayload (s : State) : heldOnly s = withPayload (heldPayload s) (bare s) := rfl

theorem ite_congr_held {α : Type} {c d : Bool} {x y z : α} (hc : c = d) (h : d = true → x = y) :
    (if c then x else z) = if d then y else z := by
  subst hc
  split
  · next hd => exact h hd
  · rfl

theorem heldOnly_eq {a b : State} (h : AgreeOnHeld a b) : heldOnly a = heldOnly b := by
  have hc : a.ctValid = b.ctValid := (congrArg State.ctValid h.control :)
  have hw : a.written = b.written := (congrArg State.written h.control :)
  have hvbuf : (heldOnly a).vbuf = (heldOnly b).vbuf := by
    refine Bank.ext_get fun g i => ?_
    simp only [heldOnly, Bank.get_ofFn, hw]
    split
    · next hl => exact h.vbuf g i hl
    · rfl
  have hp : heldPayload a = heldPayload b := by
    simp only [heldPayload, payloadOf, Payload.mk.injEq]
    exact ⟨ite_congr_held hc fun e => (h.table e).1, ite_congr_held hc fun e => (h.table e).2,
      ite_congr_held (congrArg _ hw) fun e => (h.acc e).1,
      ite_congr_held (congrArg _ hw) fun e => (h.acc e).2,
      ite_congr_held (congrArg _ hw) h.result, ite_congr_held (congrArg _ hw) h.rdata, hvbuf, h.ovr⟩
  rw [heldOnly_eq_withPayload, heldOnly_eq_withPayload, h.control, hp]

/-- The contents of a register that holds a value are in what is left. -/
theorem contents_heldOnly {s : State} {r : Reg} (h : holdsValue s r = true) :
    contents (heldOnly s) r = contents s r := by
  have hs := heldOnly_agrees s
  cases r with
  | acc g i => exact congrArg (fun b => b.get g i) (hs.acc h).1
  | sh => exact (hs.acc h).2
  | coeff g i => exact congrArg (fun b => b.get g i) (hs.table h).1
  | carry => exact (hs.table h).2
  | result => exact hs.result h
  | rdata => exact hs.rdata h
  | vbuf j =>
    refine hs.vbuf _ _ ?_
    have hj := of_decide_eq_true h
    simp only [Fin.ofNat, L]
    omega
  | _ => rfl

/-- No host read sees what stands in a register that holds no value. -/
theorem regRead_heldOnly (ra : BitVec 12) (bits : Nat) (s : State) :
    regRead ra bits (heldOnly s) = regRead ra bits s := by
  cases hw : wholeWord ra bits with
  | false => rw [regRead_partial hw, regRead_partial hw]
  | true =>
    cases hr : regAt ra.toNat with
    | none => rw [regRead_reserved hr, regRead_reserved hr]
    | some r =>
      have hv : holdsValue (heldOnly s) r = holdsValue s r := by cases r <;> rfl
      rw [regRead_at hw hr, regRead_at hw hr, hv]
      split
      · next h => exact contents_heldOnly h
      · rfl

/-- A completed command uses no register that holds no value. -/
theorem completed_agrees {i : Instr} {s : State} (h : StateInv s) (hm : ∀ c, ¬meets i s c) :
    AgreeOnHeld (completed i (heldOnly s)) (completed i s) := by
  have hs := heldOnly_agrees s
  cases i with
  | nop => exact hs
  | cinit => exact { hs with control := rfl, table := fun _ => ⟨rfl, rfl⟩ }
  | ainit => exact { hs with control := rfl, acc := fun _ => ⟨rfl, rfl⟩ }
  | blk =>
    obtain ⟨hp, hc, _, _⟩ := blk_unmet hm
    obtain ⟨hcoeff, hcarry⟩ := hs.table hc
    obtain ⟨hh, hsh⟩ := hs.acc (h.accHeld (.inl hp))
    refine { hs with control := rfl, acc := fun _ => ⟨?_, hsh⟩ }
    simp only [completed, foldedBlock, hcoeff, hcarry, hh]
    rfl
  | red =>
    obtain ⟨hh, _⟩ := hs.acc (h.accHeld (.inl (red_unmet hm)))
    exact { hs with control := rfl, acc := fun _ => ⟨hh, congrArg reduceAll hh⟩ }
  | tail =>
    obtain ⟨hp, _, _⟩ := tail_unmet hm
    obtain ⟨hh, hsh⟩ := hs.acc (h.accHeld (.inr hp))
    exact { hs with
      control := rfl
      acc := fun _ => ⟨hh, congrArg (foldByte · (byteSeen s (srcAddr s s.offset.toNat))) hsh⟩ }
  | fin =>
    obtain ⟨_, hsh⟩ := hs.acc (h.accHeld (.inr (fin_unmet hm)))
    exact { hs with control := rfl, result := fun _ => hsh }
  | hash => exact { hs with control := rfl }
  | rdbyte => exact { hs with control := rfl, rdata := fun _ => rfl }
  | rdblk wsel =>
    refine { hs with control := rfl, vbuf := fun g i hl => ?_ }
    simp only [completed, vbufWith, Bank.get_ofFn] at hl ⊢
    by_cases hw : g.val * L + i.val < if wsel = 0 then L else B
    · rw [if_pos hw, if_pos hw]
      rfl
    · rw [if_neg hw, if_neg hw]
      exact hs.vbuf g i ((lt_max_iff.mp hl).resolve_right hw)
  | clr => exact { hs with control := rfl, ovr := rfl }

theorem move_agrees {s : State} {f : State → State} (h : StateInv s) (hf : Move s f) :
    AgreeOnHeld (f (heldOnly s)) (f s) := by
  have hs := heldOnly_agrees s
  cases hf with
  | hold => exact hs
  | reset => exact .refl (applyReset s)
  | command hb hf hm => exact completed_agrees h hm
  | micro hb hm =>
    have hdone := completed_agrees h hm
    exact { hdone with
      control := congrArg (fun t => { t with hseq := sequencerNext s }) hdone.control }
  | reply ra bits =>
    exact { hs with
      control := congrArg (fun w => bare { s with replies := w :: s.replies })
        (regRead_heldOnly ra bits s) }
  | drop => exact { hs with control := rfl, ovr := rfl }
  | fault | descriptor | memory => exact { hs with control := rfl }

/-- The blanked state as one with another payload, also after its next event is taken. -/
theorem heldOnly_eventTaken (s : State) :
    heldOnly (eventTaken s) = withPayload (heldPayload s) (eventTaken s) := rfl

theorem heldOnly_nextDraw (s : State) : heldOnly (nextDraw s) = nextDraw (heldOnly s) := rfl

/-- Settles O19: the blanked state makes the same move, and what it leaves agrees. -/
theorem unheldRegistersAreNeverUsed : Obligations.UnheldRegistersAreNeverUsed := by
  intro s t h hstep
  have hs := inv_eventTaken h
  have blanked : heldOnly s = withPayload (heldPayload s) s := rfl
  rw [blanked]
  rcases step_moves s with e | ⟨f, hf, e⟩
  · cases hstep.symm.trans (e (payloadOf s))
    refine ⟨_, e (heldPayload s), ?_⟩
    rw [← heldOnly_eventTaken]
    exact heldOnly_eq (heldOnly_agrees (eventTaken s))
  · cases hstep.symm.trans (e (payloadOf s))
    refine ⟨_, e (heldPayload s), ?_⟩
    rw [← heldOnly_eventTaken, heldOnly_nextDraw, heldOnly_nextDraw, heldOnly_eq (move_agrees hs hf)]
    rfl

end Sys2Proof.Proofs

/-! The family of 20_memory.md: what MemRead answers (R62, R63, R72), what a completed store changes (R71), that VPHA
writes no memory (R61), and the requests each command puts on the memory read port (R60, R64). -/

namespace Sys2Proof.Proofs

open Sys2Proof Sys2Proof.Machine Sys2Proof.Config

/-! ## MemRead (R62, R63) -/

theorem requestFor_past {a n : Nat} (h : memTop < a + n) : requestFor a n = [] := if_pos h

theorem requestFor_inside {a n : Nat} (h : a + n ≤ memTop) : requestFor a n = [⟨a, n⟩] :=
  if_neg (Nat.not_lt.mpr h)

/-- Where no other agent writes, a read sees the bytes of memory in order. -/
theorem bytesSeen_stable {s : State} (h : s.mem.storing = []) (a n : Nat) :
    bytesSeen s a n = (List.range n).map fun k => s.mem.byteAt (a + k) := by
  simp only [bytesSeen, byteSeen_stable h]

/-- Settles O42, by whether the range passes the top, and whether the platform admits it. -/
theorem memReadFollowsItsRule : Obligations.MemReadFollowsItsRule := by
  intro a n s hstable
  refine ⟨fun hpast => ?past, fun hin hadm => ?refused, fun hin hadm => ?admitted⟩
  case past =>
    rw [memRead_refused (.inl hpast), requestFor_past hpast]
    rfl
  case refused =>
    rw [memRead_refused (.inr hadm), requestFor_inside hin]
    rfl
  case admitted =>
    have hok : ¬refusedRead s a n :=
      not_or.mpr ⟨Nat.not_lt.mpr hin, fun hno => Bool.false_ne_true (hno.symm.trans hadm)⟩
    rw [memRead_admitted hok, bytesSeen_stable hstable]
    rfl

/-! ## Stores by other agents (R71, R72) -/

theorem byteSeen_storing {s : State} {a : Nat} (h : a ∈ s.mem.storing) :
    byteSeen s a = drawByte s.draws a := if_pos h

theorem byteSeen_settled {s : State} {a : Nat} (h : a ∉ s.mem.storing) :
    byteSeen s a = s.mem.byteAt a := if_neg h

theorem mem_storing_beginStore (m : Memory) (a : Nat) : a ∈ (m.beginStore a).storing := by
  unfold Memory.beginStore
  split
  · assumption
  · exact List.mem_cons_self

theorem not_mem_storing_completeStore (m : Memory) (a : Nat) (b : Byte) :
    a ∉ (m.completeStore a b).storing := by
  simp [Memory.completeStore]

theorem bytesSeen_getElem? {s : State} {a n k : Nat} (h : k < n) :
    (bytesSeen s a n)[k]? = some (byteSeen s (a + k)) := by
  simp [bytesSeen, h]

/-- Settles O43: MemRead answers the bytes as they are seen, and a byte is seen as a draw from `storeBegin` on. -/
theorem overlappedBytesReadAsDraws : Obligations.OverlappedBytesReadAsDraws := by
  refine ⟨fun a n s hok => ?_, fun s t a rest hh hstep => ?_⟩
  · exact ⟨bytesSeen s a n, congrArg Prod.fst (memRead_admitted hok), bytesSeen_length s a n,
      fun k hk => bytesSeen_getElem? hk⟩
  · cases (step_cons hh).symm.trans hstep
    exact byteSeen_storing (mem_storing_beginStore s.mem a.toNat)

/-- Settles O44, by what a completed store does to the memory. -/
theorem completedStoresAreSeen : Obligations.CompletedStoresAreSeen := by
  intro s t a b rest hwf hh hstep
  cases (step_cons hh).symm.trans hstep
  have hheld : (s.mem.completeStore a.toNat b).byteAt a.toNat = b :=
    byteAt_completeStore_self hwf a.toNat b
  exact ⟨hheld, (byteSeen_settled (not_mem_storing_completeStore s.mem a.toNat b)).trans hheld,
    fun a' ha' => byteAt_completeStore_other s.mem b ha',
    fun a' n => admits_completeStore s.mem a.toNat a' n b,
    completeStore_wf hwf a.isLt b, rfl⟩

/-! ## VPHA writes no memory (R61) -/

theorem completed_mem (i : Instr) (s : State) : (completed i s).mem = s.mem := by
  cases i with
  | _ => rfl

theorem bodyOf_mem (i : Instr) (s : State) : (bodyOf i s).mem = s.mem := by
  rcases bodyOf_cases i s with ⟨c, off, w, r, _, e⟩ | ⟨_, e⟩ <;> rw [e]
  · rfl
  · exact completed_mem i s

theorem exec_mem {i : Instr} {s t : State} (h : exec i s = .next t) : t.mem = s.mem := by
  rcases exec_cases h with rfl | ⟨_, rfl⟩ | ⟨_, _, _, rfl⟩ | ⟨_, _, _, rfl⟩
  · rfl
  · exact bodyOf_mem i s
  · rfl
  · rfl

theorem thenGoTo_mem (q : Hseq) (s : State) : (thenGoTo q s).mem = s.mem := by
  unfold thenGoTo
  split <;> rfl

theorem microStep_mem (s : State) : (microStep s).mem = s.mem := by
  rw [microStep_eq, thenGoTo_mem, bodyOf_mem]

theorem regWrite_mem {ra : BitVec 12} {bits : Nat} {d : Word} {s t : State}
    (h : regWrite ra bits d s = .next t) : t.mem = s.mem := by
  rcases regWrite_cases h with rfl | ⟨_, rfl⟩ | ⟨_, _, _, _, _, _, rfl⟩ | ⟨i, _, hexec⟩ |
    ⟨_, _, rfl⟩ | ⟨_, rfl⟩
  case inr.inr.inr.inl => exact exec_mem hexec
  all_goals rfl

/-- Settles O45: no body of a command touches the memory, and commands are all that a write or a micro-step can run. -/
theorem vphaNeverWritesMemory : Obligations.VphaNeverWritesMemory :=
  ⟨fun _ _ _ => exec_mem, microStep_mem, fun _ _ _ _ _ => regWrite_mem, applyReset_mem⟩

/-! ## The requests of each command (R60, R64, R70) -/

/-- From `s` to `t` at most `count` requests went out, each `width` bytes wide and inside the memory space; all of them did,
unless a fault was taken. -/
def IssuesReads (count width : Nat) (s t : State) : Prop :=
  ∃ new : List MemRequest, t.reads = new ++ s.reads ∧ new.length ≤ count ∧
    (∀ r ∈ new, r.bytes = width ∧ r.addr + r.bytes ≤ memTop) ∧
    (t.phase ≠ .fault → new.length = count)

/-- A command that raises before it asks for a read. -/
theorem issuesReads_unread {count width : Nat} {s t : State} (hreads : t.reads = s.reads)
    (hfault : t.phase = .fault) : IssuesReads count width s t :=
  ⟨[], hreads, Nat.zero_le _, by simp, fun h => absurd hfault h⟩

theorem length_requestFor_le (a n : Nat) : (requestFor a n).length ≤ 1 := by
  unfold requestFor
  split <;> simp

/-- A range that passes the top of the memory space puts no request on the port (R63). -/
theorem requestFor_fit (a n : Nat) :
    ∀ r ∈ requestFor a n, r.bytes = n ∧ r.addr + r.bytes ≤ memTop := by
  intro r hr
  by_cases hpast : memTop < a + n
  · simp [requestFor_past hpast] at hr
  · have hin : a + n ≤ memTop := Nat.not_lt.mp hpast
    rw [requestFor_inside hin] at hr
    obtain rfl := List.mem_singleton.mp hr
    exact ⟨rfl, hin⟩

theorem inside_of_admitted {s : State} {a n : Nat} (h : ¬refusedRead s a n) : a + n ≤ memTop :=
  Nat.not_lt.mp (not_or.mp h).1

@[simp] theorem length_blockRequests (s : State) (n : Nat) : (blockRequests s n).length = n := by
  simp [blockRequests]

theorem mem_blockRequests {s : State} {n : Nat} {r : MemRequest} (h : r ∈ blockRequests s n) :
    ∃ g < n, r = ⟨subBlockAddr s g, L⟩ := by
  obtain ⟨g, hg, e⟩ := List.mem_map.mp (List.mem_reverse.mp h)
  exact ⟨g, List.mem_range.mp hg, e.symm⟩

/-- The requests for admitted sub-blocks are L bytes wide and inside the memory space. -/
theorem blockRequests_fit {s : State} {n : Nat}
    (h : ∀ g < n, ¬refusedRead s (subBlockAddr s g) L) :
    ∀ r ∈ blockRequests s n, r.bytes = L ∧ r.addr + r.bytes ≤ memTop := by
  intro r hr
  obtain ⟨g, hg, rfl⟩ := mem_blockRequests hr
  exact ⟨rfl, inside_of_admitted (h g hg)⟩

/-- BLK whose sub-block `g` is the first refused one has asked for the sub-blocks before it, and for it unless it passes the
top (R70). -/
theorem issuesReads_refusedBlock {s : State} {g : Fin 4}
    (hl : ∀ g' : Fin 4, g' < g → ¬refusedRead s (subBlockAddr s g'.val) L) :
    IssuesReads 4 L s (refusedBlock s g.val) := by
  refine ⟨requestFor (subBlockAddr s g.val) L ++ blockRequests s g.val,
    (List.append_assoc _ _ _).symm, ?length, fun r hr => ?fit, fun h => absurd rfl h⟩
  case length =>
    have hone := length_requestFor_le (subBlockAddr s g.val) L
    have hg := g.isLt
    rw [List.length_append, length_blockRequests]
    omega
  case fit =>
    rcases List.mem_append.mp hr with hr | hr
    · exact requestFor_fit _ _ r hr
    · exact blockRequests_fit (fun g' hg' => hl ⟨g', hg'.trans g.isLt⟩ hg') r hr

theorem issuesReads_foldedBlock {s : State}
    (h : ∀ g : Fin 4, ¬refusedRead s (subBlockAddr s g.val) L) :
    IssuesReads 4 L s (foldedBlock s) :=
  ⟨blockRequests s 4, rfl, (length_blockRequests s 4).le,
    blockRequests_fit fun g hg => h ⟨g, hg⟩, fun _ => length_blockRequests s 4⟩

theorem issuesReads_blk (s : State) : IssuesReads 4 L s (blkBody s) := by
  rcases blkBody_cases s with ⟨_, e⟩ | ⟨_, _, e⟩ | ⟨_, _, _, e⟩ | ⟨_, _, _, _, e⟩ |
    ⟨_, _, _, _, g, _, hl, e⟩ | ⟨_, _, _, _, hok, e⟩ <;> rw [e]
  case inr.inr.inr.inr.inl => exact issuesReads_refusedBlock hl
  case inr.inr.inr.inr.inr => exact issuesReads_foldedBlock hok
  all_goals exact issuesReads_unread rfl rfl

/-- A command that makes one adapter read of `w` bytes, and then none. -/
theorem issuesReads_adapter {off : DWord} {w : Nat} {s : State} {use : List Byte → State → State}
    (huse : ∀ bytes t, (use bytes t).reads = t.reads) :
    IssuesReads 1 w s (afterRead use (srcRead off w s)) := by
  rcases srcRead_cases off w s with ⟨_, e⟩ | ⟨_, _, e⟩ | ⟨_, _, _, e⟩ | ⟨_, _, hok, e⟩ <;>
    rw [e, afterRead]
  case inr.inr.inl =>
    exact ⟨requestFor (srcAddr s off.toNat) w, rfl, length_requestFor_le _ _, requestFor_fit _ _,
      fun h => absurd rfl h⟩
  case inr.inr.inr =>
    refine ⟨[⟨srcAddr s off.toNat, w⟩], huse _ _, le_rfl, fun r hr => ?_, fun _ => rfl⟩
    obtain rfl := List.mem_singleton.mp hr
    exact ⟨rfl, inside_of_admitted hok⟩
  all_goals exact issuesReads_unread rfl rfl

theorem issuesReads_tail (s : State) : IssuesReads 1 1 s (tailBody s) := by
  by_cases hp : s.phase = .scalar
  · have hbody : tailBody s = afterRead
        (fun bytes t => { t with sh := foldByte t.sh (bytes.getD 0 0), offset := t.offset + 1 })
        (srcRead s.offset 1 s) := if_neg (not_not.mpr hp)
    exact hbody ▸ issuesReads_adapter fun _ _ => rfl
  · have hbody : tailBody s = raise .seq 0 0 s := if_pos hp
    exact hbody ▸ issuesReads_unread rfl rfl

theorem issuesReads_rdbyte (s : State) : IssuesReads 1 1 s (rdbyteBody s) :=
  issuesReads_adapter (off := s.arg)
    (use := fun bytes t =>
      { t with rdata := zext32 (bytes.getD 0 0), written := { t.written with rdata := true } })
    fun _ _ => rfl

theorem issuesReads_rdblk (wsel : Nat) (s : State) :
    IssuesReads 1 (if wsel = 0 then L else B) s (rdblkBody wsel s) := by
  rcases selectedWidth_cases wsel with ⟨_, hw⟩ | ⟨_, hw⟩ <;> simp only [rdblkBody, hw]
  · exact issuesReads_adapter (off := s.arg)
      (use := fun bytes t =>
        { t with
          vbuf := vbufWith t.vbuf (if wsel = 0 then L else B) bytes
          written :=
            { t.written with vbufLanes := max t.written.vbufLanes (if wsel = 0 then L else B) } })
      fun _ _ => rfl
  · exact issuesReads_unread rfl rfl

/-- A command that reads nothing leaves the log as it is, also when it raises. -/
theorem bodyOf_reads {i : Instr} (h : readsOf i = 0) (s : State) : (bodyOf i s).reads = s.reads := by
  cases i with
  | blk | tail | rdbyte | rdblk => cases h
  | nop | cinit | ainit | clr => rfl
  | red =>
    simp only [bodyOf, redBody]
    split <;> rfl
  | fin =>
    simp only [bodyOf, finBody]
    split <;> rfl
  | hash =>
    simp only [bodyOf, hashBody]
    split <;> rfl

theorem issuesReads_none {i : Instr} (h : readsOf i = 0) (s : State) :
    IssuesReads (readsOf i) (readWidthOf i) s (bodyOf i s) :=
  ⟨[], bodyOf_reads h s, Nat.zero_le _, by simp, fun _ => h.symm⟩

/-- The body of every command issues the reads that R64 states for it. -/
theorem bodyOf_issuesReads (i : Instr) (s : State) :
    IssuesReads (readsOf i) (readWidthOf i) s (bodyOf i s) := by
  cases i with
  | blk => exact issuesReads_blk s
  | tail => exact issuesReads_tail s
  | rdbyte => exact issuesReads_rdbyte s
  | rdblk wsel => exact issuesReads_rdblk wsel s
  | nop | cinit | ainit | red | fin | hash | clr => exact issuesReads_none rfl s

/-- A command that is dropped, or accepted in FAULT, issues no read. -/
theorem reads_not_accepting {i : Instr} {s t : State} (ha : ¬Accepting s) (h : exec i s = .next t) :
    t.reads = s.reads := by
  rcases exec_cases h with rfl | ⟨ha', _⟩ | ⟨_, _, _, rfl⟩ | ⟨_, _, _, rfl⟩
  · rfl
  · exact absurd ha' ha
  · rfl
  · rfl

/-- Settles O47: an accepted command issues the reads of its body, every other none. -/
theorem readsOfEachCommand : Obligations.ReadsOfEachCommand := by
  intro i s t h
  by_cases ha : Accepting s
  · cases (exec_accepting i ha).symm.trans h
    obtain ⟨new, hreads, hcount, hfit, hall⟩ := bodyOf_issuesReads i s
    exact ⟨new, hreads, hcount, hfit, fun _ => hall⟩
  · exact ⟨[], reads_not_accepting ha h, Nat.zero_le _, by simp, fun ha' => absurd ha' ha⟩

end Sys2Proof.Proofs

/-! The family of 30_encoding.md: a word means a command just when its fields are that command's (R81 to R84), so decode and
encode are inverse on the well-formed commands; every other word is ILLEGAL, and raises when it is accepted (R85, R86). -/

namespace Sys2Proof.Proofs

open Sys2Proof Sys2Proof.Machine

/-! ## The fields of a command word (R81, R83) -/

theorem opcode_le (i : Instr) : (opcode i).toNat ≤ 0x0A := by
  cases i with
  | rdblk => exact Nat.le_of_ble_eq_true rfl
  | _ => decide

/-- Only RDBLK has a WSEL other than 0 (R82). -/
theorem opcode_of_widthSelect {i : Instr} (h : widthSelect i ≠ 0) : opcode i = 0x09 := by
  cases i with
  | rdblk => rfl
  | _ => exact absurd rfl h

/-! ## What decodes to a command (R84) -/

theorem plainCommand_opcode {opc : Nat} {i : Instr} (h : plainCommand opc = .ok i) :
    (opcode i).toNat = opc ∧ widthSelect i = 0 ∧ i.wellFormed = true := by
  unfold plainCommand at h
  split at h <;> cases h <;> exact ⟨rfl, rfl, rfl⟩

/-- A word that decodes to a command carries that command's fields. -/
theorem decode_fields {w : Word} {i : Instr} (h : decode w = .ok i) :
    rsvField w = 0 ∧ wselField w = widthSelect i ∧ opcField w = opcode i ∧ i.wellFormed = true := by
  unfold decode at h
  split_ifs at h with hrsv hopc hwsel
  · cases h
    exact ⟨not_not.mp hrsv, by simp [widthSelect], hopc, decide_eq_true (wselField w).isLt⟩
  · obtain ⟨ho, hw, hwf⟩ := plainCommand_opcode h
    exact ⟨not_not.mp hrsv, (not_not.mp hwsel).trans hw.symm, BitVec.eq_of_toNat_eq ho.symm, hwf⟩

theorem encode_of_decode {w : Word} {i : Instr} (h : decode w = .ok i) : encode i = w := by
  obtain ⟨hrsv, hwsel, hopc, _⟩ := decode_fields h
  calc encode i = (rsvField w ++ wselField w) ++ opcField w := by
        rw [hrsv, hwsel, hopc]
        rfl
    _ = w := word_fields w

/-- The meaning of a word: the well-formed command that it encodes, if there is one. -/
theorem decode_eq_ok_iff {w : Word} {i : Instr} :
    decode w = .ok i ↔ i.wellFormed = true ∧ encode i = w := by
  refine ⟨fun h => ?_, fun ⟨hwf, hw⟩ => hw ▸ decode_encode hwf⟩
  obtain ⟨_, _, _, hwf⟩ := decode_fields h
  exact ⟨hwf, encode_of_decode h⟩

/-- Settles O2, command by command and, for RDBLK, WSEL by WSEL. -/
theorem decodeOfEncodeIsTheCommand : Obligations.DecodeOfEncodeIsTheCommand :=
  fun _ => decode_encode

/-- Settles O3: the fields of the word are those of the command, and a word is its fields. -/
theorem encodeOfDecodeIsTheWord : Obligations.EncodeOfDecodeIsTheWord :=
  fun _ _ => decode_eq_ok_iff.mp

/-! ## The fourteen words (R84) and the listing (R93) -/

/-- Every well-formed command, in the order of the opcodes. -/
def commands : List Instr :=
  [.nop, .cinit, .ainit, .blk, .red, .tail, .fin, .hash, .rdbyte, .rdblk 0, .rdblk 1, .rdblk 2,
    .rdblk 3, .clr]

theorem mem_commands_iff {i : Instr} : i ∈ commands ↔ i.wellFormed = true := by
  cases i with
  | rdblk wsel =>
    simp only [commands, List.mem_cons, reduceCtorEq, Instr.rdblk.injEq, List.not_mem_nil, or_self,
      or_false, false_or, Instr.wellFormed, decide_eq_true_eq]
    omega
  | _ => simp [commands, Instr.wellFormed]

/-- Settles O1: the list pairs each well-formed command with its encoding. -/
theorem decodeAdmitsExactlyFourteenWords : Obligations.DecodeAdmitsExactlyFourteenWords := by
  intro w i
  change _ ↔ (w, i) ∈ commands.map fun c => (encode c, c)
  rw [decode_eq_ok_iff, ← mem_commands_iff]
  simp only [List.mem_map, Prod.mk.injEq]
  exact ⟨fun ⟨hi, hw⟩ => ⟨i, hi, hw, rfl⟩, fun ⟨_, hc, hw, hi⟩ => hi ▸ ⟨hc, hw⟩⟩

/-- Settles O4: each listed word is the encoding of its mnemonic. -/
theorem listedWordsDecode : Obligations.ListedWordsDecode :=
  ⟨decode_encode (i := .nop) rfl, decode_encode (i := .cinit) rfl, decode_encode (i := .ainit) rfl,
    decode_encode (i := .blk) rfl, decode_encode (i := .red) rfl, decode_encode (i := .tail) rfl,
    decode_encode (i := .fin) rfl, decode_encode (i := .hash) rfl, decode_encode (i := .rdbyte) rfl,
    decode_encode (i := .rdblk 0) rfl, decode_encode (i := .rdblk 1) rfl,
    decode_encode (i := .clr) rfl⟩

/-! ## ILLEGAL words (R85, R86) -/

/-- Each cause of R85 and R86 is a field that no command has. -/
theorem decode_ne_ok {w : Word} (h : rsvField w ≠ 0 ∨ (wselField w ≠ 0 ∧ opcField w ≠ 0x09) ∨
    0x0A < (opcField w).toNat) (i : Instr) : decode w ≠ .ok i := by
  intro hd
  obtain ⟨hrsv, hwsel, hopc, _⟩ := decode_fields hd
  rcases h with hr | ⟨hw, ho⟩ | ho
  · exact hr hrsv
  · exact ho (hopc.trans (opcode_of_widthSelect (hwsel ▸ hw)))
  · exact absurd (opcode_le i) (Nat.not_le.mpr (hopc ▸ ho))

/-- Settles O5: a word with no meaning, presented and accepted, raises with the record (0, 0). -/
theorem illegalWordRaisesWhenAccepted : Obligations.IllegalWordRaisesWhenAccepted := by
  intro w h
  cases hd : decode w with
  | ok i => exact absurd hd (decode_ne_ok h i)
  | error why =>
    refine ⟨⟨why, rfl⟩, fun s hs => ?_⟩
    rw [regWrite_cmd, presentWord_illegal hd, present_accepting hs]
    rfl

end Sys2Proof.Proofs

/-! The family of 40_coefficient.md: the coefficient table is the powers of 31 (R100 to R103), and CINIT writes it (R104)
and nothing else, so that writing it again changes nothing (R105). -/

namespace Sys2Proof.Proofs

open Sys2Proof Sys2Proof.Machine

/-! ## The closed form of the table (R100) -/

theorem coeffTable_closed (g : Fin 4) (i : Fin 8) :
    coeffTable.get g i = BitVec.ofNat 32 (31 ^ (32 - 1 - (g.val * 8 + i.val))) := by
  rw [coeffTable_get, powerOf31_eq]

theorem coeffTable_eq_ofFn :
    coeffTable = Bank.ofFn fun g i => BitVec.ofNat 32 (31 ^ (32 - 1 - (g.val * 8 + i.val))) :=
  Bank.ext_get fun g i => by rw [coeffTable_closed, Bank.get_ofFn]

theorem carryCoeff_closed : carryCoeff = BitVec.ofNat 32 (31 ^ 32) := by
  rw [carryCoeff_eq, powerOf31_eq]

/-! ## CINIT (R104, R105) -/

/-- Where commands are not accepted, every command but NOP and CLR is dropped (R39). -/
theorem exec_not_accepting {i : Instr} {s : State} (hn : i ≠ .nop) (hc : i ≠ .clr)
    (ha : ¬Accepting s) : exec i s = .next (dropWrite s) := by
  cases hb : s.busy with
  | true => exact exec_busy i hb
  | false => exact exec_inFault hb (not_not.mp fun hp => ha ⟨hb, hp⟩) hn hc

/-- CINIT over a table that is already in place (R105). -/
theorem cinitBody_eq_self {s : State} (hcoeff : s.coeff = coeffTable) (hcarry : s.carry = carryCoeff)
    (hvalid : s.ctValid = true) : cinitBody s = s := by
  rw [cinitBody, ← hcoeff, ← hcarry, ← hvalid]

/-- Settles O39: each lane is the power of 31 that R101 constructs; the invariant keeps the table that CINIT writes. -/
theorem tableHoldsPowersOf31 : Obligations.TableHoldsPowersOf31 := by
  refine ⟨fun g i => ⟨coeffTable_closed g i, coeffTable_get g i⟩, carryCoeff_closed, ?_,
    fun s hinv ha hvalid => ?_⟩
  · rw [carryCoeff_eq, powerOf31]
  · obtain ⟨hcoeff, hcarry⟩ := hinv.table hvalid
    calc exec .cinit s
        = .next (cinitBody s) := exec_accepting .cinit ha
      _ = .next s := by rw [cinitBody_eq_self hcoeff hcarry hvalid]

/-- Settles O30: what CINIT writes is the closed form of R100. -/
theorem cinitBuildsTheTable : Obligations.CinitBuildsTheTable := by
  refine ⟨rfl, fun s ha => exec_not_accepting nofun nofun ha, fun s ha => ?_⟩
  rw [← coeffTable_eq_ofFn, ← carryCoeff_closed]
  exact exec_accepting .cinit ha

end Sys2Proof.Proofs

/-! The family of 41_byte_source.md: RDBYTE and RDBLK (R119, R120), that nothing VPHA runs writes the descriptor (R118), and
that two views of the same bytes cannot be told apart (R113, R116). -/

namespace Sys2Proof.Proofs

open Sys2Proof Sys2Proof.Machine Sys2Proof.Config

/-! ## The adapter commands (R119, R120) -/

/-- What RDBYTE does with the byte it has read. -/
def byteIntoRdata (bytes : List Byte) (s : State) : State :=
  { s with rdata := zext32 (bytes.getD 0 0), written := { s.written with rdata := true } }

/-- What RDBLK does with the `w` bytes it has read. -/
def bytesIntoVbuf (w : Nat) (bytes : List Byte) (s : State) : State :=
  { s with
    vbuf := vbufWith s.vbuf w bytes
    written := { s.written with vbufLanes := max s.written.vbufLanes w } }

/-- What TAIL does with the byte it has read. -/
def byteIntoSh (bytes : List Byte) (s : State) : State :=
  { s with sh := foldByte s.sh (bytes.getD 0 0), offset := s.offset + 1 }

theorem rdbyteBody_eq (s : State) :
    rdbyteBody s = afterRead byteIntoRdata (srcRead s.arg 1 s) := rfl

theorem rdblkBody_eq {wsel w : Nat} (hw : selectedWidth wsel = some w) (s : State) :
    rdblkBody wsel s = afterRead (bytesIntoVbuf w) (srcRead s.arg w s) := by
  simp only [rdblkBody, hw]
  rfl

theorem rdblkBody_reserved {wsel : Nat} (hw : selectedWidth wsel = none) (s : State) :
    rdblkBody wsel s = raise .width 0 0 s := by
  simp only [rdblkBody, hw]

/-- Lane j below `w` holds source byte `off + j` (R114, R120). -/
theorem vbufWith_bytesSeen (old : Bank) (s : State) (off w : Nat) :
    vbufWith old w (bytesSeen s (srcAddr s off) w) =
      Bank.ofFn fun g i =>
        if g.val * L + i.val < w then zext32 (byteSeen s (srcAddr s (off + (g.val * L + i.val))))
        else old.get g i := by
  refine Bank.ext_get fun g i => ?_
  rw [vbufWith, Bank.get_ofFn, Bank.get_ofFn]
  split
  · next hj => rw [bytesSeen_getD hj, srcAddr_add]
  · rfl

/-- Settles O37: RDBYTE is one adapter read at ARG, and each of its outcomes is one outcome of that read. -/
theorem rdbyteReadsOneByte : Obligations.RdbyteReadsOneByte := by
  have reads : ∀ {s : State}, Accepting s →
      exec .rdbyte s = .next (afterRead byteIntoRdata (srcRead s.arg 1 s)) :=
    exec_accepting .rdbyte
  refine ⟨rfl, fun s => exec_not_accepting nofun nofun, fun s ha hk => ?kind,
    fun s ha hk hr => ?range, fun s ha hk hr hb => ?bus, fun s ha hk hr hb => ?got⟩
  case kind => rw [reads ha, srcRead_kind hk, afterRead]
  case range => rw [reads ha, srcRead_range hk (Nat.lt_succ_of_le hr), afterRead]
  case bus => rw [reads ha, srcRead_refused hk hr hb, afterRead]
  case got =>
    rw [reads ha, srcRead_got hk hr hb, afterRead, byteIntoRdata, bytesSeen_getD Nat.zero_lt_one]
    rfl

/-- Settles O38: RDBLK is one adapter read of the selected width at ARG. -/
theorem rdblkReadsIntoVbuf : Obligations.RdblkReadsIntoVbuf := by
  have reads : ∀ {s : State} {wsel w : Nat}, (wsel, w) ∈ [(0, 8), (1, 32)] → Accepting s →
      exec (.rdblk wsel) s = .next (afterRead (bytesIntoVbuf w) (srcRead s.arg w s)) := by
    intro s wsel w hw ha
    have hsel : selectedWidth wsel = some w := by
      rcases List.mem_pair.mp hw with e | e <;> cases e <;> rfl
    rw [exec_accepting _ ha, bodyOf, rdblkBody_eq hsel]
  refine ⟨⟨rfl, rfl, rfl, rfl⟩, fun s wsel => exec_not_accepting nofun nofun,
    fun s wsel ha h0 h1 => ?width, fun s wsel w hw ha => ⟨fun hk => ?kind, fun hk hr => ?range,
      fun hk hr hb => ?bus, fun hk hr hb => ?got⟩⟩
  case width =>
    have hsel : selectedWidth wsel = none :=
      ((selectedWidth_cases wsel).resolve_left fun h => h.1.elim h0 h1).2
    rw [exec_accepting _ ha, bodyOf, rdblkBody_reserved hsel]
  case kind => rw [reads hw ha, srcRead_kind hk, afterRead]
  case range => rw [reads hw ha, srcRead_range hk hr, afterRead]
  case bus => rw [reads hw ha, srcRead_refused hk hr hb, afterRead]
  case got =>
    rw [reads hw ha, srcRead_got hk hr hb, afterRead, bytesIntoVbuf, vbufWith_bytesSeen]
    rfl

/-! ## The descriptor and ARG are kept (R118) -/

/-- `t` has the descriptor and the ARG of `s`. -/
def KeepsDescriptor (s t : State) : Prop :=
  t.kind = s.kind ∧ t.base = s.base ∧ t.len = s.len ∧ t.woff = s.woff ∧ t.arg = s.arg

theorem KeepsDescriptor.refl (s : State) : KeepsDescriptor s s := ⟨rfl, rfl, rfl, rfl, rfl⟩

theorem completed_keepsDescriptor (i : Instr) (s : State) : KeepsDescriptor s (completed i s) := by
  cases i with
  | _ => exact .refl s

theorem bodyOf_keepsDescriptor (i : Instr) (s : State) : KeepsDescriptor s (bodyOf i s) := by
  rcases bodyOf_cases i s with ⟨_, _, _, _, _, e⟩ | ⟨_, e⟩ <;> rw [e]
  · exact .refl s
  · exact completed_keepsDescriptor i s

theorem exec_keepsDescriptor {i : Instr} {s t : State} (h : exec i s = .next t) :
    KeepsDescriptor s t := by
  rcases exec_cases h with rfl | ⟨_, rfl⟩ | ⟨_, _, _, rfl⟩ | ⟨_, _, _, rfl⟩
  case inr.inl => exact bodyOf_keepsDescriptor i s
  all_goals exact .refl _

theorem thenGoTo_keepsDescriptor (q : Hseq) (s : State) : KeepsDescriptor s (thenGoTo q s) := by
  unfold thenGoTo
  split <;> exact .refl s

theorem microStep_keepsDescriptor (s : State) : KeepsDescriptor s (microStep s) := by
  obtain ⟨hk, hb, hl, hw, ha⟩ := bodyOf_keepsDescriptor (sequencerCommand s) s
  obtain ⟨hk', hb', hl', hw', ha'⟩ :=
    thenGoTo_keepsDescriptor (sequencerNext s) (bodyOf (sequencerCommand s) s)
  rw [microStep_eq]
  exact ⟨hk'.trans hk, hb'.trans hb, hl'.trans hl, hw'.trans hw, ha'.trans ha⟩

/-- Settles O46: a body raises or completes, and neither writes the descriptor or ARG. -/
theorem commandsKeepTheDescriptor : Obligations.CommandsKeepTheDescriptor :=
  ⟨fun _ _ _ => exec_keepsDescriptor, microStep_keepsDescriptor⟩

/-- With the memory kept too, the source is kept (R61, R118). -/
theorem KeepsDescriptor.sameSource {s t : State} (h : KeepsDescriptor s t) (hm : t.mem = s.mem) :
    SameSource s t := by
  obtain ⟨hk, hb, hl, hw, _⟩ := h
  simp only [SameSource, viewOf, hk, hb, hl, hw, hm]

/-! ## Registers apart from the place of the source (R116) -/

/-- The registers with KIND, SRC_BASE and SRC_WOFF blanked. -/
def unplaced (s : State) : State := registers { s with kind := .own, base := 0, woff := 0 }

/-- Two states whose registers differ at most in the place of the source. -/
def SameButPlace (s t : State) : Prop := unplaced s = unplaced t

section place

variable {s t : State}

/-- What does not look at the place of the source, the memory or the logs is the same of both. -/
theorem SameButPlace.same (h : SameButPlace s t) {α : Type} {f : State → α}
    (hf : ∀ u, f u = f (unplaced u)) : f s = f t := by
  rw [hf s, hf t, h]

theorem SameButPlace.update (h : SameButPlace s t) {f : State → State}
    (hf : ∀ u, unplaced (f u) = unplaced (f (unplaced u))) : SameButPlace (f s) (f t) :=
  h.same hf

theorem SameButPlace.raise (h : SameButPlace s t) (c : ErrCode) (off : DWord) (w : Nat) :
    SameButPlace (raise c off w s) (raise c off w t) := h.update fun _ => rfl

/-- Two tests with one answer, and the same on both branches. -/
theorem sameButPlace_ite {p q : Prop} [Decidable p] [Decidable q] {a b c d : State} (hpq : p ↔ q)
    (hpos : q → SameButPlace a c) (hneg : ¬q → SameButPlace b d) :
    SameButPlace (if p then a else b) (if q then c else d) := by
  rw [SameButPlace, apply_ite unplaced, apply_ite unplaced]
  exact ite_congr (propext hpq) hpos hneg

/-- The logs of the read port are no registers. -/
theorem SameButPlace.reads (h : SameButPlace s t) (r r' : List MemRequest) :
    SameButPlace { s with reads := r } { t with reads := r' } := h

theorem SameButPlace.offset_eq (h : SameButPlace s t) : s.offset = t.offset := h.same fun _ => rfl

theorem SameButPlace.arg_eq (h : SameButPlace s t) : s.arg = t.arg := h.same fun _ => rfl

theorem SameButPlace.srcLength_eq (h : SameButPlace s t) : srcLength s = srcLength t :=
  h.same fun _ => rfl

theorem SameButPlace.phase_iff (h : SameButPlace s t) (p : Phase) : s.phase = p ↔ t.phase = p :=
  Eq.congr_left (h.same (f := State.phase) fun _ => rfl)

theorem SameButPlace.thenGoTo (h : SameButPlace s t) (q : Hseq) :
    SameButPlace (thenGoTo q s) (thenGoTo q t) :=
  sameButPlace_ite (h.phase_iff .fault) (fun _ => h)
    fun _ => h.update (f := fun u => { u with hseq := q }) fun _ => rfl

end place

/-! ## Two views of the same bytes (R113, R116) -/

section views

variable {s t : State}

theorem view_agree (h : SameView s t) : SameButPlace s t := h.registersAgree

/-- Both views show the same byte at an offset (R116). -/
theorem view_byteSeen (h : SameView s t) {off : Nat} (ho : off < srcLength s) :
    byteSeen s (srcAddr s off) = byteSeen t (srcAddr t off) := by
  rw [byteSeen_stable h.stableS, byteSeen_stable h.stableT]
  exact h.sameBytes off ho

theorem view_bytesSeen (h : SameView s t) {off w : Nat} (ho : off + w ≤ srcLength s) :
    bytesSeen s (srcAddr s off) w = bytesSeen t (srcAddr t off) w := by
  refine List.map_congr_left fun k hk => ?_
  have hin : off + k < srcLength s := (Nat.add_lt_add_left (List.mem_range.mp hk) off).trans_le ho
  rw [← srcAddr_add, ← srcAddr_add, view_byteSeen h hin]

/-- Where the whole source ends inside the memory space, so does every read of it (R63). -/
theorem srcAddr_inside {u : State} {off w n : Nat} (ho : off + w ≤ n) (hn : srcAddr u n ≤ memTop) :
    srcAddr u off + w ≤ memTop := by
  obtain ⟨k, rfl⟩ := Nat.exists_eq_add_of_le ho
  rw [srcAddr_add, srcAddr_add] at hn
  omega

/-- The platform answers a read of both views alike (R116). -/
theorem view_refused (h : SameView s t) {off w : Nat} (ho : off + w ≤ srcLength s) :
    refusedRead s (srcAddr s off) w ↔ refusedRead t (srcAddr t off) w := by
  have hs := Nat.not_lt.mpr (srcAddr_inside ho h.insideS)
  have ht := Nat.not_lt.mpr (srcAddr_inside ho h.insideT)
  simp only [refusedRead, hs, ht, false_or, h.sameReads off w ho]

/-- States that have kept their sources, and whose registers agree again, are views of the same bytes. -/
theorem view_of_agree {s' t' : State} (h : SameView s t) (hs : SameSource s s')
    (ht : SameSource t t') (ha : SameButPlace s' t') : SameView s' t' where
  kindS := by rw [hs.kind_eq]; exact h.kindS
  kindT := by rw [ht.kind_eq]; exact h.kindT
  stableS := by rw [hs.mem_eq, h.stableS]
  stableT := by rw [ht.mem_eq, h.stableT]
  registersAgree := ha
  sameBytes off ho := by
    rw [hs.srcLength_eq] at ho
    rw [sourceByte, sourceByte, hs.mem_eq, ht.mem_eq, hs.srcAddr_eq, ht.srcAddr_eq]
    exact h.sameBytes off ho
  insideS := by rw [hs.srcAddr_eq, hs.srcLength_eq]; exact h.insideS
  insideT := by rw [ht.srcAddr_eq, hs.srcLength_eq]; exact h.insideT
  sameReads off w ho := by
    rw [hs.srcLength_eq] at ho
    rw [hs.mem_eq, ht.mem_eq, hs.srcAddr_eq, ht.srcAddr_eq, h.sameReads off w ho]

/-! ## The bodies over two views -/

/-- An adapter read over two views, and a command that goes on with the bytes alone: the same bytes, or the same error. -/
theorem view_afterRead (h : SameView s t) {use : List Byte → State → State}
    (huse : ∀ bytes u, unplaced (use bytes u) = unplaced (use bytes (unplaced u))) (off : DWord)
    (w : Nat) : SameButPlace (afterRead use (srcRead off w s)) (afterRead use (srcRead off w t)) := by
  have ha := view_agree h
  have inside {n : Nat} : n ≤ srcLength s → n ≤ srcLength t := ha.srcLength_eq ▸ id
  rcases srcRead_cases off w s with ⟨hk, _⟩ | ⟨_, hr, e⟩ | ⟨_, hr, hb, e⟩ | ⟨_, hr, hb, e⟩
  · exact absurd hk h.kindS
  · rw [e, srcRead_range h.kindT (ha.srcLength_eq ▸ hr)]
    exact ha.raise .range off w
  · rw [e, srcRead_refused h.kindT (inside hr) ((view_refused h hr).mp hb)]
    exact (ha.reads _ _).raise .bus off w
  · rw [e, srcRead_got h.kindT (inside hr) (mt (view_refused h hr).mpr hb), view_bytesSeen h hr]
    exact SameButPlace.update (ha.reads _ _) (huse _)

/-- The four sub-blocks lie inside the source when the block does (R132). -/
theorem subBlock_inside {o n : Nat} (ho : o + B ≤ n) (g : Fin 4) : o + g.val * L + L ≤ n := by
  have hg := g.isLt
  simp only [B, L] at ho ⊢
  omega

/-- A block folded from two views leaves the same lanes. -/
theorem view_foldedLanes (h : SameView s t) (ho : s.offset.toNat + B ≤ srcLength s) :
    (foldedBlock s).h = (foldedBlock t).h := by
  have ha := view_agree h
  have hcoeff : s.coeff = t.coeff := ha.same fun _ => rfl
  have hcarry : s.carry = t.carry := ha.same fun _ => rfl
  have hacc : s.h = t.h := ha.same fun _ => rfl
  refine Bank.ext_get fun g i => ?_
  have hin : s.offset.toNat + g.val * L + i.val < srcLength s :=
    (Nat.add_lt_add_left i.isLt _).trans_le (subBlock_inside ho g)
  simp only [foldedBlock, Bank.get_ofFn]
  rw [view_byteSeen h hin, ha.offset_eq, hcoeff, hcarry, hacc]

theorem view_foldedBlock (h : SameView s t) (ho : s.offset.toNat + B ≤ srcLength s) :
    SameButPlace (foldedBlock s) (foldedBlock t) := by
  have folded : ∀ u : State, unplaced (foldedBlock u) =
      unplaced { u with h := (foldedBlock u).h, offset := u.offset + BitVec.ofNat 64 B } := fun _ => rfl
  rw [SameButPlace, folded, folded, view_foldedLanes h ho]
  exact (view_agree h).update (f := fun u =>
    { u with h := (foldedBlock t).h, offset := u.offset + BitVec.ofNat 64 B }) fun _ => rfl

/-- The four reads of BLK are all admitted to both views, or the same one is the first refused (R132, R175). -/
theorem view_readAndFoldBlock (h : SameView s t) (ho : s.offset.toNat + B ≤ srcLength s) :
    SameButPlace (readAndFoldBlock s) (readAndFoldBlock t) := by
  have ha := view_agree h
  have refused : ∀ g : Fin 4,
      refusedRead s (subBlockAddr s g.val) L ↔ refusedRead t (subBlockAddr t g.val) L := fun g => by
    rw [subBlockAddr, subBlockAddr, ← ha.offset_eq]
    exact view_refused h (subBlock_inside ho g)
  by_cases hall : ∀ g : Fin 4, ¬refusedRead s (subBlockAddr s g.val) L
  · rw [readAndFoldBlock_admitted hall,
      readAndFoldBlock_admitted fun g => mt (refused g).mpr (hall g)]
    exact view_foldedBlock h ho
  · obtain ⟨g, hg, hl⟩ := first_refused hall
    rw [readAndFoldBlock_refused hg hl,
      readAndFoldBlock_refused ((refused g).mp hg) fun g' hg' => mt (refused g').mpr (hl g' hg')]
    exact ha.update (f := fun u => refusedBlock u g.val) fun _ => rfl

theorem view_blkBody (h : SameView s t) : SameButPlace (blkBody s) (blkBody t) := by
  have ha := view_agree h
  have hvalid : s.ctValid = t.ctValid := ha.same fun _ => rfl
  unfold blkBody
  rw [← ha.srcLength_eq, ← ha.offset_eq, ← hvalid]
  exact sameButPlace_ite (not_congr (ha.phase_iff .acc)) (fun _ => ha.raise .seq 0 0)
    fun _ => sameButPlace_ite .rfl (fun _ => ha.raise .noTable 0 0)
    fun _ => sameButPlace_ite (iff_of_false h.kindS h.kindT) (fun _ => ha.raise .kind 0 0)
    fun _ => sameButPlace_ite .rfl (fun _ => ha.raise .range _ B)
    fun hr => view_readAndFoldBlock h (Nat.not_lt.mp hr)

theorem view_tailBody (h : SameView s t) : SameButPlace (tailBody s) (tailBody t) := by
  have ha := view_agree h
  refine sameButPlace_ite (not_congr (ha.phase_iff .scalar)) (fun _ => ha.raise .seq 0 0) fun _ => ?_
  rw [← ha.offset_eq]
  exact view_afterRead h (use := byteIntoSh) (fun _ _ => rfl) s.offset 1

theorem view_rdblkBody (h : SameView s t) (wsel : Nat) :
    SameButPlace (rdblkBody wsel s) (rdblkBody wsel t) := by
  have ha := view_agree h
  cases hw : selectedWidth wsel with
  | none =>
    rw [rdblkBody_reserved hw, rdblkBody_reserved hw]
    exact ha.raise .width 0 0
  | some w =>
    rw [rdblkBody_eq hw, rdblkBody_eq hw, ← ha.arg_eq]
    exact view_afterRead h (fun _ _ => rfl) s.arg w

/-- No body tells two views of the same bytes apart. -/
theorem view_bodyOf (h : SameView s t) (i : Instr) : SameButPlace (bodyOf i s) (bodyOf i t) := by
  have ha := view_agree h
  cases i with
  | nop => exact ha
  | cinit => exact ha.update (f := cinitBody) fun _ => rfl
  | ainit => exact ha.update (f := ainitBody) fun _ => rfl
  | clr => exact ha.update (f := clearFault) fun _ => rfl
  | blk => exact view_blkBody h
  | tail => exact view_tailBody h
  | rdblk wsel => exact view_rdblkBody h wsel
  | rdbyte =>
    rw [bodyOf, rdbyteBody_eq, rdbyteBody_eq, ← ha.arg_eq]
    exact view_afterRead h (fun _ _ => rfl) s.arg 1
  | red =>
    exact sameButPlace_ite (not_congr (ha.phase_iff .acc)) (fun _ => ha.raise .seq 0 0) fun _ =>
      ha.update (f := completed .red) fun _ => rfl
  | fin =>
    exact sameButPlace_ite (not_congr (ha.phase_iff .scalar)) (fun _ => ha.raise .seq 0 0) fun _ =>
      ha.update (f := completed .fin) fun _ => rfl
  | hash =>
    exact sameButPlace_ite (iff_of_false h.kindS h.kindT) (fun _ => ha.raise .kind 0 0) fun _ =>
      ha.update (f := completed .hash) fun _ => rfl

/-- Both views accept a command or drop it (R39). -/
theorem view_present (h : SameView s t) (inFault : Bool) (i : Instr) :
    SameButPlace (present inFault (bodyOf i) s) (present inFault (bodyOf i) t) := by
  have ha := view_agree h
  have dropped : SameButPlace (dropWrite s) (dropWrite t) := ha.update fun _ => rfl
  have hbusy : s.busy = t.busy := ha.same fun _ => rfl
  exact sameButPlace_ite (by rw [hbusy]) (fun _ => dropped) fun _ =>
    sameButPlace_ite (and_congr_left' (ha.phase_iff .fault)) (fun _ => dropped) fun _ => view_bodyOf h i

theorem view_microStep (h : SameView s t) : SameButPlace (microStep s) (microStep t) := by
  have ha := view_agree h
  have hcommand : sequencerCommand s = sequencerCommand t := ha.same fun _ => rfl
  have hnext : sequencerNext s = sequencerNext t := ha.same fun _ => rfl
  rw [microStep_eq, microStep_eq, ← hcommand, ← hnext]
  exact (view_bodyOf h _).thenGoTo _

end views

/-- Settles O48: commands and micro-steps keep both sources, and no body tells the two views apart. -/
theorem sourceKindsAreEquivalent : Obligations.SourceKindsAreEquivalent := by
  refine ⟨fun i s t h => ⟨_, _, exec_eq i s, exec_eq i t, ?_⟩, fun s t h => ?_⟩
  · have kept : ∀ u, SameSource u (present (freeInFault i) (bodyOf i) u) := fun u =>
      (exec_keepsDescriptor (exec_eq i u)).sameSource (exec_mem (exec_eq i u))
    exact view_of_agree h (kept s) (kept t) (view_present h _ i)
  · have kept : ∀ u, SameSource u (microStep u) := fun u =>
      (microStep_keepsDescriptor u).sameSource (microStep_mem u)
    exact view_of_agree h (kept s) (kept t) (view_microStep h)

end Sys2Proof.Proofs

/-! The family of 42_accumulator.md: AINIT (R131) and BLK (R132), the accumulators lane by lane after m blocks (R136), and that
a running HASH stays right under every interleaving (R135, R136, R145, R153, R157). -/

namespace Sys2Proof.Proofs

open Sys2Proof Sys2Proof.Machine Sys2Proof.Config

/-! ## AINIT (R131) -/

theorem accStart_eq_ofFn : accStart = Bank.ofFn fun g i => if g = 0 ∧ i = 0 then 1 else 0 :=
  Bank.ext_get fun g i => by simp only [accStart_get, Bank.get_ofFn, Fin.val_eq_zero_iff]

/-- Settles O31: what AINIT writes to H is `accStart`, lane by lane. -/
theorem ainitStartsAHash : Obligations.AinitStartsAHash := by
  refine ⟨rfl, fun s ha => exec_not_accepting nofun nofun ha, fun s ha => ?_⟩
  rw [← accStart_eq_ofFn]
  exact exec_accepting .ainit ha

/-! ## BLK (R132) -/

section blk

variable {s : State}

theorem blkBody_outOfSequence (hp : s.phase ≠ .acc) : blkBody s = raise .seq 0 0 s := if_pos hp

theorem blkBody_noTable (hp : s.phase = .acc) (hc : s.ctValid = false) :
    blkBody s = raise .noTable 0 0 s :=
  (if_neg (not_not.mpr hp)).trans (if_pos hc)

theorem blkBody_kind (hp : s.phase = .acc) (hc : s.ctValid = true) (hk : s.kind = .reserved) :
    blkBody s = raise .kind 0 0 s :=
  (if_neg (not_not.mpr hp)).trans ((if_neg (by simp [hc])).trans (if_pos hk))

theorem blkBody_range (hp : s.phase = .acc) (hc : s.ctValid = true) (hk : s.kind ≠ .reserved)
    (hr : srcLength s < s.offset.toNat + B) : blkBody s = raise .range s.offset B s :=
  (if_neg (not_not.mpr hp)).trans ((if_neg (by simp [hc])).trans ((if_neg hk).trans (if_pos hr)))

/-- With its tests passed, BLK commits its block, or raises E_BUS for the first refused sub-block. -/
theorem blkBody_folds_or_refused (hp : s.phase = .acc) (hc : s.ctValid = true)
    (hk : s.kind ≠ .reserved) (hr : s.offset.toNat + B ≤ srcLength s) :
    blkBody s = foldedBlock s ∨ ∃ g : Fin 4, blkBody s = refusedBlock s g.val := by
  rw [blkBody_ready hp hc hk hr]
  by_cases hall : ∀ g : Fin 4, ¬refusedRead s (subBlockAddr s g.val) L
  · exact .inl (readAndFoldBlock_admitted hall)
  · obtain ⟨g, hg, hfirst⟩ := first_refused hall
    exact .inr ⟨g, readAndFoldBlock_refused hg hfirst⟩

end blk

/-- Settles O32, by BLK's tests in their order, then by its first refused sub-block. -/
theorem blkFoldsOneBlock : Obligations.BlkFoldsOneBlock := by
  have runs : ∀ {s t : State}, Accepting s → blkBody s = t → exec .blk s = .next t :=
    fun ha e => (exec_accepting .blk ha).trans (congrArg Host.Outcome.next e)
  refine ⟨rfl, fun s ha => exec_not_accepting nofun nofun ha,
    fun s ha hp => runs ha (blkBody_outOfSequence hp),
    fun s ha hp hc => runs ha (blkBody_noTable hp hc),
    fun s ha hp hc hk => runs ha (blkBody_kind hp hc hk),
    fun s ha hp hc hk hr => runs ha (blkBody_range hp hc hk hr),
    fun s g ha hp hc hk hr hg hfirst => runs ha ?refused,
    fun s ha hp hc hk hr hall => runs ha ?folded⟩
  case refused => exact (blkBody_ready hp hc hk hr).trans (readAndFoldBlock_refused hg hfirst)
  case folded => exact (blkBody_ready hp hc hk hr).trans (readAndFoldBlock_admitted hall)

/-! ## The accumulators after m blocks (R134, R136) -/

/-- R136's sum before it is reduced mod 2^32. -/
def laneSum (b : Nat → Byte) (m g i : Nat) : Nat :=
  (if g = 0 ∧ i = 0 then 31 ^ (m * B) else 0)
    + ((List.range m).map fun j =>
        (b (j * B + g * L + i)).toNat * 31 ^ (m * B - 1 - (j * B + g * L + i))).sum

theorem laneAfter_eq_laneSum (b : Nat → Byte) (m g i : Nat) :
    laneAfter b m g i = BitVec.ofNat 32 (laneSum b m g i) := rfl

/-- One block more raises every exponent by B and adds the block's byte with its power (R136). -/
theorem laneSum_succ (b : Nat → Byte) (m : Nat) (g : Fin 4) (i : Fin 8) :
    laneSum b (m + 1) g.val i.val = laneSum b m g.val i.val * 31 ^ 32
      + (b (m * 32 + g.val * 8 + i.val)).toNat * 31 ^ (31 - (g.val * 8 + i.val)) := by
  have hlane : g.val * 8 + i.val < 32 := by omega
  have start : (if g.val = 0 ∧ i.val = 0 then 31 ^ ((m + 1) * 32) else 0)
      = (if g.val = 0 ∧ i.val = 0 then 31 ^ (m * 32) else 0) * 31 ^ 32 := by
    rw [ite_mul, zero_mul, ← Nat.pow_add, Nat.succ_mul]
  have older : ∀ j ∈ List.range m,
      (b (j * 32 + g.val * 8 + i.val)).toNat * 31 ^ ((m + 1) * 32 - 1 - (j * 32 + g.val * 8 + i.val))
        = (b (j * 32 + g.val * 8 + i.val)).toNat
            * 31 ^ (m * 32 - 1 - (j * 32 + g.val * 8 + i.val)) * 31 ^ 32 := by
    intro j hj
    have hj := List.mem_range.mp hj
    rw [Nat.mul_assoc, ← Nat.pow_add]
    congr 2
    omega
  have newest : (m + 1) * 32 - 1 - (m * 32 + g.val * 8 + i.val) = 31 - (g.val * 8 + i.val) := by omega
  simp only [laneSum, B, L]
  rw [start, List.sum_range_succ, newest, List.map_congr_left older, List.sum_map_mul_right]
  ring

/-- What a block leaves in a lane that holds R136's value. -/
theorem laneAfter_succ (b : Nat → Byte) (m : Nat) (g : Fin 4) (i : Fin 8) :
    laneAfter b (m + 1) g.val i.val = laneAfter b m g.val i.val * carryCoeff
      + zext32 (b (m * 32 + g.val * 8 + i.val)) * coeffTable.get g i := by
  rw [coeffTable_get, zext32_mul_powerOf31, carryCoeff_closed]
  simp only [laneAfter_eq_laneSum, laneSum_succ, BitVec.ofNat_add, BitVec.ofNat_mul]

theorem accStart_lanes (b : Nat → Byte) (g : Fin 4) (i : Fin 8) :
    accStart.get g i = laneAfter b 0 g.val i.val := by
  rw [accStart_get, laneAfter_eq_laneSum, laneSum]
  split <;> rfl

/-- A BLK that succeeds has folded its block, which lies inside the source. -/
theorem blkBody_succeeded {u : State} (hp : (blkBody u).phase = .acc) :
    u.phase = .acc ∧ u.offset.toNat + B ≤ srcLength u ∧ blkBody u = foldedBlock u := by
  obtain ⟨hm, e⟩ := completed_of_not_fault (i := .blk) (u := u) (by rw [bodyOf, hp]; nofun)
  obtain ⟨hacc, _, _, hin⟩ := blk_unmet hm
  exact ⟨hacc, hin, e⟩

/-- The state of the accumulators that R136 states after `m` blocks of the source of `s`. -/
def BlocksFolded (s : State) (m : Nat) (u : State) : Prop :=
  u.offset.toNat = m * 32 ∧
    ∀ (g : Fin 4) (i : Fin 8), u.h.get g i = laneAfter (sourceByte s) m g.val i.val

/-- R136's induction step. -/
theorem BlocksFolded.block {s u : State} {m : Nat} (h : BlocksFolded s m u) (hu : Stepping s u)
    (hs : s.mem.storing = []) (hin : u.offset.toNat + B ≤ srcLength u) :
    BlocksFolded s (m + 1) (foldedBlock u) := by
  obtain ⟨hoff, hlanes⟩ := h
  refine ⟨?offset, fun g i => ?lane⟩
  case offset =>
    calc (foldedBlock u).offset.toNat = u.offset.toNat + B := toNat_add_inside hin
      _ = (m + 1) * 32 := by rw [hoff, Nat.succ_mul]
  case lane =>
    simp only [foldedBlock, Bank.get_ofFn, hu.source.byteSeen_eq hs, hu.coeff, hu.carry]
    rw [hlanes, hoff, laneAfter_succ]

/-- Settles O57, by induction on `m`. -/
theorem accumulatorLanesAfterBlocks : Obligations.AccumulatorLanesAfterBlocks := by
  intro s m _ hcoeff hcarry hs
  have start : Stepping s s := ⟨rfl, hcoeff, hcarry⟩
  show (blkBody^[m] (ainitBody s)).phase = .acc → BlocksFolded s m (blkBody^[m] (ainitBody s))
  induction m with
  | zero => exact fun _ => ⟨rfl, accStart_lanes (sourceByte s)⟩
  | succ m ih =>
    intro hp
    have hu : Stepping s (blkBody^[m] (ainitBody s)) := (start.body .ainit).iterate .blk m
    rw [Function.iterate_succ_apply'] at hp ⊢
    obtain ⟨hacc, hin, e⟩ := blkBody_succeeded hp
    rw [e]
    exact (ih hacc).block hu hs hin

/-! ## A running HASH under every interleaving (R135, R136, R145, R151, R153, R157) -/

theorem SameSource.sourceByte_eq {s u : State} (h : SameSource s u) : sourceByte u = sourceByte s :=
  funext fun off => by rw [sourceByte, sourceByte, h.mem_eq, h.srcAddr_eq]

theorem SameSource.sourceBytes_eq {s u : State} (h : SameSource s u) : sourceBytes u = sourceBytes s := by
  rw [sourceBytes, sourceBytes, sourcePrefix, sourcePrefix, h.sourceByte_eq, h.srcLength_eq]

theorem scalarHash_take_sourceBytes (s : State) {n : Nat} (hn : n ≤ srcLength s) :
    scalarHash ((sourceBytes s).take n) = prefixHash (sourceByte s) n := by
  rw [sourceBytes, sourcePrefix, ← List.map_take, List.take_range, min_eq_left hn, prefixHash]

theorem microStep_sameSource (s : State) : SameSource s (microStep s) :=
  (microStep_keepsDescriptor s).sameSource (microStep_mem s)

theorem inv_microStep {s : State} (h : StateInv s) (hb : s.busy = true) : StateInv (microStep s) := by
  obtain ⟨f, hf, e⟩ := microStep_moves hb
  have hstep : microStep s = f s := e (payloadOf s)
  exact hstep ▸ inv_move h hf

/-- TAIL with its tests passed folds its byte, or raises E_BUS (R142). -/
theorem tailBody_folds_or_refused {s : State} (hp : s.phase = .scalar) (hk : s.kind ≠ .reserved)
    (hin : s.offset.toNat < srcLength s) :
    tailBody s = completed .tail s ∨ ∃ r, tailBody s = raise .bus s.offset 1 { s with reads := r } := by
  rcases tailBody_cases s with ⟨hp', _⟩ | ⟨_, hk', _⟩ | ⟨_, _, hr, _⟩ | ⟨_, _, _, _, e⟩ | ⟨_, _, _, _, e⟩
  · exact absurd hp hp'
  · exact absurd hk' hk
  · omega
  · exact .inr ⟨_, e⟩
  · exact .inl e

/-- Where a step leaves a HASH over `bytes` that ran in `s`: running and right so far, completed with the hash of `bytes`
(R157), or faulted with E_BUS (R153). -/
def HashOutcome (bytes : List Byte) (s t : State) : Prop :=
  HashRunning bytes t ∨
  (t.hseq = .none ∧ t.phase = .idle ∧ t.done = true ∧ t.result = scalarHash bytes ∧
    srcLength t = t.offset.toNat) ∨
  (t.hseq = .none ∧ t.phase = .fault ∧ t.errCode = .bus ∧ t.done = false ∧ t.result = s.result)

section running

variable {bytes : List Byte} {s t : State}

/-- The draw counter is no part of a running HASH. -/
theorem running_nextDraw (h : HashRunning bytes s) : HashRunning bytes (nextDraw s) :=
  ⟨{ h.inv with }, h.busy, h.view, h.stable, h.blocks, h.tail⟩

/-- A dropped write leaves a running HASH as it is (R33, R177). -/
theorem running_dropWrite (h : HashRunning bytes s) : HashRunning bytes (dropWrite s) :=
  ⟨{ h.inv with }, h.busy, h.view, h.stable, h.blocks, h.tail⟩

/-- What the host has read is no part of a running HASH (R21). -/
theorem running_reply (h : HashRunning bytes s) (r : List Word) :
    HashRunning bytes { s with replies := r } :=
  ⟨{ h.inv with }, h.busy, h.view, h.stable, h.blocks, h.tail⟩

theorem running_eventTaken (h : HashRunning bytes s) : HashRunning bytes (eventTaken s) :=
  ⟨inv_eventTaken h.inv, h.busy, h.view, h.stable, h.blocks, h.tail⟩

theorem HashOutcome.nextDraw (h : HashOutcome bytes s t) : HashOutcome bytes s (nextDraw t) :=
  h.imp_left running_nextDraw

/-- In the block loop the lanes sum to the hash of the bytes consumed (R136). -/
theorem running_blocksHashed (h : HashRunning bytes s) (hq : s.hseq = .bloop) :
    reduceAll s.h = prefixHash (sourceByte s) s.offset.toNat := by
  obtain ⟨_, _, hin, _⟩ := h.inv.blockLoop hq
  rw [h.blocks hq, ← h.view, scalarHash_take_sourceBytes s hin]

/-- In the tail loop SH is the hash of the bytes consumed (R145). -/
theorem running_tailHashed (h : HashRunning bytes s) (hq : s.hseq = .tloop) :
    s.sh = prefixHash (sourceByte s) s.offset.toNat := by
  obtain ⟨_, hin, _⟩ := h.inv.tailLoop hq
  rw [h.tail hq, ← h.view, scalarHash_take_sourceBytes s hin]

/-- A micro-step that leaves the HASH busy and has hashed what it consumed leaves it right. -/
theorem running_continues (h : HashRunning bytes s) (e : microStep s = t) (hbusy : t.hseq ≠ .none)
    (hblocks : t.hseq = .bloop → reduceAll t.h = prefixHash (sourceByte s) t.offset.toNat)
    (htail : t.hseq = .tloop → t.sh = prefixHash (sourceByte s) t.offset.toNat) :
    HashRunning bytes t := by
  have hinv : StateInv t := e ▸ inv_microStep h.inv h.busy
  have hsrc : SameSource s t := e ▸ microStep_sameSource s
  have hview : sourceBytes t = bytes := hsrc.sourceBytes_eq.trans h.view
  have hstable : t.mem.storing = [] := by rw [hsrc.mem_eq, h.stable]
  rw [← hsrc.sourceByte_eq] at hblocks htail
  refine ⟨hinv, busy_iff.mpr hbusy, hview, hstable, fun hq => ?_, fun hq => ?_⟩
  · obtain ⟨_, _, hin, _⟩ := hinv.blockLoop hq
    rw [hblocks hq, ← hview, scalarHash_take_sourceBytes t hin]
  · obtain ⟨_, hin, _⟩ := hinv.tailLoop hq
    rw [htail hq, ← hview, scalarHash_take_sourceBytes t hin]

/-- E_BUS ends the HASH with DONE = 0 and RESULT kept (R153, R172). -/
theorem running_refused (h : HashRunning bytes s) (off : DWord) (w : Nat) (r : List MemRequest) :
    HashOutcome bytes s (raise .bus off w { s with reads := r }) :=
  .inr (.inr ⟨rfl, rfl, rfl, h.inv.busyDone h.busy, rfl⟩)

/-- A block folded into lanes that are right so far (R132, R136). -/
theorem running_foldedBlock (h : HashRunning bytes s) (hq : s.hseq = .bloop) :
    reduceAll (foldedBlock s).h = prefixHash (sourceByte s) (s.offset.toNat + B) := by
  obtain ⟨_, hc, _, _⟩ := h.inv.blockLoop hq
  obtain ⟨hcoeff, hcarry⟩ := h.inv.table hc
  have hsrc : SameSource s s := rfl
  simp only [foldedBlock, hsrc.byteSeen_eq h.stable, hcoeff, hcarry]
  exact reduceAll_block (sourceByte s) s.offset.toNat s.h (running_blocksHashed h hq)

/-- The BLK micro-step (R132, R136). -/
theorem running_block (h : HashRunning bytes s) (hq : s.hseq = .bloop)
    (hmore : s.offset.toNat + B ≤ srcLength s) (e : microStep s = blkBody s) :
    HashOutcome bytes s (blkBody s) := by
  obtain ⟨hp, hc, _, _⟩ := h.inv.blockLoop hq
  rcases blkBody_folds_or_refused hp hc (h.inv.busyKind h.busy) hmore with ebody | ⟨g, ebody⟩ <;>
    rw [ebody] at e ⊢
  · have hoff : (foldedBlock s).offset.toNat = s.offset.toNat + B := toNat_add_inside hmore
    have hloop : (foldedBlock s).hseq = .bloop := hq
    refine .inl (running_continues h e (by simp [hloop]) (fun _ => ?_) fun hq' => ?_)
    · rw [hoff, running_foldedBlock h hq]
    · cases hloop.symm.trans hq'
  · exact running_refused h _ _ _

/-- The TAIL micro-step (R142, R145). -/
theorem running_byte (h : HashRunning bytes s) (hq : s.hseq = .tloop)
    (hmore : s.offset.toNat < srcLength s) (e : microStep s = tailBody s) :
    HashOutcome bytes s (tailBody s) := by
  obtain ⟨hp, _, _⟩ := h.inv.tailLoop hq
  rcases tailBody_folds_or_refused hp (h.inv.busyKind h.busy) hmore with ebody | ⟨r, ebody⟩ <;>
    rw [ebody] at e ⊢
  · have hoff : (completed .tail s).offset.toNat = s.offset.toNat + 1 := toNat_add_inside (k := 1) hmore
    have hloop : (completed .tail s).hseq = .tloop := hq
    refine .inl (running_continues h e (by simp [hloop]) (fun hq' => ?_) fun _ => ?_)
    · cases hloop.symm.trans hq'
    · rw [hoff, ← foldByte_prefixHash, ← running_tailHashed h hq, sourceByte, ← byteSeen_stable h.stable]
      rfl
  · exact running_refused h _ _ _

/-- The FIN micro-step: the whole source is consumed, and RESULT is its hash (R143, R157). -/
theorem running_fin (h : HashRunning bytes s) (hq : s.hseq = .tloop)
    (hend : srcLength s ≤ s.offset.toNat) :
    HashOutcome bytes s { s with
      result := s.sh, done := true, phase := .idle, hseq := .none,
      written := { s.written with result := true } } := by
  obtain ⟨_, hin, _⟩ := h.inv.tailLoop hq
  have hall : srcLength s = s.offset.toNat := Nat.le_antisymm hend hin
  have hsh : s.sh = scalarHash bytes := by
    rw [running_tailHashed h hq, ← h.view, sourceBytes, sourcePrefix, hall, prefixHash]
  exact .inr (.inl ⟨rfl, rfl, rfl, hsh, hall⟩)

/-- Every micro-step of a running HASH has one of the three outcomes. -/
theorem running_microStep (h : HashRunning bytes s) : HashOutcome bytes s (microStep s) := by
  rcases microStep_cases h.busy with ⟨hq, _, e⟩ | ⟨hq, _, e⟩ | ⟨hq, hmore, e⟩ | ⟨hq, _, _, e⟩ |
    ⟨hq, _, hp, _⟩ | ⟨hq, hmore, e⟩ | ⟨hq, hend, _, e⟩ | ⟨hq, _, hp, _⟩
  · exact .inl (e ▸ running_continues h e (by simp [hq]) (by simp [hq]) (by simp [hq]))
  · exact .inl (e ▸ running_continues h e nofun (fun _ => reduceAll_accStart) nofun)
  · exact e ▸ running_block h hq hmore e
  · exact .inl (e ▸ running_continues h e nofun nofun fun _ => running_blocksHashed h hq)
  · exact absurd (h.inv.blockLoop hq).1 hp
  · exact e ▸ running_byte h hq hmore e
  · exact e ▸ running_fin h hq hend
  · exact absurd (h.inv.tailLoop hq).1 hp

/-- VPHA's turn while a HASH runs is a micro-step (R151). -/
theorem running_turn (h : HashRunning bytes s) (hturn : vphaTurn s = .next t) :
    HashOutcome bytes s t := by
  rcases vphaTurn_cases hturn with ⟨hidle, _⟩ | ⟨_, rfl⟩
  · exact absurd h.busy (by simp [hidle])
  · exact (running_microStep h).nextDraw

end running

/-- Settles O54, by whose turn it is: a busy block drops or ignores what the host writes, and VPHA takes a micro-step. -/
theorem runningHashStaysRight : Obligations.RunningHashStaysRight := by
  intro bytes s t h hfree hstep
  show HashOutcome bytes s t
  have hs : HashRunning bytes (eventTaken s) := running_eventTaken h
  have turn : vphaTurn (eventTaken s) = .next t → HashOutcome bytes s t :=
    running_turn (s := eventTaken s) hs
  cases hh : s.host with
  | nil => exact turn ((step_of_nil hh).symm.trans hstep)
  | cons a rest =>
    rw [step_of_cons hh] at hstep
    cases a with
    | pause => exact turn hstep
    | regWrite ra bits d =>
      obtain ⟨u, hu, rfl⟩ := mapNext_eq_next hstep
      rcases regWrite_busy hs.busy hu with rfl | rfl
      · exact .inl (running_nextDraw hs)
      · exact .inl (running_nextDraw (running_dropWrite hs))
    | regRead ra bits =>
      cases hstep
      exact .inl (running_nextDraw (running_reply hs _))
    | rst | storeBegin | store => cases hfree _ _ hh

end Sys2Proof.Proofs

/-! The family of 43_reduce_tail.md: RED (R140), TAIL (R142) and FIN (R143). -/

namespace Sys2Proof.Proofs

open Sys2Proof Sys2Proof.Machine

/-- An accepted command leaves what its body leaves (R39). -/
theorem exec_of_bodyOf {i : Instr} {s t : State} (ha : Accepting s) (e : bodyOf i s = t) :
    exec i s = .next t := by
  rw [exec_accepting i ha, e]

/-! ## RED (R140) -/

/-- The lanes of a file, g ascending, then i ascending (R140). -/
theorem toList_eq_flatMap (b : Bank) :
    b.toList = (List.finRange 4).flatMap fun g => (List.finRange 8).map fun i => b.get g i := rfl

/-- RED's sum as the two nested loops of R140. -/
theorem reduceAll_eq_loops (h : Bank) :
    reduceAll h = (List.finRange 4).foldl
      (fun a g => (List.finRange 8).foldl (fun b i => b + h.get g i) a) 0 := by
  simp only [reduceAll, toList_eq_flatMap, List.foldl_flatMap, List.foldl_map]

theorem redBody_outOfSequence {s : State} (hp : s.phase ≠ .acc) : redBody s = raise .seq 0 0 s :=
  if_pos hp

theorem redBody_inSequence {s : State} (hp : s.phase = .acc) : redBody s = completed .red s :=
  if_neg (not_not.mpr hp)

/-- Settles O33: in ACC the sum that RED leaves is that of the two loops over the lanes. -/
theorem redSumsTheLanes : Obligations.RedSumsTheLanes := by
  refine ⟨rfl, fun s => exec_not_accepting nofun nofun,
    fun s ha hp => exec_of_bodyOf ha (redBody_outOfSequence hp), fun s ha hp => ?_⟩
  rw [← reduceAll_eq_loops]
  exact exec_of_bodyOf ha (redBody_inSequence hp)

/-! ## TAIL (R142) -/

theorem tailBody_outOfSequence {s : State} (hp : s.phase ≠ .scalar) :
    tailBody s = raise .seq 0 0 s := if_pos hp

/-- In SCALAR, TAIL is one adapter read at OFFSET. -/
theorem tailBody_inSequence {s : State} (hp : s.phase = .scalar) :
    tailBody s = afterRead byteIntoSh (srcRead s.offset 1 s) := if_neg (not_not.mpr hp)

/-- Settles O34: outside SCALAR TAIL raises E_SEQ; in SCALAR each of its outcomes is one of its read at OFFSET. -/
theorem tailFoldsOneByte : Obligations.TailFoldsOneByte := by
  refine ⟨rfl, fun s => exec_not_accepting nofun nofun,
    fun s ha hp => exec_of_bodyOf ha (tailBody_outOfSequence hp),
    fun s ha hp hk => exec_of_bodyOf ha ((tailBody_inSequence hp).trans ?kind),
    fun s ha hp hk hr => exec_of_bodyOf ha ((tailBody_inSequence hp).trans ?range),
    fun s ha hp hk hr hb => exec_of_bodyOf ha ((tailBody_inSequence hp).trans ?bus),
    fun s ha hp hk hr hb => exec_of_bodyOf ha (tailBody_admitted hp hk hr hb)⟩
  case kind => rw [srcRead_kind hk, afterRead]
  case range => rw [srcRead_range hk (Nat.lt_succ_of_le hr), afterRead]
  case bus => rw [srcRead_refused hk hr hb, afterRead]

/-! ## FIN (R143) -/

theorem finBody_outOfSequence {s : State} (hp : s.phase ≠ .scalar) : finBody s = raise .seq 0 0 s :=
  if_pos hp

theorem finBody_inSequence {s : State} (hp : s.phase = .scalar) : finBody s = completed .fin s :=
  if_neg (not_not.mpr hp)

/-- Settles O35: PHASE is all that FIN tests. -/
theorem finReturnsTheScalar : Obligations.FinReturnsTheScalar :=
  ⟨rfl, fun _ => exec_not_accepting nofun nofun,
    fun _ ha hp => exec_of_bodyOf ha (finBody_outOfSequence hp),
    fun _ ha hp => exec_of_bodyOf ha (finBody_inSequence hp)⟩

end Sys2Proof.Proofs

/-! The family of 44_facade_control.md: NOP and CLR (R158, R159), the acceptance step of HASH (R150) and the block's turn
(R151), a micro-step against the sequencer's command (R151), and a whole HASH against the step commands (R155). -/

namespace Sys2Proof.Proofs

open Sys2Proof Sys2Proof.Machine Sys2Proof.Config

/-! ## NOP and CLR (R158, R159) -/

/-- One word alone decodes to a well-formed command: its encoding. -/
theorem decode_eq_ok_iff_encode {i : Instr} (hi : i.wellFormed = true) (w : Word) :
    decode w = .ok i ↔ w = encode i := by
  rw [decode_eq_ok_iff, and_iff_right hi, eq_comm]

/-- A command that FAULT accepts runs its body in every PHASE (R39). -/
theorem exec_freeInFault {i : Instr} (hi : freeInFault i = true) {s : State} (hb : s.busy = false) :
    exec i s = .next (bodyOf i s) := by
  rw [exec_eq, hi, present_fault_accepted hb]

/-- Settles O28: FAULT accepts NOP too, and its body leaves the state as it is. -/
theorem nopChangesNothing : Obligations.NopChangesNothing :=
  ⟨decode_eq_ok_iff_encode (i := .nop) rfl, fun _ => exec_busy .nop,
    fun _ => exec_freeInFault (i := .nop) rfl⟩

/-- Settles O29: FAULT accepts CLR too, and its body is `clearFault`. -/
theorem clrClearsTheFault : Obligations.ClrClearsTheFault :=
  ⟨decode_eq_ok_iff_encode (i := .clr) rfl, fun _ => exec_busy .clr,
    fun _ => exec_freeInFault (i := .clr) rfl⟩

/-! ## The acceptance step of HASH (R150, R154) and the block's turn (R151, R193, R202) -/

/-- Settles O36: KIND is all that the acceptance step tests. -/
theorem hashAcceptanceStartsTheSequencer : Obligations.HashAcceptanceStartsTheSequencer :=
  ⟨rfl, fun _ => exec_not_accepting nofun nofun, fun _ ha hk => exec_of_bodyOf ha (if_pos hk),
    fun _ ha hk => exec_of_bodyOf ha (if_neg hk)⟩

theorem vphaTurn_idle {s : State} (hb : s.busy = false) : vphaTurn s = .next s :=
  if_neg (Bool.eq_false_iff.mp hb)

theorem vphaTurn_busy {s : State} (hb : s.busy = true) :
    vphaTurn s = .next (nextDraw (microStep s)) := if_pos hb

/-- Settles O7: an empty list and a pause both give the block its turn. -/
theorem turnOfTheBlock : Obligations.TurnOfTheBlock :=
  ⟨fun _ hh hb => (step_nil hh).trans (vphaTurn_idle hb), fun _ => step_busy,
    fun s rest hh hb => (step_cons hh).trans (vphaTurn_idle (s := { s with host := rest }) hb),
    fun s rest hh hb => (step_cons hh).trans (vphaTurn_busy (s := { s with host := rest }) hb)⟩

/-! ## A command body looks at neither HSEQ, the host nor the draw counter (R151) -/

/-- A state of a running HASH as step mode has it: HSEQ = NONE, and the rest of the work in the host's hands. -/
def inStepMode (script : List HostAction) (n : Nat) (u : State) : State :=
  { u with hseq := .none, host := script, draws := n }

section inStepMode

variable {script : List HostAction} {n : Nat} {u : State}

/-- A command that reads once and goes on does so alike in step mode. -/
theorem afterRead_inStepMode {use : List Byte → State → State} (off : DWord) (w : Nat)
    (hseen : ∀ a, byteSeen (inStepMode script n u) a = byteSeen u a)
    (huse : ∀ bytes v, use bytes (inStepMode script n v) = inStepMode script n (use bytes v)) :
    afterRead use (srcRead off w (inStepMode script n u))
      = inStepMode script n (afterRead use (srcRead off w u)) := by
  rcases srcRead_cases off w u with ⟨hk, e⟩ | ⟨hk, hr, e⟩ | ⟨hk, hr, hb, e⟩ | ⟨hk, hr, hb, e⟩ <;> rw [e]
  · rw [srcRead_kind (s := inStepMode script n u) hk]
    rfl
  · rw [srcRead_range (s := inStepMode script n u) hk hr]
    rfl
  · rw [srcRead_refused (s := inStepMode script n u) hk hr hb]
    rfl
  · rw [srcRead_got (s := inStepMode script n u) hk hr hb, afterRead, afterRead, ← huse]
    simp only [bytesSeen, hseen]
    rfl

theorem blkBody_inStepMode (hseen : ∀ a, byteSeen (inStepMode script n u) a = byteSeen u a) :
    blkBody (inStepMode script n u) = inStepMode script n (blkBody u) := by
  rcases blkBody_cases u with ⟨hp, e⟩ | ⟨hp, hc, e⟩ | ⟨hp, hc, hk, e⟩ | ⟨hp, hc, hk, hr, e⟩ |
    ⟨hp, hc, hk, hr, g, hg, hfirst, e⟩ | ⟨hp, hc, hk, hr, hall, e⟩ <;> rw [e]
  · exact blkBody_outOfSequence (s := inStepMode script n u) hp
  · exact blkBody_noTable (s := inStepMode script n u) hp hc
  · exact blkBody_kind (s := inStepMode script n u) hp hc hk
  · exact blkBody_range (s := inStepMode script n u) hp hc hk hr
  · exact (blkBody_ready (s := inStepMode script n u) hp hc hk hr).trans
      (readAndFoldBlock_refused (s := inStepMode script n u) hg hfirst)
  · rw [blkBody_ready (s := inStepMode script n u) hp hc hk hr,
      readAndFoldBlock_admitted (s := inStepMode script n u) hall]
    simp only [foldedBlock, hseen]
    rfl

theorem tailBody_inStepMode (hseen : ∀ a, byteSeen (inStepMode script n u) a = byteSeen u a) :
    tailBody (inStepMode script n u) = inStepMode script n (tailBody u) := by
  by_cases hp : u.phase = .scalar
  · rw [tailBody_inSequence hp, tailBody_inSequence (s := inStepMode script n u) hp]
    exact afterRead_inStepMode u.offset 1 hseen fun _ _ => rfl
  · rw [tailBody_outOfSequence hp]
    exact tailBody_outOfSequence (s := inStepMode script n u) hp

theorem rdblkBody_inStepMode (hseen : ∀ a, byteSeen (inStepMode script n u) a = byteSeen u a)
    (wsel : Nat) :
    rdblkBody wsel (inStepMode script n u) = inStepMode script n (rdblkBody wsel u) := by
  rcases selectedWidth_cases wsel with ⟨_, hw⟩ | ⟨_, hw⟩
  · rw [rdblkBody_eq hw, rdblkBody_eq hw]
    exact afterRead_inStepMode u.arg _ hseen fun _ _ => rfl
  · rw [rdblkBody_reserved hw, rdblkBody_reserved hw]
    rfl

/-- Where the reads see the same bytes, every command but HASH does the same in step mode. -/
theorem bodyOf_inStepMode {i : Instr} (hi : i ≠ .hash)
    (hseen : ∀ a, byteSeen (inStepMode script n u) a = byteSeen u a) :
    bodyOf i (inStepMode script n u) = inStepMode script n (bodyOf i u) := by
  cases i with
  | nop | cinit | ainit | clr => rfl
  | blk => exact blkBody_inStepMode hseen
  | red =>
    exact (apply_ite (inStepMode script n) (u.phase ≠ .acc) (raise .seq 0 0 u)
      (completed .red u)).symm
  | tail => exact tailBody_inStepMode hseen
  | fin =>
    exact (apply_ite (inStepMode script n) (u.phase ≠ .scalar) (raise .seq 0 0 u)
      (completed .fin u)).symm
  | hash => exact absurd rfl hi
  | rdbyte => exact afterRead_inStepMode u.arg 1 hseen fun _ _ => rfl
  | rdblk wsel => exact rdblkBody_inStepMode hseen wsel

end inStepMode

/-! ## One micro-step (R151) -/

/-- A body that took a fault has ended the HASH (R172). -/
theorem bodyOf_faulted {i : Instr} {s : State} (hp : s.phase ≠ .fault)
    (hf : (bodyOf i s).phase = .fault) : (bodyOf i s).hseq = .none := by
  rcases bodyOf_cases i s with ⟨c, off, w, r, _, e⟩ | ⟨hm, e⟩
  · rw [e, raise_hseq]
  · exact absurd (e ▸ hf) (completed_not_fault hm hp)

/-- A body leaves the host and the draw counter alone. -/
theorem bodyOf_keepsOutside (i : Instr) (s : State) :
    (bodyOf i s).host = s.host ∧ (bodyOf i s).draws = s.draws := by
  rcases bodyOf_cases i s with ⟨c, off, w, r, _, e⟩ | ⟨_, e⟩ <;> rw [e]
  · exact ⟨rfl, rfl⟩
  · cases i with
    | _ => exact ⟨rfl, rfl⟩

/-- HSEQ after a body: NONE if it raised, else its next position. -/
theorem thenGoTo_bodyOf {s : State} (hp : s.phase ≠ .fault) (i : Instr) (q : Hseq) :
    thenGoTo q (bodyOf i s) =
      { bodyOf i s with hseq := if (bodyOf i s).phase = .fault then .none else q } := by
  by_cases hf : (bodyOf i s).phase = .fault
  · rw [thenGoTo_self (.inr hf), if_pos hf, hseq_self (bodyOf_faulted hp hf)]
  · rw [thenGoTo, if_neg hf, if_neg hf]

/-- Settles O52: the command's body leaves at HSEQ = NONE what it leaves in the micro-step, but for HSEQ. -/
theorem microStepRunsTheSequencerCommand : Obligations.MicroStepRunsTheSequencerCommand := by
  intro s t _ hp hexec
  have haccept : Accepting (inStepMode s.host s.draws s) := ⟨rfl, hp⟩
  have hrun : exec (sequencerCommand s) (inStepMode s.host s.draws s) =
      .next (inStepMode s.host s.draws (bodyOf (sequencerCommand s) s)) :=
    exec_of_bodyOf haccept (bodyOf_inStepMode (sequencerCommand_ne_hash s) fun _ => rfl)
  obtain ⟨hhost, hdraws⟩ := bodyOf_keepsOutside (sequencerCommand s) s
  obtain rfl : inStepMode s.host s.draws (bodyOf (sequencerCommand s) s) = t :=
    Host.Outcome.next.inj (hrun.symm.trans hexec)
  rw [microStep_eq, thenGoTo_bodyOf hp, ← hhost, ← hdraws]
  rfl

/-- A micro-step that takes a fault ends the HASH (R153, R172). -/
theorem microStep_faulted {u : State} (hp : u.phase ≠ .fault) (hf : (microStep u).phase = .fault) :
    (microStep u).busy = false := by
  rw [microStep_eq, thenGoTo_phase] at hf
  rw [microStep_eq, thenGoTo_self (.inr hf), State.busy, bodyOf_faulted hp hf]
  rfl

theorem microStep_host {u : State} (hp : u.phase ≠ .fault) : (microStep u).host = u.host := by
  obtain ⟨hhost, _⟩ := bodyOf_keepsOutside (sequencerCommand u) u
  rw [microStep_eq, thenGoTo_bodyOf hp]
  exact hhost

/-! ## The script that is left (R151, R155) -/

/-- The step commands for the tail and FIN with `n` bytes left. -/
def tailScript (n : Nat) : List HostAction := List.replicate n (cmdWrite .tail) ++ [cmdWrite .fin]

/-- The step commands after AINIT with `n` bytes left. -/
def blockScript (n : Nat) : List HostAction :=
  List.replicate (n / B) (cmdWrite .blk) ++ cmdWrite .red :: tailScript (n % B)

theorem tailScript_zero : tailScript 0 = [cmdWrite .fin] := rfl

theorem tailScript_succ (n : Nat) : tailScript (n + 1) = cmdWrite .tail :: tailScript n := rfl

theorem blockScript_lt {n : Nat} (h : n < B) : blockScript n = cmdWrite .red :: tailScript n := by
  rw [blockScript, Nat.div_eq_of_lt h, Nat.mod_eq_of_lt h, List.replicate_zero, List.nil_append]

theorem blockScript_add (n : Nat) : blockScript (n + B) = cmdWrite .blk :: blockScript n := by
  rw [blockScript, Nat.add_div_right n (by decide), Nat.add_mod_right, List.replicate_succ,
    List.cons_append, blockScript]

/-- R155's sequence where the table is built. -/
theorem stepModeScript_built {s : State} (hc : s.ctValid = true) :
    stepModeScript s = cmdWrite .ainit :: blockScript (srcLength s) := by
  simp [stepModeScript, blockScript, tailScript, hc]

/-- R155's sequence where the table is still to be built. -/
theorem stepModeScript_unbuilt {s : State} (hc : s.ctValid = false) :
    stepModeScript s = cmdWrite .cinit :: cmdWrite .ainit :: blockScript (srcLength s) := by
  simp [stepModeScript, blockScript, tailScript, hc]

/-- One command for each micro-step of R152. -/
theorem stepModeScript_length (s : State) : (stepModeScript s).length = hashMicroSteps s := by
  by_cases hc : s.ctValid = true
  · rw [stepModeScript_built hc]
    simp [hashMicroSteps, blockScript, tailScript, hc]
    omega
  · rw [stepModeScript_unbuilt (Bool.eq_false_iff.mpr hc)]
    simp [hashMicroSteps, blockScript, tailScript, hc]
    omega

/-- The step commands that a running HASH still has to take. -/
def scriptLeft (u : State) : List HostAction :=
  match u.hseq with
  | .none => []
  | .init => stepModeScript u
  | .bloop => blockScript (srcLength u - u.offset.toNat)
  | .tloop => tailScript (srcLength u - u.offset.toNat)

section scriptLeft

variable {u : State}

theorem scriptLeft_none (h : u.hseq = .none) : scriptLeft u = [] := by simp only [scriptLeft, h]

theorem scriptLeft_init (h : u.hseq = .init) : scriptLeft u = stepModeScript u := by
  simp only [scriptLeft, h]

theorem scriptLeft_bloop (h : u.hseq = .bloop) :
    scriptLeft u = blockScript (srcLength u - u.offset.toNat) := by
  simp only [scriptLeft, h]

theorem scriptLeft_tloop (h : u.hseq = .tloop) :
    scriptLeft u = tailScript (srcLength u - u.offset.toNat) := by
  simp only [scriptLeft, h]

theorem scriptLeft_eq_nil_iff : scriptLeft u = [] ↔ u.hseq = .none := by
  cases h : u.hseq <;> simp [scriptLeft, h, stepModeScript, blockScript, tailScript]

/-- A micro-step that does not raise takes the first of the commands that are left. -/
theorem scriptLeft_microStep (hb : u.busy = true) (hp : (microStep u).phase ≠ .fault) :
    scriptLeft u = cmdWrite (sequencerCommand u) :: scriptLeft (microStep u) := by
  rcases microStep_cases hb with ⟨hq, hc, e⟩ | ⟨hq, hc, e⟩ | ⟨hq, hmore, e⟩ | ⟨hq, hend, _, e⟩ |
    ⟨_, _, _, e⟩ | ⟨hq, hmore, e⟩ | ⟨hq, hend, _, e⟩ | ⟨_, _, _, e⟩ <;> rw [e] at hp ⊢
  · have hcmd : sequencerCommand u = .cinit := by simp [sequencerCommand, hq, hc]
    rw [hcmd, scriptLeft_init hq, scriptLeft_init (u := cinitBody u) hq, stepModeScript_unbuilt hc,
      stepModeScript_built rfl]
    rfl
  · have hcmd : sequencerCommand u = .ainit := by simp [sequencerCommand, hq, hc]
    rw [hcmd, scriptLeft_init hq, scriptLeft_bloop rfl, stepModeScript_built hc]
    rfl
  · have hcmd : sequencerCommand u = .blk := by simp only [sequencerCommand, hq, if_pos hmore]
    obtain ⟨_, ebody⟩ : _ ∧ blkBody u = foldedBlock u := completed_of_not_fault (i := .blk) hp
    have hoff : (foldedBlock u).offset.toNat = u.offset.toNat + B := toNat_add_inside hmore
    have hleft : srcLength u - u.offset.toNat = srcLength u - (u.offset.toNat + B) + B := by omega
    rw [hcmd, ebody, scriptLeft_bloop hq, scriptLeft_bloop (u := foldedBlock u) hq, hoff, hleft,
      blockScript_add]
    rfl
  · have hcmd : sequencerCommand u = .red := by
      simp only [sequencerCommand, hq, if_neg (Nat.not_le.mpr hend)]
    have hleft : srcLength u - u.offset.toNat < B := by
      simp only [B] at hend ⊢
      omega
    rw [hcmd, scriptLeft_bloop hq, scriptLeft_tloop rfl, blockScript_lt hleft]
    rfl
  · exact absurd rfl hp
  · have hcmd : sequencerCommand u = .tail := by simp only [sequencerCommand, hq, if_pos hmore]
    obtain ⟨_, ebody⟩ : _ ∧ tailBody u = completed .tail u := completed_of_not_fault (i := .tail) hp
    have hoff : (completed .tail u).offset.toNat = u.offset.toNat + 1 :=
      toNat_add_inside (k := 1) hmore
    have hleft : srcLength u - u.offset.toNat = srcLength u - (u.offset.toNat + 1) + 1 := by omega
    rw [hcmd, ebody, scriptLeft_tloop hq, scriptLeft_tloop (u := completed .tail u) hq, hoff, hleft,
      tailScript_succ]
    rfl
  · have hcmd : sequencerCommand u = .fin := by
      simp only [sequencerCommand, hq, if_neg (Nat.not_lt.mpr hend)]
    rw [hcmd, scriptLeft_tloop hq, scriptLeft_none rfl, Nat.sub_eq_zero_of_le hend, tailScript_zero]
  · exact absurd rfl hp

end scriptLeft

/-! ## The two runs side by side (R155) -/

theorem wellFormed_sequencerCommand (s : State) : (sequencerCommand s).wellFormed = true := by
  unfold sequencerCommand
  split
  · rfl
  all_goals split <;> rfl

/-- The host's write of the sequencer's command does in step mode what the micro-step does in the HASH. -/
theorem step_inStepMode {u : State} {rest : List HostAction} {n : Nat} (hp : u.phase ≠ .fault)
    (hs : u.mem.storing = []) :
    step (inStepMode (cmdWrite (sequencerCommand u) :: rest) n u) =
      .next (inStepMode rest (n + 1) (microStep u)) := by
  have hseen : ∀ a, byteSeen (inStepMode rest n u) a = byteSeen u a := fun a =>
    (byteSeen_stable (s := inStepMode rest n u) hs a).trans (byteSeen_stable hs a).symm
  have hstep := step_cmdWrite_accepted
    (s := inStepMode (cmdWrite (sequencerCommand u) :: rest) n u)
    (decode_encode (wellFormed_sequencerCommand u)) rfl ⟨rfl, hp⟩
  have hbody : bodyOf (sequencerCommand u) (inStepMode rest n u) =
      inStepMode rest n (bodyOf (sequencerCommand u) u) :=
    bodyOf_inStepMode (sequencerCommand_ne_hash u) hseen
  rw [microStep_eq, thenGoTo_bodyOf hp]
  exact hstep.trans (congrArg (fun v => Host.Outcome.next (nextDraw v)) hbody)

/-- An idle block that the host leaves alone holds its state (R187). -/
theorem run_idle {u t : State} {k : Nat} (hh : u.host = []) (hb : u.busy = false)
    (hrun : Host.Core.run Sys2Proof.core k u = .next t) : t = u := by
  induction k with
  | zero => exact (Host.Outcome.next.inj hrun).symm
  | succ k ih =>
    rw [run_succ k ((step_nil hh).trans (vphaTurn_idle hb))] at hrun
    exact ih hrun

/-- A HASH that has met no fault, left alone by the host and by other agents. -/
structure Undisturbed (u : State) : Prop where
  host : u.host = []
  phase : u.phase ≠ .fault
  stable : u.mem.storing = []

/-- A micro-step that does not raise leaves the HASH undisturbed. -/
theorem Undisturbed.microStep {u : State} (h : Undisturbed u) (hp : (microStep u).phase ≠ .fault) :
    Undisturbed (nextDraw (microStep u)) where
  host := (microStep_host h.phase).trans h.host
  phase := hp
  stable := (congrArg Memory.storing (microStep_mem u)).trans h.stable

/-- An undisturbed HASH that ends without fault, and the step commands that are left, end in the same state: by induction
on these commands, each one a micro-step. -/
theorem run_inStepMode {k : Nat} {u t : State} (n : Nat) (h : Undisturbed u)
    (hk : (scriptLeft u).length = k) (hrun : Host.Core.run Sys2Proof.core k u = .next t)
    (ht : t.phase ≠ .fault) :
    t.hseq = .none ∧
      Host.Core.run Sys2Proof.core k (inStepMode (scriptLeft u) n u) = .next (inStepMode [] (n + k) t) := by
  induction k generalizing u n with
  | zero =>
    obtain rfl : u = t := Host.Outcome.next.inj hrun
    have hnil : scriptLeft u = [] := List.eq_nil_of_length_eq_zero hk
    rw [hnil]
    exact ⟨scriptLeft_eq_nil_iff.mp hnil, rfl⟩
  | succ k ih =>
    have hb : u.busy = true := busy_iff.mpr fun hq => by
      rw [scriptLeft_none hq] at hk
      cases hk
    rw [run_succ k (step_busy h.host hb)] at hrun
    have hp : (microStep u).phase ≠ .fault := fun hf => by
      have hhost : (nextDraw (microStep u)).host = [] := (microStep_host h.phase).trans h.host
      rw [run_idle hhost (microStep_faulted h.phase hf) hrun] at ht
      exact ht hf
    have hleft := scriptLeft_microStep hb hp
    rw [hleft, List.length_cons, Nat.add_right_cancel_iff] at hk
    rw [hleft, run_succ k (step_inStepMode h.phase h.stable), Nat.add_comm k, ← Nat.add_assoc]
    exact ih (u := nextDraw (microStep u)) (n + 1) (h.microStep hp) hk hrun

/-- A run that begins with an accepted command. -/
theorem run_cmdWrite {i : Instr} (hd : decode (encode i) = .ok i) {s : State} (ha : Accepting s)
    (rest : List HostAction) (k : Nat) :
    Host.Core.run Sys2Proof.core (k + 1) { s with host := cmdWrite i :: rest } =
      Host.Core.run Sys2Proof.core k (nextDraw (bodyOf i { s with host := rest })) :=
  run_succ k (step_cmdWrite_accepted hd rfl ha)

/-- AINIT clears DONE, so a run that begins with it does not depend on DONE (R131). -/
theorem run_ainit_done {s : State} (ha : Accepting s) (rest : List HostAction) (k : Nat) (d : Bool) :
    Host.Core.run Sys2Proof.core (k + 1) { s with host := cmdWrite .ainit :: rest, done := d } =
      Host.Core.run Sys2Proof.core (k + 1) { s with host := cmdWrite .ainit :: rest } :=
  (run_cmdWrite (i := .ainit) rfl (s := { s with done := d }) ha rest k).trans
    (run_cmdWrite (i := .ainit) rfl ha rest k).symm

/-- R155's sequence does not depend on DONE: its AINIT clears it, and CINIT does not look at it. -/
theorem run_stepModeScript_done {s : State} (ha : Accepting s) (d : Bool) :
    Host.Core.run Sys2Proof.core (stepModeScript s).length
        { s with host := stepModeScript s, done := d } =
      Host.Core.run Sys2Proof.core (stepModeScript s).length { s with host := stepModeScript s } := by
  by_cases hc : s.ctValid = true
  · rw [stepModeScript_built hc]
    exact run_ainit_done ha _ _ d
  · rw [stepModeScript_unbuilt (Bool.eq_false_iff.mpr hc)]
    exact (run_cmdWrite (i := .cinit) rfl (s := { s with done := d }) ha _ _).trans
      ((run_ainit_done (s := nextDraw (cinitBody s)) ha _ _ d).trans
        (run_cmdWrite (i := .cinit) rfl ha _ _).symm)

/-- The state after the acceptance step of HASH (R150). -/
def hashAccepted (s : State) : State :=
  { s with host := [], done := false, hseq := .init, draws := s.draws + 1 }

theorem run_hash {s : State} (ha : Accepting s) (hk : s.kind ≠ .reserved) (k : Nat) :
    Host.Core.run Sys2Proof.core (1 + k) { s with host := [cmdWrite .hash] } =
      Host.Core.run Sys2Proof.core k (hashAccepted s) := by
  have hbody : bodyOf .hash { s with host := [] } = completed .hash { s with host := [] } := if_neg hk
  rw [Nat.add_comm, run_cmdWrite (by rfl) ha, hbody]
  rfl

/-- The accepted HASH as step mode begins it: but for DONE, the state that accepted it. -/
theorem inStepMode_hashAccepted {s : State} (ha : Accepting s) (script : List HostAction) :
    inStepMode script s.draws (hashAccepted s) = { s with host := script, done := false } := by
  rw [inStepMode, hashAccepted, ← hseq_of_ready ha.1]

/-- The host's list and the draw counter are no registers. -/
theorem registers_inStepMode {script : List HostAction} {n : Nat} {u : State} (hq : u.hseq = .none) :
    registers (inStepMode script n u) = registers u := by
  rw [inStepMode, ← hq]
  rfl

/-- Settles O56: the micro-steps run beside R155's sequence, and end with HSEQ = NONE, which step mode never leaves. -/
theorem hashEqualsStepMode : Obligations.HashEqualsStepMode := by
  intro s t _ ha hk hs hrun ht
  have hleft : scriptLeft (hashAccepted s) = stepModeScript s := rfl
  rw [run_hash ha hk, ← stepModeScript_length] at hrun
  obtain ⟨hq, hsteps⟩ :=
    run_inStepMode (u := hashAccepted s) s.draws ⟨rfl, ha.2, hs⟩ (congrArg List.length hleft) hrun ht
  rw [hleft, inStepMode_hashAccepted ha, run_stepModeScript_done ha] at hsteps
  exact ⟨_, hsteps, registers_inStepMode hq, rfl⟩

end Sys2Proof.Proofs

/-! The family of 60_exceptions.md: no step is stuck (R170), what a raise writes (R172, R173), which error is reported with
which record (R171, R174, R175), how FAULT is left (R178, R179), and what a HASH can raise (R188). -/

namespace Sys2Proof.Proofs

open Sys2Proof Sys2Proof.Machine Sys2Proof.Config

/-- Settles O8: a step idles, or makes a move, and both have a next state. -/
theorem everyStepHasANextState : Obligations.EveryStepHasANextState := fun s =>
  (step_moves s).elim (fun h => ⟨_, h (payloadOf s)⟩) fun ⟨_, _, h⟩ => ⟨_, h (payloadOf s)⟩

/-! ## What a raise writes (R172, R173) -/

/-- `s` with what a fault entry writes taken from `t`, and with the reads that `t` has issued. -/
def withFaultOf (t s : State) : State :=
  { s with
    errCode := t.errCode, errOff := t.errOff, errWidth := t.errWidth
    phase := .fault, hseq := .none, reads := t.reads }

theorem bodyOf_precise {i : Instr} {s : State} (hp : s.phase ≠ .fault)
    (hf : (bodyOf i s).phase = .fault) : bodyOf i s = withFaultOf (bodyOf i s) s := by
  rcases bodyOf_cases i s with ⟨c, off, w, r, _, e⟩ | ⟨hm, e⟩
  · rw [e]
    rfl
  · exact absurd (e ▸ hf) (completed_not_fault hm hp)

/-- A micro-step that ends in FAULT is the body that raised. -/
theorem microStep_of_fault {s : State} (hf : (microStep s).phase = .fault) :
    microStep s = bodyOf (sequencerCommand s) s := by
  rw [microStep_eq, thenGoTo_phase] at hf
  rw [microStep_eq, thenGoTo_self (.inr hf)]

/-- Settles O49: what ends in FAULT is a body that raised. -/
theorem faultsArePrecise : Obligations.FaultsArePrecise := by
  refine ⟨fun i s t ha h hf => ?_, fun s _ hp hf => ?_⟩
  · cases h.symm.trans (exec_accepting i ha)
    exact bodyOf_precise ha.2 hf
  · have e := microStep_of_fault hf
    rw [e] at hf ⊢
    exact bodyOf_precise hp hf

/-! ## Which error is reported (R171, R174, R175) -/

/-- The error that `t` records is one the command meets in `s`, with its record, and no earlier one is met. -/
def Reports (i : Instr) (s t : State) : Prop :=
  meets i s t.errCode ∧ recordOf i s t.errCode t.errOff t.errWidth ∧
    ∀ c, errorPriority.idxOf c < errorPriority.idxOf t.errCode → ¬meets i s c

/-- None of the errors before `c` in the priority order is met. -/
def NoneBefore (i : Instr) (s : State) (c : ErrCode) : Prop :=
  (errorPriority.take (errorPriority.idxOf c)).Forall fun c' => ¬meets i s c'

theorem NoneBefore.unmet {i : Instr} {s : State} {c c' : ErrCode} (h : NoneBefore i s c)
    (hlt : errorPriority.idxOf c' < errorPriority.idxOf c) : ¬meets i s c' := by
  have hmem : c' ∈ errorPriority :=
    List.idxOf_lt_length_iff.mp (hlt.trans_le List.idxOf_le_length)
  exact List.forall_iff_forall_mem.mp h c' ((List.mem_take_iff_idxOf_lt hmem).mpr hlt)

theorem reports_raise {i : Instr} {s u t : State} {c : ErrCode} {off : DWord} {w : Nat}
    (e : t = raise c off w u) (hm : meets i s c) (hr : recordOf i s c off (BitVec.ofNat 32 w))
    (hn : NoneBefore i s c) : Reports i s t := by
  subst e
  exact ⟨hm, hr, fun _ => hn.unmet⟩

theorem reports_blk {s : State} (hf : (blkBody s).phase = .fault) : Reports .blk s (blkBody s) := by
  rcases blkBody_cases s with ⟨hp, e⟩ | ⟨hp, hc, e⟩ | ⟨hp, hc, hk, e⟩ | ⟨hp, hc, hk, hr, e⟩ |
    ⟨hp, hc, hk, hr, g, hg, hl, e⟩ | ⟨hp, _, _, _, _, e⟩
  · exact reports_raise e hp ⟨rfl, rfl⟩ ⟨id, id⟩
  · exact reports_raise e hc ⟨rfl, rfl⟩ ⟨id, id, not_not.mpr hp⟩
  · exact reports_raise e hk ⟨rfl, rfl⟩ ⟨id, id, not_not.mpr hp, ne_false_of_eq_true hc⟩
  · exact reports_raise e hr ⟨rfl, rfl⟩ ⟨id, id, not_not.mpr hp, ne_false_of_eq_true hc, hk⟩
  · have hin : s.offset.toNat + g.val * L ≤ s.len.toNat :=
      (Nat.le_add_right _ L).trans (subBlock_inside hr g)
    exact reports_raise e ⟨g, hg⟩ ⟨g, hg, hl, toNat_add_inside hin, rfl⟩
      ⟨id, id, not_not.mpr hp, ne_false_of_eq_true hc, hk, Nat.not_lt.mpr hr⟩
  · rw [e] at hf
    cases hp.symm.trans hf

theorem reports_tail {s : State} (hf : (tailBody s).phase = .fault) :
    Reports .tail s (tailBody s) := by
  rcases tailBody_cases s with ⟨hp, e⟩ | ⟨hp, hk, e⟩ | ⟨hp, hk, hr, e⟩ | ⟨hp, hk, hr, hb, e⟩ |
    ⟨hp, _, _, _, e⟩
  · exact reports_raise e hp ⟨rfl, rfl⟩ ⟨id, id⟩
  · exact reports_raise e hk ⟨rfl, rfl⟩ ⟨id, id, not_not.mpr hp, id⟩
  · exact reports_raise e hr ⟨rfl, rfl⟩ ⟨id, id, not_not.mpr hp, id, hk⟩
  · exact reports_raise e hb ⟨rfl, rfl⟩ ⟨id, id, not_not.mpr hp, id, hk, Nat.not_le.mpr hr⟩
  · rw [e] at hf
    cases hp.symm.trans hf

theorem reports_rdbyte {s : State} (hp : s.phase ≠ .fault) (hf : (rdbyteBody s).phase = .fault) :
    Reports .rdbyte s (rdbyteBody s) := by
  rcases rdbyteBody_cases s with ⟨hk, e⟩ | ⟨hk, hr, e⟩ | ⟨hk, hr, hb, e⟩ | ⟨_, _, _, e⟩
  · exact reports_raise e hk ⟨rfl, rfl⟩ ⟨id, id, id, id⟩
  · exact reports_raise e hr ⟨rfl, rfl⟩ ⟨id, id, id, id, hk⟩
  · exact reports_raise e hb ⟨rfl, rfl⟩ ⟨id, id, id, id, hk, Nat.not_le.mpr hr⟩
  · rw [e] at hf
    exact absurd hf hp

theorem reports_rdblk {wsel : Nat} {s : State} (hp : s.phase ≠ .fault)
    (hf : (rdblkBody wsel s).phase = .fault) : Reports (.rdblk wsel) s (rdblkBody wsel s) := by
  rcases selectedWidth_cases wsel with ⟨hsel, hw⟩ | ⟨hsel, hw⟩
  swap
  · exact reports_raise (rdblkBody_reserved hw s) hsel ⟨rfl, rfl⟩ id
  have hwidth : ¬(wsel ≠ 0 ∧ wsel ≠ 1) := fun h => hsel.elim h.1 h.2
  have hrecord : BitVec.ofNat 32 (if wsel = 0 then L else B) = if wsel = 0 then 8 else 32 :=
    apply_ite _ _ _ _
  rcases rdblkBody_cases hw s with ⟨hk, e⟩ | ⟨hk, hr, e⟩ | ⟨hk, hr, hb, e⟩ | ⟨_, _, _, e⟩
  · exact reports_raise e hk ⟨rfl, rfl⟩ ⟨id, hwidth, id, id⟩
  · exact reports_raise e hr ⟨rfl, hrecord⟩ ⟨id, hwidth, id, id, hk⟩
  · exact reports_raise e hb ⟨rfl, hrecord⟩ ⟨id, hwidth, id, id, hk, Nat.not_lt.mpr hr⟩
  · rw [e] at hf
    exact absurd hf hp

/-- Whatever command raises, it reports the first of its errors. -/
theorem bodyOf_reports {i : Instr} {s : State} (hp : s.phase ≠ .fault)
    (hf : (bodyOf i s).phase = .fault) : Reports i s (bodyOf i s) := by
  cases i with
  | nop | cinit => exact absurd hf hp
  | ainit | clr => cases hf
  | blk => exact reports_blk hf
  | red =>
    by_cases hacc : s.phase = .acc
    · rw [bodyOf, redBody_inSequence hacc] at hf
      cases hf
    · exact reports_raise (redBody_outOfSequence hacc) hacc ⟨rfl, rfl⟩ ⟨id, id⟩
  | tail => exact reports_tail hf
  | fin =>
    by_cases hscalar : s.phase = .scalar
    · rw [bodyOf, finBody_inSequence hscalar] at hf
      cases hf
    · exact reports_raise (finBody_outOfSequence hscalar) hscalar ⟨rfl, rfl⟩ ⟨id, id⟩
  | hash =>
    by_cases hk : s.kind = .reserved
    · exact reports_raise (t := hashBody s) (if_pos hk) hk ⟨rfl, rfl⟩ ⟨id, id, id, id⟩
    · have e : bodyOf .hash s = completed .hash s := if_neg hk
      rw [e] at hf
      exact absurd hf hp
  | rdbyte => exact reports_rdbyte hp hf
  | rdblk wsel => exact reports_rdblk hp hf

theorem bodyOf_fault_iff {i : Instr} {s : State} (hp : s.phase ≠ .fault) :
    (bodyOf i s).phase = .fault ↔ ∃ c, meets i s c := by
  refine ⟨fun hf => ⟨_, (bodyOf_reports hp hf).1⟩, fun ⟨c, hc⟩ => ?_⟩
  rcases bodyOf_cases i s with ⟨_, _, _, _, _, e⟩ | ⟨hm, _⟩
  · rw [e, raise_phase]
  · exact absurd hc (hm c)

/-- Settles O50: each body makes its tests in the priority order. -/
theorem firstErrorIsReported : Obligations.FirstErrorIsReported := by
  intro i s t ha h
  cases h.symm.trans (exec_accepting i ha)
  exact ⟨bodyOf_fault_iff ha.2, bodyOf_reports ha.2⟩

/-! ## What a HASH can raise (R188) -/

theorem meets_hash {s : State} {c : ErrCode} (h : meets .hash s c) : c = .kind := by
  cases c with
  | kind => rfl
  | _ => exact h.elim

/-- The invariant and the sequencer's own tests leave a micro-step no error but a refused read. -/
theorem meets_sequencerCommand {s : State} (hinv : StateInv s) (hb : s.busy = true) {c : ErrCode}
    (h : meets (sequencerCommand s) s c) : c = .bus := by
  have hkind := hinv.busyKind hb
  cases hq : s.hseq with
  | none => exact absurd hq (busy_iff.mp hb)
  | init =>
    simp only [sequencerCommand, hq] at h
    split at h <;> exact h.elim
  | bloop =>
    obtain ⟨hp, hc, _, _⟩ := hinv.blockLoop hq
    by_cases ho : s.offset.toNat + B ≤ srcLength s
    · simp only [sequencerCommand, hq, if_pos ho] at h
      cases c with
      | bus => rfl
      | seq => exact absurd hp h
      | noTable => exact absurd hc (ne_true_of_eq_false h)
      | kind => exact absurd h hkind
      | range => exact absurd ho (Nat.not_le.mpr h)
      | none | illegal | width => exact h.elim
    · simp only [sequencerCommand, hq, if_neg ho] at h
      cases c with
      | seq => exact absurd hp h
      | _ => exact h.elim
  | tloop =>
    obtain ⟨hp, _, _⟩ := hinv.tailLoop hq
    by_cases ho : s.offset.toNat < srcLength s
    · simp only [sequencerCommand, hq, if_pos ho] at h
      cases c with
      | bus => rfl
      | seq => exact absurd hp h
      | kind => exact absurd h hkind
      | range => exact absurd ho (Nat.not_lt.mpr h)
      | none | illegal | noTable | width => exact h.elim
    · simp only [sequencerCommand, hq, if_neg ho] at h
      cases c with
      | seq => exact absurd hp h
      | _ => exact h.elim

/-- Settles O53: what is reported is met, and only E_KIND, or E_BUS, can be. -/
theorem hashRaisesOnlyKindAndBus : Obligations.HashRaisesOnlyKindAndBus := by
  refine ⟨fun s t ha h hf => ?_, fun s hinv hb hf => ?_⟩
  · obtain ⟨_, hreport⟩ := firstErrorIsReported .hash s t ha h
    exact meets_hash (hreport hf).1
  · have e := microStep_of_fault hf
    rw [e] at hf ⊢
    exact meets_sequencerCommand hinv hb (bodyOf_reports (hinv.busyNotFault hb) hf).1

/-! ## How FAULT is left (R170, R178, R179) -/

/-- FAULT stands, with the record, H, SH, OFFSET and RESULT of `s`. -/
def FaultHeld (s t : State) : Prop :=
  t.phase = .fault ∧ t.errCode = s.errCode ∧ t.errOff = s.errOff ∧ t.errWidth = s.errWidth ∧
    t.h = s.h ∧ t.sh = s.sh ∧ t.offset = s.offset ∧ t.result = s.result

/-- IDLE, with the record cleared. -/
def RecordCleared (t : State) : Prop :=
  t.phase = .idle ∧ t.errCode = .none ∧ t.errOff = 0 ∧ t.errWidth = 0

section inFault

variable {s t : State}

theorem faultHeld_self (hp : s.phase = .fault) : FaultHeld s s :=
  ⟨hp, rfl, rfl, rfl, rfl, rfl, rfl, rfl⟩

theorem faultHeld_descriptorOnly (hp : s.phase = .fault) (h : DescriptorOnly s t) :
    FaultHeld s t := by
  obtain ⟨k, b, l, w, a, rfl⟩ := h
  exact faultHeld_self hp

/-- A register other than CMD is part of the descriptor or ARG, or it is not written (R38, R44). -/
theorem writeReg_descriptorOnly {r : Reg} {d : Word} (hb : s.busy = false) (hc : r ≠ .cmd)
    (h : writeReg r d s = .next t) : DescriptorOnly s t := by
  cases r with
  | cmd => exact absurd rfl hc
  | srcKind | srcBaseLo | srcBaseHi | srcLenLo | srcLenHi | srcWoffLo | srcWoffHi | argLo | argHi =>
    cases h
    rw [descriptorWrite_ready hb]
    exact ⟨_, _, _, _, _, rfl⟩
  | _ =>
    cases h
    exact ⟨_, _, _, _, _, rfl⟩

/-- In FAULT a command word is dropped, or it is NOP's, or it is CLR's (R39). -/
theorem presentWord_fromFault {w : Word} (hb : s.busy = false) (hp : s.phase = .fault)
    (h : presentWord w s = .next t) :
    FaultHeld s t ∨ (decode w = .ok .clr ∧ t = clearFault s) := by
  by_cases hc : decode w = .ok .clr
  · cases h.symm.trans ((presentWord_ok hc s).trans (exec_freeInFault rfl hb))
    exact .inr ⟨hc, rfl⟩
  refine .inl ?_
  by_cases hn : decode w = .ok .nop
  · cases h.symm.trans ((presentWord_ok hn s).trans (exec_freeInFault rfl hb))
    exact faultHeld_self hp
  · cases h.symm.trans (presentWord_inFault hb hp hn hc)
    exact faultHeld_self hp

theorem regWrite_fromFault {ra : BitVec 12} {bits : Nat} {d : Word} (hb : s.busy = false)
    (hp : s.phase = .fault) (h : regWrite ra bits d s = .next t) :
    FaultHeld s t ∨ (t = clearFault s ∧ clearsFault s (.regWrite ra bits d) = true) := by
  cases hw : wholeWord ra bits with
  | false =>
    cases h.symm.trans (regWrite_partial hw d s)
    exact .inl (faultHeld_self hp)
  | true =>
    cases hr : regAt ra.toNat with
    | none =>
      cases h.symm.trans (regWrite_reserved hr bits d s)
      exact .inl (faultHeld_self hp)
    | some r =>
      rw [regWrite_at hw hr] at h
      by_cases hc : r = .cmd
      · subst hc
        exact (presentWord_fromFault hb hp h).imp_right fun ⟨hd, e⟩ =>
          ⟨e, (clearsFault_cmd hw hr).mpr ⟨hb, hd⟩⟩
      · exact .inl (faultHeld_descriptorOnly hp (writeReg_descriptorOnly hb hc h))

/-- Every event from outside that finds FAULT: CLR and reset leave it, nothing else does. -/
theorem outsideTurn_fromFault {a : HostAction} (hb : s.busy = false) (hp : s.phase = .fault)
    (h : outsideTurn a s = .next t) :
    FaultHeld s t ∨ (RecordCleared t ∧ clearsFault s a = true) := by
  cases a with
  | regWrite ra bits d =>
    obtain ⟨u, hu, rfl⟩ := mapNext_eq_next h
    exact (regWrite_fromFault hb hp hu).imp_right fun ⟨e, hclears⟩ =>
      ⟨e ▸ ⟨rfl, rfl, rfl, rfl⟩, hclears⟩
  | rst =>
    cases h
    exact .inr ⟨⟨rfl, rfl, rfl, rfl⟩, rfl⟩
  | regRead | storeBegin | store =>
    cases h
    exact .inl (faultHeld_self hp)
  | pause =>
    cases h.symm.trans (vphaTurn_idle hb)
    exact .inl (faultHeld_self hp)

end inFault

/-- Settles O51: a block in FAULT is not busy, so only an event from outside changes it. -/
theorem faultIsStickyUntilCleared : Obligations.FaultIsStickyUntilCleared := by
  intro s t hinv hp h
  have hb : s.busy = false := Bool.eq_false_iff.mpr fun hb => hinv.busyNotFault hb hp
  cases hh : s.host with
  | nil =>
    cases h.symm.trans ((step_nil hh).trans (vphaTurn_idle hb))
    exact .inl (faultHeld_self hp)
  | cons a rest =>
    rw [step_of_cons hh] at h
    exact (outsideTurn_fromFault (s := eventTaken s) hb hp h).imp_right
      fun ⟨⟨hphase, hcode, hoff, hwidth⟩, hclears⟩ =>
        ⟨hphase, hcode, hoff, hwidth, a, rest, rfl, hclears⟩

end Sys2Proof.Proofs
